-- ==== Sys2Proof/Word.lean ====
section
/-! DEFINITION. The widths of the engine: bytes (field elements, BUF cells), 32-bit words (registers, command
words) and the 4-bit fields of a command word. -/

namespace Sys2Proof

/-- One byte: a field element of GF(2^8), or a cell of BUF (10_state.md R11, R20). -/
abbrev Byte := BitVec 8

/-- 32 bits: a general register, a system register or a command word (00_scope.md R6, 30_encoding.md R60). -/
abbrev Word := BitVec 32

/-- A 4-bit field f1 .. f6 of a command word (30_encoding.md R61). -/
abbrev Nibble := Fin 16

/-- The number of a general register; all sixteen values are legal (10_state.md R17). -/
abbrev Reg := Fin 16

end Sys2Proof
end

