-- ==== Sys2Proof/Machine/Field.lean ====
section
/-! DEFINITION. The field GF(2^8): its constant tables as 10_state.md R12 to R14 print them, sixteen entries to a row,
and the field operators of 41_scalar_field.md R90 to R94 over them (log 14). -/

namespace Sys2Proof.Machine

/-- `xtime(a)`: doubling in the field, reduced by POLY = 0x11D (10_state.md R11). -/
def xtime (a : Byte) : Byte := if a.getLsbD 7 then (a <<< 1) ^^^ 0x1D else a <<< 1

/-- Entry `i` of a table printed in rows of sixteen bytes, the first entry leftmost. -/
def tableEntry (rows : List Nat) (i : Nat) : Byte :=
  BitVec.ofNat 8 (rows.getD (i / 16) 0 >>> (8 * (15 - i % 16)))

/-- The listing of EXP in R12, entries 0 to 255. -/
def expRows : List Nat :=
  [0x01020408102040801D3A74E8CD871326, 0x4C982D5AB475EAC98F03060C183060C0,
   0x9D274E9C254A94356AD4B577EEC19F23, 0x468C050A142850A05DBA69D2B96FDEA1,
   0x5FBE61C2992F5EBC65CA890F1E3C78F0, 0xFDE7D3BB6BD6B17FFEE1DFA35BB671E2,
   0xD9AF4386112244880D1A3468D0BD67CE, 0x811F3E7CF8EDC7933B76ECC5973366CC,
   0x85172E5CB86DDAA94F9E214284152A54, 0xA84D9A2952A455AA49923972E4D5B773,
   0xE6D1BF63C6913F7EFCE5D7B37BF6F1FF, 0xE3DBAB4B963162C495376EDCA557AE41,
   0x82193264C88D070E1C3870E0DDA753A6, 0x51A259B279F2F9EFC39B2B56AC458A09,
   0x122448903D7AF4F5F7F3FBEBCB8B0B16, 0x2C58B07DFAE9CF831B366CD8AD478E01]

/-- The listing of LOG in R13. -/
def logRows : List Nat :=
  [0xFF00011902321AC603DF33EE1B68C74B, 0x0464E00E348DEF811CC169F8C8084C71,
   0x058A652FE1240F2135938EDAF0128245, 0x1DB5C27D6A27F9B9C99A09784DE472A6,
   0x06BF8B6266DD30FDE29825B310912288, 0x36D094CE8F96DBBDF1D2135C83384640,
   0x1E42B6A3C3487E6E6B3A2854FA85BA3D, 0xCA5E9B9F0A15792B4ED4E5AC73F3A757,
   0x0770C0F78C80630D674ADEED31C5FE18, 0xE3A5997726B8B47C114492D92320892E,
   0x373FD15B95BCCFCD908797B2DCFCBE61, 0xF256D3AB142A5D9E843C3953476D41A2,
   0x1F2D43D8B77BA476C41749EC7F0C6FF6, 0x6CA13B52299D55AAFB6086B1BBCC3E5A,
   0xCB595FB09CA9A0510BF516EB7A752CD7, 0x4FAED5E9E6E7ADE874D6F4EAA85058AF]

/-- The listing of INV in R14. -/
def invRows : List Nat :=
  [0x00018EF447A77ABAAD9DDD983DAA5D96, 0xD872C058E03E4C6690DE5580A0834B2A,
   0x6CED395160562C8A70D01F4A268B336E, 0x48896F2EA4C3405E5022CFA9AB0C15E1,
   0x365FF8D5924EA60430882B1E16674593, 0x3823688C811A256113C1CB63970E3741,
   0x2457CA5BB9C4174D528DEFB320EC2F32, 0x28D111D9E9FBDA79DB7706BB84CDFEFC,
   0x1B54A11D7CCCE4B04931272D536902F5, 0x18DF444F9BBC0F5C0BDCBD94AC09C7A2,
   0x1C829FC634C24605CE3B0D3C9C08BEB7, 0x87E5EE6BEBF2BFAFC564077B959AAEB6,
   0x1259A53565B8A39ED2F7625A857DA83A, 0x2971C8F6F943D7D610737678990A1991,
   0x143FE6F086B1E2F1FA74F3B46D21B26A, 0xE3E7B5EA038FD3C942D4E8757FFF7EFD]

/-- `EXP[i]`, `0 <= i <= 509`: two copies of the period 255 (R12). -/
def gfExp (i : Nat) : Byte := tableEntry expRows (i % 255)

/-- `LOG[a]`, with the filler 255 at 0 (R13). -/
def gfLog (a : Byte) : Nat := (tableEntry logRows a.toNat).toNat

/-- `INV[a]`, with the filler 0 at 0 (R14). -/
def gfInv (a : Byte) : Byte := tableEntry invRows a.toNat

/-- `a (+) b` (41_scalar_field.md R90). -/
def gfAdd (a b : Byte) : Byte := a ^^^ b

/-- `a (*) b`, the entry `MUL[a][b]` (10_state.md R15, 41_scalar_field.md R91). -/
def gfMul (a b : Byte) : Byte := if a = 0 ∨ b = 0 then 0 else gfExp (gfLog a + gfLog b)

/-- `a (/) b` for `b != 0` (R92). -/
def gfDiv (a b : Byte) : Byte := if a = 0 then 0 else gfExp (gfLog a + 255 - gfLog b)

/-- `a ^ e` for a natural exponent (R93, its closed form). -/
def gfPow (a : Byte) (e : Nat) : Byte :=
  if e = 0 then 1 else if a = 0 then 0 else gfExp (gfLog a * e % 255)

/-- `SUM(+)` of a sequence (00_scope.md R7); the empty sum is 0. -/
def gfSum : List Byte → Byte
  | [] => 0
  | a :: as => gfAdd a (gfSum as)

/-- `PROD(*)` of a sequence (44_codec_construct.md R127); the empty product is 1. -/
def gfProd : List Byte → Byte
  | [] => 1
  | a :: as => gfMul a (gfProd as)

/-- The evaluation point `y_i` of fragment number `i` (44_codec_construct.md R126). -/
def evalPoint : Nat → Byte
  | 0 => 0
  | i + 1 => gfExp i

end Sys2Proof.Machine
end

