-- ==== Sys2Proof/Syntax.lean ====
section
/-! DEFINITION. The commands of the RSE command set, one constructor per row of spec/opcode_table.json, operands in
the field order of 30_encoding.md R65 and under its names. A register operand is a register number; the system
register number of MFS and the pivot policy of MSTD and MINV are 4-bit fields "used as they stand" (R63): which of
their values are legal is `Instr.wellFormed`. -/

namespace Sys2Proof

/-- A command of the engine (30_encoding.md R65). -/
inductive Instr where
  /-- NOP, R80. -/
  | nop
  /-- LI, R81. -/
  | li (rd : Reg) (imm16 : BitVec 16)
  /-- LIH, R82. -/
  | lih (rd : Reg) (imm16 : BitVec 16)
  /-- MOV, R85. -/
  | mov (rd ra : Reg)
  /-- MFS, R83. -/
  | mfs (rd : Reg) (sreg : Nibble)
  /-- CLRERR, R84. -/
  | clrerr
  /-- LDB, R86. -/
  | ldb (rd ra : Reg)
  /-- STB, R87. -/
  | stb (ra rb : Reg)
  /-- GFADD, R90. -/
  | gfadd (rd ra rb : Reg)
  /-- GFMUL, R91. -/
  | gfmul (rd ra rb : Reg)
  /-- GFDIV, R92. -/
  | gfdiv (rd ra rb : Reg)
  /-- GFPOW, R93. -/
  | gfpow (rd ra re : Reg)
  /-- GFINV, R94. -/
  | gfinv (rd ra : Reg)
  /-- GFEXP, R95. -/
  | gfexp (rd ra : Reg)
  /-- GFLOG, R96. -/
  | gflog (rd ra : Reg)
  /-- VDOT, R100. -/
  | vdot (rd ra rb rl : Reg)
  /-- VADDMUL, R101. -/
  | vaddmul (rdst rsrc rl rf : Reg)
  /-- PEVAL, R102. -/
  | peval (rd rp rl rx : Reg)
  /-- PSCALE, R103. -/
  | pscale (rdst rp rl rf : Reg)
  /-- PADD, R104. -/
  | padd (rdst ra rla rb rlb : Reg)
  /-- PDIV, R105. -/
  | pdiv (rq rr ra rla rb rlb : Reg)
  /-- MGET, R111. -/
  | mget (rd rm rr rc ri rj : Reg)
  /-- MSET, R112. -/
  | mset (rm rr rc ri rj rv : Reg)
  /-- MROW, R113. -/
  | mrow (rd rm rr rc ri : Reg)
  /-- MSWAP, R114. -/
  | mswap (rm rr rc ri rj : Reg)
  /-- MSCALE, R115. -/
  | mscale (rm rr rc ri rf : Reg)
  /-- MADDMUL, R116. -/
  | maddmul (rm rr rc rs rt rf : Reg)
  /-- MSTD, R119. -/
  | mstd (rm rr rc : Reg) (pol : Nibble)
  /-- MINV, R120. -/
  | minv (rm rr rc ra rca : Reg) (pol : Nibble)
  /-- MPAR, R121. -/
  | mpar (rdst rm rr rc : Reg)
  /-- FECNEW, R129. -/
  | fecnew (rk rn : Reg)
  /-- REQUIRED, R130. -/
  | required (rd : Reg)
  /-- TOTAL, R131. -/
  | total (rd : Reg)
  /-- ENCGET, R132. -/
  | encget (rd ri rj : Reg)
  /-- VANDGET, R133. -/
  | vandget (rd ri rj : Reg)
  /-- ENCDUMP, R134. -/
  | encdump (ra : Reg)
  /-- VANDDUMP, R135. -/
  | vanddump (ra : Reg)
  /-- ENCODE, R141. -/
  | encode (rout rin rlen : Reg)
  /-- ENCSINGLE, R142. -/
  | encsingle (rout rin rlen ridx : Reg)
  /-- REBUILD, R146. -/
  | rebuild (rout rsl rcnt rbs : Reg)
  /-- SYND, R151. -/
  | synd (rout rsl rcnt : Reg)
  /-- BWB, R156. -/
  | bwb (rout rsl rcnt rbs rp : Reg)
  /-- CORRECT, R158. -/
  | correct (rsl rcnt rbs : Reg)
  /-- DECODE, R159. -/
  | decode (rout rsl rcnt rbs : Reg)
  /-- DECNC, R160. -/
  | decnc (rout rol rsl rcnt rbs : Reg)
  deriving DecidableEq, Repr

end Sys2Proof
end

