-- ==== Sys2Proof/WellFormed.lean ====
section
/-! DEFINITION. The operand checks of 30_encoding.md R64: a system register number is at most 8, a pivot policy at
most 1. Every register number and every 16-bit immediate is legal. -/

namespace Sys2Proof

/-- The system register field of MFS names a register (30_encoding.md R61: "0 to 8 legal"). -/
def sregLegal (sreg : Nibble) : Bool := sreg.val ≤ 8

/-- The pivot policy field of MSTD and MINV names a policy (30_encoding.md R61: "0 = STRICT, 1 = SKIP legal"). -/
def polLegal (pol : Nibble) : Bool := pol.val ≤ 1

/-- A command whose encoding is legal (30_encoding.md R64, R66). -/
def Instr.wellFormed : Instr → Bool
  | .mfs _ sreg => sregLegal sreg
  | .mstd _ _ _ pol => polLegal pol
  | .minv _ _ _ _ _ pol => polLegal pol
  | .nop => true
  | .li _ _ => true
  | .lih _ _ => true
  | .mov _ _ => true
  | .clrerr => true
  | .ldb _ _ => true
  | .stb _ _ => true
  | .gfadd _ _ _ => true
  | .gfmul _ _ _ => true
  | .gfdiv _ _ _ => true
  | .gfpow _ _ _ => true
  | .gfinv _ _ => true
  | .gfexp _ _ => true
  | .gflog _ _ => true
  | .vdot _ _ _ _ => true
  | .vaddmul _ _ _ _ => true
  | .peval _ _ _ _ => true
  | .pscale _ _ _ _ => true
  | .padd _ _ _ _ _ => true
  | .pdiv _ _ _ _ _ _ => true
  | .mget _ _ _ _ _ _ => true
  | .mset _ _ _ _ _ _ => true
  | .mrow _ _ _ _ _ => true
  | .mswap _ _ _ _ _ => true
  | .mscale _ _ _ _ _ => true
  | .maddmul _ _ _ _ _ _ => true
  | .mpar _ _ _ _ => true
  | .fecnew _ _ => true
  | .required _ => true
  | .total _ => true
  | .encget _ _ _ => true
  | .vandget _ _ _ => true
  | .encdump _ => true
  | .vanddump _ => true
  | .encode _ _ _ => true
  | .encsingle _ _ _ _ => true
  | .rebuild _ _ _ _ => true
  | .synd _ _ _ => true
  | .bwb _ _ _ _ _ => true
  | .correct _ _ _ => true
  | .decode _ _ _ _ => true
  | .decnc _ _ _ _ _ => true

end Sys2Proof
end

