-- ==== Sys2Proof/Decode.lean ====
section
/-! DEFINITION. Decoding a command word (30_encoding.md R60 to R67), total on every 32-bit word, an illegal word
rejected under the name of what makes it illegal; then the encoder, written from the same table R65. -/

namespace Sys2Proof

/-- Why a word is no command (30_encoding.md R66). The engine answers IllegalCommand to all four alike. -/
inductive Illegal where
  /-- Bits 31:24 are not one of the 45 opcodes. -/
  | unknownOpcode
  /-- A field of kind `0` is not 0, or bits 19:16 of a format I word are not 0. -/
  | unusedField
  /-- The `s` field of MFS is 9 to 15. -/
  | systemRegister
  /-- The `p` field of MSTD or MINV is 2 to 15. -/
  | pivotPolicy
  deriving DecidableEq, Repr

/-- `w[31:24]` (R61). -/
def opcodeOf (w : Word) : Nat := w.toNat / 2 ^ 24

/-- The 4-bit field of a word whose lowest bit is bit `lo` (R61). -/
def nibbleAt (lo : Nat) (w : Word) : Nibble := ⟨w.toNat / 2 ^ lo % 16, Nat.mod_lt _ (by decide)⟩

/-- `f1` = `w[23:20]` (R61). -/
def f1 (w : Word) : Nibble := nibbleAt 20 w

/-- `f2` = `w[19:16]` (R61). -/
def f2 (w : Word) : Nibble := nibbleAt 16 w

/-- `f3` = `w[15:12]` (R61). -/
def f3 (w : Word) : Nibble := nibbleAt 12 w

/-- `f4` = `w[11:8]` (R61). -/
def f4 (w : Word) : Nibble := nibbleAt 8 w

/-- `f5` = `w[7:4]` (R61). -/
def f5 (w : Word) : Nibble := nibbleAt 4 w

/-- `f6` = `w[3:0]` (R61). -/
def f6 (w : Word) : Nibble := nibbleAt 0 w

/-- `imm16` = `w[15:0]` (R62). -/
def imm16Of (w : Word) : BitVec 16 := w.setWidth 16

/-- The command `i`, if the listed fields of kind `0` are all 0 (R64 step 3; for format I step 2). -/
def unused (zeros : List Nibble) (i : Instr) : Except Illegal Instr :=
  if zeros.all (· == 0) then .ok i else .error .unusedField

/-- The command `i`, if the `s` field is legal (R64 step 3). -/
def needSreg (sreg : Nibble) (i : Except Illegal Instr) : Except Illegal Instr :=
  if sregLegal sreg then i else .error .systemRegister

/-- The command `i`, if the `p` field is legal (R64 step 3). -/
def needPol (pol : Nibble) (i : Except Illegal Instr) : Except Illegal Instr :=
  if polLegal pol then i else .error .pivotPolicy

/-- Decoding (R64), one line per row of R65: the opcode, the fields of kind `0`, the command. -/
def decode (w : Word) : Except Illegal Instr :=
  match opcodeOf w with
  | 0x00 => unused [f1 w, f2 w, f3 w, f4 w, f5 w, f6 w] .nop
  | 0x01 => unused [f2 w] (.li (f1 w) (imm16Of w))
  | 0x02 => unused [f2 w] (.lih (f1 w) (imm16Of w))
  | 0x03 => unused [f3 w, f4 w, f5 w, f6 w] (.mov (f1 w) (f2 w))
  | 0x04 => needSreg (f2 w) (unused [f3 w, f4 w, f5 w, f6 w] (.mfs (f1 w) (f2 w)))
  | 0x05 => unused [f1 w, f2 w, f3 w, f4 w, f5 w, f6 w] .clrerr
  | 0x06 => unused [f3 w, f4 w, f5 w, f6 w] (.ldb (f1 w) (f2 w))
  | 0x07 => unused [f3 w, f4 w, f5 w, f6 w] (.stb (f1 w) (f2 w))
  | 0x10 => unused [f4 w, f5 w, f6 w] (.gfadd (f1 w) (f2 w) (f3 w))
  | 0x11 => unused [f4 w, f5 w, f6 w] (.gfmul (f1 w) (f2 w) (f3 w))
  | 0x12 => unused [f4 w, f5 w, f6 w] (.gfdiv (f1 w) (f2 w) (f3 w))
  | 0x13 => unused [f4 w, f5 w, f6 w] (.gfpow (f1 w) (f2 w) (f3 w))
  | 0x14 => unused [f3 w, f4 w, f5 w, f6 w] (.gfinv (f1 w) (f2 w))
  | 0x15 => unused [f3 w, f4 w, f5 w, f6 w] (.gfexp (f1 w) (f2 w))
  | 0x16 => unused [f3 w, f4 w, f5 w, f6 w] (.gflog (f1 w) (f2 w))
  | 0x20 => unused [f5 w, f6 w] (.vdot (f1 w) (f2 w) (f3 w) (f4 w))
  | 0x21 => unused [f5 w, f6 w] (.vaddmul (f1 w) (f2 w) (f3 w) (f4 w))
  | 0x22 => unused [f5 w, f6 w] (.peval (f1 w) (f2 w) (f3 w) (f4 w))
  | 0x23 => unused [f5 w, f6 w] (.pscale (f1 w) (f2 w) (f3 w) (f4 w))
  | 0x24 => unused [f6 w] (.padd (f1 w) (f2 w) (f3 w) (f4 w) (f5 w))
  | 0x25 => .ok (.pdiv (f1 w) (f2 w) (f3 w) (f4 w) (f5 w) (f6 w))
  | 0x30 => .ok (.mget (f1 w) (f2 w) (f3 w) (f4 w) (f5 w) (f6 w))
  | 0x31 => .ok (.mset (f1 w) (f2 w) (f3 w) (f4 w) (f5 w) (f6 w))
  | 0x32 => unused [f6 w] (.mrow (f1 w) (f2 w) (f3 w) (f4 w) (f5 w))
  | 0x33 => unused [f6 w] (.mswap (f1 w) (f2 w) (f3 w) (f4 w) (f5 w))
  | 0x34 => unused [f6 w] (.mscale (f1 w) (f2 w) (f3 w) (f4 w) (f5 w))
  | 0x35 => .ok (.maddmul (f1 w) (f2 w) (f3 w) (f4 w) (f5 w) (f6 w))
  | 0x36 => needPol (f6 w) (unused [f4 w, f5 w] (.mstd (f1 w) (f2 w) (f3 w) (f6 w)))
  | 0x37 => needPol (f6 w) (.ok (.minv (f1 w) (f2 w) (f3 w) (f4 w) (f5 w) (f6 w)))
  | 0x38 => unused [f5 w, f6 w] (.mpar (f1 w) (f2 w) (f3 w) (f4 w))
  | 0x40 => unused [f3 w, f4 w, f5 w, f6 w] (.fecnew (f1 w) (f2 w))
  | 0x41 => unused [f2 w, f3 w, f4 w, f5 w, f6 w] (.required (f1 w))
  | 0x42 => unused [f2 w, f3 w, f4 w, f5 w, f6 w] (.total (f1 w))
  | 0x43 => unused [f4 w, f5 w, f6 w] (.encget (f1 w) (f2 w) (f3 w))
  | 0x44 => unused [f4 w, f5 w, f6 w] (.vandget (f1 w) (f2 w) (f3 w))
  | 0x45 => unused [f2 w, f3 w, f4 w, f5 w, f6 w] (.encdump (f1 w))
  | 0x46 => unused [f2 w, f3 w, f4 w, f5 w, f6 w] (.vanddump (f1 w))
  | 0x50 => unused [f4 w, f5 w, f6 w] (.encode (f1 w) (f2 w) (f3 w))
  | 0x51 => unused [f5 w, f6 w] (.encsingle (f1 w) (f2 w) (f3 w) (f4 w))
  | 0x52 => unused [f5 w, f6 w] (.rebuild (f1 w) (f2 w) (f3 w) (f4 w))
  | 0x60 => unused [f4 w, f5 w, f6 w] (.synd (f1 w) (f2 w) (f3 w))
  | 0x61 => unused [f6 w] (.bwb (f1 w) (f2 w) (f3 w) (f4 w) (f5 w))
  | 0x62 => unused [f4 w, f5 w, f6 w] (.correct (f1 w) (f2 w) (f3 w))
  | 0x63 => unused [f5 w, f6 w] (.decode (f1 w) (f2 w) (f3 w) (f4 w))
  | 0x64 => unused [f6 w] (.decnc (f1 w) (f2 w) (f3 w) (f4 w) (f5 w))
  | _ => .error .unknownOpcode

/-- The command that the host's table word stands for: `nbits` bits of `w`, bit 0 the least significant bit of the
command word (all rows have 32 bits; a command word is a number and has no byte order, R60). -/
def decodeTableWord (nbits w : Nat) : Option Instr :=
  match decode (BitVec.ofNat 32 (w % 2 ^ nbits)) with
  | .ok i => if w % 2 ^ nbits < 2 ^ 32 then some i else none
  | .error _ => none

/-- A format R word from its opcode and fields (R61). -/
def packR (op : Nat) (g1 g2 g3 g4 g5 g6 : Nibble) : Word :=
  BitVec.ofNat 32 (op * 2 ^ 24 + g1.val * 2 ^ 20 + g2.val * 2 ^ 16 + g3.val * 2 ^ 12 + g4.val * 2 ^ 8 + g5.val * 2 ^ 4 + g6.val)

/-- A format I word from its opcode, destination and immediate (R62). -/
def packI (op : Nat) (rd : Nibble) (imm16 : BitVec 16) : Word :=
  BitVec.ofNat 32 (op * 2 ^ 24 + rd.val * 2 ^ 20 + imm16.toNat)

/-- The word of a command (R65). For an ill-formed command it is the illegal word with the fields given. -/
def encode : Instr → Word
  | .nop => packR 0x00 0 0 0 0 0 0
  | .li rd imm16 => packI 0x01 rd imm16
  | .lih rd imm16 => packI 0x02 rd imm16
  | .mov rd ra => packR 0x03 rd ra 0 0 0 0
  | .mfs rd sreg => packR 0x04 rd sreg 0 0 0 0
  | .clrerr => packR 0x05 0 0 0 0 0 0
  | .ldb rd ra => packR 0x06 rd ra 0 0 0 0
  | .stb ra rb => packR 0x07 ra rb 0 0 0 0
  | .gfadd rd ra rb => packR 0x10 rd ra rb 0 0 0
  | .gfmul rd ra rb => packR 0x11 rd ra rb 0 0 0
  | .gfdiv rd ra rb => packR 0x12 rd ra rb 0 0 0
  | .gfpow rd ra re => packR 0x13 rd ra re 0 0 0
  | .gfinv rd ra => packR 0x14 rd ra 0 0 0 0
  | .gfexp rd ra => packR 0x15 rd ra 0 0 0 0
  | .gflog rd ra => packR 0x16 rd ra 0 0 0 0
  | .vdot rd ra rb rl => packR 0x20 rd ra rb rl 0 0
  | .vaddmul rdst rsrc rl rf => packR 0x21 rdst rsrc rl rf 0 0
  | .peval rd rp rl rx => packR 0x22 rd rp rl rx 0 0
  | .pscale rdst rp rl rf => packR 0x23 rdst rp rl rf 0 0
  | .padd rdst ra rla rb rlb => packR 0x24 rdst ra rla rb rlb 0
  | .pdiv rq rr ra rla rb rlb => packR 0x25 rq rr ra rla rb rlb
  | .mget rd rm rr rc ri rj => packR 0x30 rd rm rr rc ri rj
  | .mset rm rr rc ri rj rv => packR 0x31 rm rr rc ri rj rv
  | .mrow rd rm rr rc ri => packR 0x32 rd rm rr rc ri 0
  | .mswap rm rr rc ri rj => packR 0x33 rm rr rc ri rj 0
  | .mscale rm rr rc ri rf => packR 0x34 rm rr rc ri rf 0
  | .maddmul rm rr rc rs rt rf => packR 0x35 rm rr rc rs rt rf
  | .mstd rm rr rc pol => packR 0x36 rm rr rc 0 0 pol
  | .minv rm rr rc ra rca pol => packR 0x37 rm rr rc ra rca pol
  | .mpar rdst rm rr rc => packR 0x38 rdst rm rr rc 0 0
  | .fecnew rk rn => packR 0x40 rk rn 0 0 0 0
  | .required rd => packR 0x41 rd 0 0 0 0 0
  | .total rd => packR 0x42 rd 0 0 0 0 0
  | .encget rd ri rj => packR 0x43 rd ri rj 0 0 0
  | .vandget rd ri rj => packR 0x44 rd ri rj 0 0 0
  | .encdump ra => packR 0x45 ra 0 0 0 0 0
  | .vanddump ra => packR 0x46 ra 0 0 0 0 0
  | .encode rout rin rlen => packR 0x50 rout rin rlen 0 0 0
  | .encsingle rout rin rlen ridx => packR 0x51 rout rin rlen ridx 0 0
  | .rebuild rout rsl rcnt rbs => packR 0x52 rout rsl rcnt rbs 0 0
  | .synd rout rsl rcnt => packR 0x60 rout rsl rcnt 0 0 0
  | .bwb rout rsl rcnt rbs rp => packR 0x61 rout rsl rcnt rbs rp 0
  | .correct rsl rcnt rbs => packR 0x62 rsl rcnt rbs 0 0 0
  | .decode rout rsl rcnt rbs => packR 0x63 rout rsl rcnt rbs 0 0
  | .decnc rout rol rsl rcnt rbs => packR 0x64 rout rol rsl rcnt rbs 0

end Sys2Proof
end

