-- ==== Sys2Proof/Config.lean ====
section
/-! DEFINITION. What one engine fixes and the spec leaves a parameter. -/

namespace Sys2Proof.Config

/-- MEMSIZE of the engine that `State.reset` describes. The spec leaves MEMSIZE a model argument (00_scope.md R6,
92 D7); the state carries it in `memsz`, so nothing else in the model depends on this number.
DESIGN CHOICE 4096, the value of 95_test_vectors.md (log 1). Unsafe for a claim about `State.reset` itself. -/
def memSize : Nat := 4096

end Sys2Proof.Config
end

