-- ==== Sys2Proof/Machine/State.lean ====
section
/-! DEFINITION. The state of the engine (10_state.md R10), the ports of its host interface (70_reset_and_hazards.md
R198), the reset state, and the names of everything that can end a command or a step. -/

namespace Sys2Proof.Machine

/-- The error codes of 60_exceptions.md R171 (OK is no error). A command that meets one ends with it and the engine
goes on; none of them stops the model. -/
inductive ErrorCode where
  | invalidParameters
  | inputLengthMismatch
  | insufficientShares
  | invalidShareId
  | divideByZero
  | invertZero
  | matrixInversionFailed
  | uncorrectableErrors
  | notEnoughShares
  | internalInvariant
  | illegalCommand
  | operandRange
  | busError
  | noCodec
  deriving DecidableEq, Repr

/-- What a column without a pivot does to an elimination (43_matrix.md R118). -/
inductive Policy where
  /-- The elimination ends with MatrixInversionFailed. -/
  | strict
  /-- The column is passed over and the elimination goes on. -/
  | skip
  deriving DecidableEq, Repr

/-- Reasons for which a step of the model stops. The engine itself never stops (R170): the one reason is a move of
the host that has no meaning. -/
inductive Fault where
  /-- Raised by the step that takes a host read or write of a BUF address of MEMSIZE or above: such an address does
  not exist (20_memory.md R47). Safe: the model stops where the spec gives no access (log 9). -/
  | hostOutsideBuf
  deriving DecidableEq, Repr

/-- Reasons for which the model has no transition. -/
inductive Refusal where
  /-- Raised by an arm of `exec` whose instruction has no meaning yet. Safe. -/
  | notModelled (mnemonic : String)
  /-- Raised by every command (and host read) that reads a BUF byte neither the host nor a command has written since
  reset: 93_implementation_defined.md U1, treatment "refuse". Safe (log 2). -/
  | unwrittenByte
  /-- Raised by a command that would write a region sharing a byte with another region it names, where its rule does
  not allow it, and by the share-list commands at step F10: 93_implementation_defined.md U2, treatment "refuse".
  Safe (log 3). -/
  | overlappingRegions
  /-- Raised by a share-list command whose list holds two entries with one number: 93_implementation_defined.md U3,
  treatment "refuse". Safe (log 4). -/
  | duplicateNumbers
  deriving DecidableEq, Repr

/-- Buffer memory: the written bytes of BUF, by rising address; an address not listed has not been written since
reset and reads as no value (10_state.md R20, log 2). -/
abbrev Memory := List Host.Cell

/-- The contents of a filled codec slot (10_state.md R18): K, N, ENC (N rows of K bytes), VAND (K rows of N bytes). -/
structure Codec where
  k : Nat
  n : Nat
  enc : List (List Byte)
  vand : List (List Byte)
  deriving DecidableEq, Repr

/-- What the host can do to the engine (70_reset_and_hazards.md R198, 20_memory.md R40), each between commands
(log 5). -/
inductive HostAction where
  /-- Give the engine a command word (30_encoding.md R60). -/
  | command (w : Word)
  /-- Write one byte of BUF. -/
  | write (a : Nat) (b : Byte)
  /-- Read one byte of BUF. -/
  | read (a : Nat)
  /-- Reset the engine (R190). -/
  | reset
  deriving DecidableEq, Repr

/-- The state of the engine (10_state.md R10), and the ports of its host interface. -/
structure State where
  /-- General registers x[0] .. x[15] (R17). -/
  x : Vector Word 16
  /-- The codec slot: absent when VALID = 0, its contents when VALID = 1 (R18, log 11). -/
  codec : Option Codec
  /-- Buffer memory BUF (R20). -/
  mem : Memory
  /-- CSEQ, the count of ended commands (R21). -/
  cseq : Word
  /-- STATUS.ERRS (R22). -/
  errs : Bool
  /-- ERR, the code of the latest failure (R22). -/
  err : Byte
  /-- ECMD, the command word of the latest failure (R22). -/
  ecmd : Word
  /-- ESEQ, the value CSEQ had during the latest failure (R22). -/
  eseq : Word
  /-- LEN0, the quotient length of the last successful PDIV (R22). -/
  len0 : Word
  /-- LEN1, the remainder length of the last successful PDIV (R22). -/
  len1 : Word
  /-- MEMSZ, the constant MEMSIZE of this engine (R22, R6, log 1). -/
  memsz : Word
  /-- What the host does next, oldest first (the model's own field, log 5). -/
  inbox : List HostAction
  /-- The response to the command that ended last, if one has ended since reset (R170, log 6). -/
  response : Option Byte
  /-- The byte the host's latest read of BUF delivered, if it has read one since reset (R198, log 6). -/
  hostData : Option Byte
  deriving DecidableEq, Repr

/-- The state after reset (10_state.md R25, 70_reset_and_hazards.md R191) of an engine whose MEMSIZE is `memsz`, with
the host about to do `inbox`. -/
def State.resetWith (memsz : Word) (inbox : List HostAction) : State :=
  { x := Vector.replicate 16 0
    codec := none
    mem := []
    cseq := 0
    errs := false
    err := 0
    ecmd := 0
    eseq := 0
    len0 := 0
    len1 := 0
    memsz := memsz
    inbox := inbox
    response := none
    hostData := none }

/-- The machine right after reset (R25, R191), with the host idle. -/
def State.reset : State := State.resetWith (BitVec.ofNat 32 Config.memSize) []

end Sys2Proof.Machine
end

