-- ==== Sys2Proof/Machine/Operands.lean ====
section
/-! DEFINITION. The operand forms of the command set: a register as a whole number, its low byte as a field element
(10_state.md R17, 40_system_moves.md R89), a region of BUF (20_memory.md R41, R43, R46), a matrix named by base, rows
and columns (43_matrix.md R110), and the little-endian items of a share list (R42, R56). -/

namespace Sys2Proof.Machine

/-- `zext_32(v)` (00_scope.md R7). -/
def zext32 (b : Byte) : Word := b.setWidth 32

/-- `b8(v)`, the low byte of a register value (00_scope.md R7). -/
def b8 (v : Word) : Byte := v.setWidth 8

/-- `x[r]` (R17). -/
def State.reg (s : State) (r : Reg) : Word := s.x[r.val]

/-- `x[r]` as an address, length, count, index or exponent: the whole 32-bit unsigned value (R17). -/
def State.num (s : State) (r : Reg) : Nat := (s.reg r).toNat

/-- `x[r]` as a field element (R17). -/
def State.elem (s : State) (r : Reg) : Byte := b8 (s.reg r)

/-- MEMSIZE as a number. -/
def State.memSize (s : State) : Nat := s.memsz.toNat

/-- A region of BUF: `len` bytes from `start` (20_memory.md R41). -/
structure Region where
  start : Nat
  len : Nat
  deriving DecidableEq, Repr

/-- Address `a` is one of the region's bytes (R41). -/
def Region.has (r : Region) (a : Nat) : Bool := r.start ≤ a && a < r.start + r.len

/-- The region lies inside a BUF of `memSize` bytes (R43: a region of length 0 always does). -/
def Region.inside (r : Region) (memSize : Nat) : Bool := r.len == 0 || r.start + r.len ≤ memSize

/-- The two regions share a byte (R46: regions of length 0 never overlap anything). -/
def Region.overlaps (r t : Region) : Bool :=
  r.len != 0 && t.len != 0 && r.start < t.start + t.len && t.start < r.start + r.len

/-- No region of the first list shares a byte with one of the second. -/
def apartFrom (rs ts : List Region) : Bool := rs.all fun r => ts.all fun t => !r.overlaps t

/-- No two of the listed regions share a byte (45_encode_rebuild.md R143, F10). -/
def pairwiseApart : List Region → Bool
  | [] => true
  | r :: rs => apartFrom [r] rs && pairwiseApart rs

/-- The regions a command writes share no byte with each other or with a region it only reads (R46). -/
def noClash (written onlyRead : List Region) : Bool :=
  pairwiseApart written && apartFrom written onlyRead

/-- A matrix operand (43_matrix.md R110): base address, rows, columns. -/
structure MatOp where
  base : Nat
  rows : Nat
  cols : Nat
  deriving DecidableEq, Repr

/-- The matrix named by the registers `rm`, `rr`, `rc` (R110). -/
def State.matOp (s : State) (rm rr rc : Reg) : MatOp := ⟨s.num rm, s.num rr, s.num rc⟩

/-- The region of a matrix (20_memory.md R55). -/
def MatOp.region (m : MatOp) : Region := ⟨m.base, m.rows * m.cols⟩

/-- Row `i` of a matrix (R55). -/
def MatOp.row (m : MatOp) (i : Nat) : Region := ⟨m.base + i * m.cols, m.cols⟩

/-- The address of element `[i][j]` (R55). -/
def MatOp.at (m : MatOp) (i j : Nat) : Nat := m.base + i * m.cols + j

/-- The `n` bytes of a number, least significant first (R42). -/
def leBytes : Nat → Nat → List Byte
  | 0, _ => []
  | n + 1, v => BitVec.ofNat 8 v :: leBytes n (v / 256)

/-- `le16` and `le32`: the number a byte sequence stands for, least significant first (00_scope.md R7). -/
def leValue : List Byte → Nat
  | [] => 0
  | b :: bs => b.toNat + 256 * leValue bs

end Sys2Proof.Machine
end

