-- ==== Sys2Proof/Machine/Flags.lean ====
section
/-! DEFINITION. The engine has no arithmetic flags (10_state.md R22). This file gives the numbers of the error codes
(60_exceptions.md R171) and the values in which a system register shows the state: STATUS with its two flags, CFG, and
the rest (R22, 40_system_moves.md R83). -/

namespace Sys2Proof.Machine

/-- The response code OK (60_exceptions.md R170). -/
def codeOk : Byte := 0x00

/-- The number of an error (R171). -/
def ErrorCode.code : ErrorCode → Byte
  | .invalidParameters => 0x01
  | .inputLengthMismatch => 0x02
  | .insufficientShares => 0x03
  | .invalidShareId => 0x04
  | .divideByZero => 0x05
  | .invertZero => 0x06
  | .matrixInversionFailed => 0x07
  | .uncorrectableErrors => 0x08
  | .notEnoughShares => 0x09
  | .internalInvariant => 0x0A
  | .illegalCommand => 0x10
  | .operandRange => 0x11
  | .busError => 0x12
  | .noCodec => 0x13

/-- STATUS.VALID (R22): the codec slot is filled. -/
def State.valid (s : State) : Bool := s.codec.isSome

/-- K as software sees it: 0 when VALID = 0 (R18, R22). -/
def State.k (s : State) : Nat := match s.codec with
  | some c => c.k
  | none => 0

/-- N as software sees it: 0 when VALID = 0 (R18, R22). -/
def State.n (s : State) : Nat := match s.codec with
  | some c => c.n
  | none => 0

/-- STATUS: bit 0 VALID, bit 1 ERRS, the rest 0 (R22, R83). -/
def State.status (s : State) : Word := BitVec.ofNat 32 (s.valid.toNat + 2 * s.errs.toNat)

/-- CFG: K in bits 8:0, N in bits 24:16 (R22, R83). -/
def State.cfg (s : State) : Word := BitVec.ofNat 32 (s.k + 65536 * s.n)

/-- The system register with a given number (R22); numbers 9 to 15 are not defined. -/
def State.sysReg (s : State) (sreg : Nibble) : Option Word :=
  match sreg.val with
  | 0 => some s.status
  | 1 => some (zext32 s.err)
  | 2 => some s.ecmd
  | 3 => some s.eseq
  | 4 => some s.cseq
  | 5 => some s.cfg
  | 6 => some s.len0
  | 7 => some s.len1
  | 8 => some s.memsz
  | _ => none

/-- The pivot policy with a given number (43_matrix.md R119); numbers 2 to 15 are not defined. -/
def policyOf (pol : Nibble) : Option Policy :=
  match pol.val with
  | 0 => some .strict
  | 1 => some .skip
  | _ => none

end Sys2Proof.Machine
end

