-- ==== Sys2Proof/Machine/Ops.lean ====
section
/-! DEFINITION. The shared operations: reading and writing BUF and the registers, the checks every command makes, how
a command ends well, how it fails (the engine's exception entry, 60_exceptions.md R172) and how the record of a failure
is cleared (R176). A meaning is a check-and-compute part that answers `Except Halt …`, handed to the one of the
`finish…` operations that says what kind of state the command may change. -/

namespace Sys2Proof.Machine

/-! ### Buffer memory -/

/-- The byte of BUF at `a`, if one has been written since reset (20_memory.md R45, 93 U1). -/
def Memory.read : Memory → Nat → Option Byte
  | [], _ => none
  | (a', b) :: m, a => if a = a' then some b else Memory.read m a

/-- BUF with byte `b` at `a` (R45); the list stays in rising order of address. -/
def Memory.write : Memory → Nat → Byte → Memory
  | [], a, b => [(a, b)]
  | (a', b') :: m, a, b =>
    if a < a' then (a, b) :: (a', b') :: m
    else if a = a' then (a, b) :: m
    else (a', b') :: Memory.write m a b

/-- `MemRead(a, n)` (00_scope.md R7), if all `n` bytes have been written since reset. -/
def Memory.readBytes (m : Memory) : Nat → Nat → Option (List Byte)
  | _, 0 => some []
  | a, n + 1 =>
    match m.read a, m.readBytes (a + 1) n with
    | some b, some bs => some (b :: bs)
    | _, _ => none

/-- `MemWrite(a, n, v)` (00_scope.md R7), `n` the length of `v`. -/
def Memory.writeBytes (m : Memory) : Nat → List Byte → Memory
  | _, [] => m
  | a, b :: bs => Memory.writeBytes (m.write a b) (a + 1) bs

/-- Addresses strictly rising: the canonical form of BUF. (An unlisted address reads as no value, so no entry can equal
what it would read as.) -/
def Memory.wf : Memory → Bool
  | [] => true
  | (a, _) :: m => m.all (fun c => a < c.1) && Memory.wf m

/-- Every written byte is a byte of a BUF of `memSize` bytes (R47). -/
def Memory.within (m : Memory) (memSize : Nat) : Bool := m.all fun c => c.1 < memSize

/-! ### Registers -/

/-- `x[r] <- v` (10_state.md R17: no register is hard-wired). -/
def State.setReg (s : State) (r : Reg) (v : Word) : State := { s with x := s.x.set r.val v }

/-! ### How a command ends -/

/-- A command ends with success: CSEQ advances, the response is OK, the error latch keeps its value (10_state.md R21,
60_exceptions.md R170, R172). -/
def State.complete (s : State) : State := { s with cseq := s.cseq + 1, response := some codeOk }

/-- TAKING AN ERROR, the engine's exception entry (60_exceptions.md R172): command word `w` fails with error `e`. The
latch records the code, the word and the command's number, ERRS is set, CSEQ advances, and nothing else changes. -/
def State.raise (s : State) (w : Word) (e : ErrorCode) : State :=
  { s with
    response := some e.code
    err := e.code
    ecmd := w
    eseq := s.cseq
    errs := true
    cseq := s.cseq + 1 }

/-- Clearing the latch, all there is of a return (40_system_moves.md R84, 60_exceptions.md R176). -/
def State.clearLatch (s : State) : State := { s with errs := false, err := 0, ecmd := 0, eseq := 0 }

/-- What ends the checks of a command before its effect. -/
inductive Halt where
  /-- A check failed: the command ends with this error. -/
  | raised (e : ErrorCode)
  /-- The spec leaves the outcome unspecified and has a model refuse. -/
  | refuse (r : Refusal)
  deriving DecidableEq, Repr

/-- What a step answers. -/
abbrev Answer := Host.Outcome State Fault Refusal

/-- The command `i` stops at its checks; registers, codec slot, LEN0, LEN1 and BUF are unchanged (R174). -/
def State.halt (s : State) (i : Instr) : Halt → Answer
  | .raised e => .next (s.raise (encode i) e)
  | .refuse r => .refused r

/-- End of a command that writes one general register. -/
def State.finishReg (s : State) (i : Instr) (rd : Reg) : Except Halt Word → Answer
  | .ok v => .next (s.setReg rd v).complete
  | .error h => s.halt i h

/-- End of a command that writes BUF, and only when it succeeds. -/
def State.finishMem (s : State) (i : Instr) : Except Halt Memory → Answer
  | .ok m => .next { s with mem := m }.complete
  | .error h => s.halt i h

/-- End of a command that can fail after it has changed BUF (the three cases of 60_exceptions.md R174): BUF as the
command leaves it, and the error if it fails. -/
def State.finishPart (s : State) (i : Instr) : Except Halt (Memory × Option ErrorCode) → Answer
  | .ok (m, none) => .next { s with mem := m }.complete
  | .ok (m, some e) => .next ({ s with mem := m }.raise (encode i) e)
  | .error h => s.halt i h

/-- End of PDIV, which writes BUF and the two result lengths (42_vector_poly.md R105). -/
def State.finishDiv (s : State) (i : Instr) : Except Halt (Memory × Nat × Nat) → Answer
  | .ok (m, l0, l1) =>
    .next { s with mem := m, len0 := BitVec.ofNat 32 l0, len1 := BitVec.ofNat 32 l1 }.complete
  | .error h => s.halt i h

/-- End of FECNEW, which fills the codec slot (44_codec_construct.md R129). -/
def State.finishCodec (s : State) (i : Instr) : Except Halt Codec → Answer
  | .ok c => .next { s with codec := some c }.complete
  | .error h => s.halt i h

/-! ### Checks -/

/-- A numbered check of a command's rule: `c`, else error `e` (00_scope.md R8). -/
def demand (c : Bool) (e : ErrorCode) : Except Halt Unit := if c then .ok () else .error (.raised e)

/-- An error of a computation ends the command with that error (00_scope.md R7, `raise E`). -/
def orRaise {α : Type} : Except ErrorCode α → Except Halt α
  | .ok v => .ok v
  | .error e => .error (.raised e)

/-- The region lies inside BUF, else BusError (20_memory.md R43). -/
def State.demandInside (s : State) (r : Region) : Except Halt Unit := demand (r.inside s.memSize) .busError

/-- The regions lie inside BUF, tested in order, else BusError (R43). -/
def State.demandAllInside (s : State) (rs : List Region) : Except Halt Unit :=
  demand (rs.all (·.inside s.memSize)) .busError

/-- The written regions clash with nothing the command names, else the outcome is unspecified (R46, 93 U2). -/
def demandNoClash (written onlyRead : List Region) : Except Halt Unit :=
  if noClash written onlyRead then .ok () else .error (.refuse .overlappingRegions)

/-- The bytes of a region, all of which must have been written since reset (R45, 93 U1). -/
def Memory.load (m : Memory) (r : Region) : Except Halt (List Byte) :=
  match m.readBytes r.start r.len with
  | some bs => .ok bs
  | none => .error (.refuse .unwrittenByte)

/-- The bytes of several regions, in order. -/
def Memory.loadEach (m : Memory) : List Region → Except Halt (List (List Byte))
  | [] => .ok []
  | r :: rs => do
    let bs ← m.load r
    let rest ← m.loadEach rs
    .ok (bs :: rest)

/-- The codec slot, else NoCodec (44_codec_construct.md R125). -/
def State.needCodec (s : State) : Except Halt Codec :=
  match s.codec with
  | some c => .ok c
  | none => .error (.raised .noCodec)

end Sys2Proof.Machine
end

