-- ==== Sys2Proof/Machine/VectorPoly.lean ====
section
/-! DEFINITION. Vectors and polynomials as byte sequences, and the commands over them (42_vector_poly.md R100 to R105).
A polynomial has its most significant coefficient first (20_memory.md R54). -/

namespace Sys2Proof.Machine

/-! ### Functions on sequences -/

/-- `zeros(n)` (00_scope.md R7). -/
def zeros (n : Nat) : List Byte := List.replicate n 0

/-- Element-wise `(+)` of two sequences of equal length. -/
def seqAdd (u v : List Byte) : List Byte := List.zipWith gfAdd u v

/-- `dot(u, v)` (R100). -/
def dot (u v : List Byte) : Byte := gfSum (List.zipWith gfMul u v)

/-- `addmul(d, s, f)`: elements `d[i] (+) (f (*) s[i])` (R101). -/
def addmul (d s : List Byte) (f : Byte) : List Byte := List.zipWith (fun a b => gfAdd a (gfMul f b)) d s

/-- The terms `p[L-1-i] (*) x^i` of a polynomial given from its constant coefficient up, `i` counting from the second
argument. -/
def polyTerms (x : Byte) : Nat → List Byte → List Byte
  | _, [] => []
  | i, c :: cs => gfMul c (gfPow x i) :: polyTerms x (i + 1) cs

/-- `polyeval(p, x)` (R102). -/
def polyeval (p : List Byte) (x : Byte) : Byte := gfSum (polyTerms x 0 p.reverse)

/-- `polyscale(p, f)` (R103). -/
def polyscale (p : List Byte) (f : Byte) : List Byte := p.map fun c => gfMul c f

/-- The polynomial lengthened to `n` coefficients at its high-degree end (R104). -/
def padTo (n : Nat) (p : List Byte) : List Byte := zeros (n - p.length) ++ p

/-- `polyadd(a, b)` (R104). -/
def polyadd (a b : List Byte) : List Byte :=
  seqAdd (padTo (max a.length b.length) a) (padTo (max a.length b.length) b)

/-- The polynomial without its leading zero elements (R105). -/
def stripZeros (p : List Byte) : List Byte := p.dropWhile (· == 0)

/-- The loop of the long division (R105): `q` the quotient so far, `p` what remains of the dividend, the first argument
a bound on the number of rounds, each of which shortens `p`. -/
def divLoop (b : List Byte) : Nat → List Byte → List Byte → Except ErrorCode (List Byte × List Byte)
  | 0, q, p => .ok (q, p)
  | fuel + 1, q, p =>
    if b.length ≤ p.length then
      let coef := gfDiv (p.getD 0 0) (b.getD 0 0)
      let p' := seqAdd p (polyscale b coef ++ zeros (p.length - b.length))
      if p'.getD 0 0 = 0 then divLoop b fuel (q ++ [coef]) p'.tail else .error .internalInvariant
    else .ok (q, p)

/-- `polydiv(A, B)`: quotient and remainder (R105). -/
def polydiv (A B : List Byte) : Except ErrorCode (List Byte × List Byte) :=
  if (stripZeros B).length = 0 then .error .divideByZero
  else divLoop (stripZeros B) (stripZeros A).length [] (stripZeros A)

/-! ### Commands -/

/-- What VDOT delivers (R100). -/
def vdotValue (ra rb rl : Reg) (s : State) : Except Halt Word := do
  s.demandInside ⟨s.num ra, s.num rl⟩
  s.demandInside ⟨s.num rb, s.num rl⟩
  let u ← s.mem.load ⟨s.num ra, s.num rl⟩
  let v ← s.mem.load ⟨s.num rb, s.num rl⟩
  .ok (zext32 (dot u v))

/-- VDOT (R100). -/
def execVdot (rd ra rb rl : Reg) (s : State) : Answer := s.finishReg (.vdot rd ra rb rl) rd (vdotValue ra rb rl s)

/-- BUF after VADDMUL (R101): the destination is read and overwritten. -/
def vaddmulMem (rdst rsrc rl rf : Reg) (s : State) : Except Halt Memory := do
  s.demandInside ⟨s.num rdst, s.num rl⟩
  s.demandInside ⟨s.num rsrc, s.num rl⟩
  demandNoClash [⟨s.num rdst, s.num rl⟩] [⟨s.num rsrc, s.num rl⟩]
  let d ← s.mem.load ⟨s.num rdst, s.num rl⟩
  let v ← s.mem.load ⟨s.num rsrc, s.num rl⟩
  .ok (s.mem.writeBytes (s.num rdst) (addmul d v (s.elem rf)))

/-- VADDMUL (R101). -/
def execVaddmul (rdst rsrc rl rf : Reg) (s : State) : Answer :=
  s.finishMem (.vaddmul rdst rsrc rl rf) (vaddmulMem rdst rsrc rl rf s)

/-- What PEVAL delivers (R102). -/
def pevalValue (rp rl rx : Reg) (s : State) : Except Halt Word := do
  s.demandInside ⟨s.num rp, s.num rl⟩
  let p ← s.mem.load ⟨s.num rp, s.num rl⟩
  .ok (zext32 (polyeval p (s.elem rx)))

/-- PEVAL (R102). -/
def execPeval (rd rp rl rx : Reg) (s : State) : Answer := s.finishReg (.peval rd rp rl rx) rd (pevalValue rp rl rx s)

/-- BUF after PSCALE (R103). -/
def pscaleMem (rdst rp rl rf : Reg) (s : State) : Except Halt Memory := do
  s.demandInside ⟨s.num rdst, s.num rl⟩
  s.demandInside ⟨s.num rp, s.num rl⟩
  demandNoClash [⟨s.num rdst, s.num rl⟩] [⟨s.num rp, s.num rl⟩]
  let p ← s.mem.load ⟨s.num rp, s.num rl⟩
  .ok (s.mem.writeBytes (s.num rdst) (polyscale p (s.elem rf)))

/-- PSCALE (R103). -/
def execPscale (rdst rp rl rf : Reg) (s : State) : Answer :=
  s.finishMem (.pscale rdst rp rl rf) (pscaleMem rdst rp rl rf s)

/-- BUF after PADD (R104). -/
def paddMem (rdst ra rla rb rlb : Reg) (s : State) : Except Halt Memory := do
  s.demandInside ⟨s.num rdst, max (s.num rla) (s.num rlb)⟩
  s.demandInside ⟨s.num ra, s.num rla⟩
  s.demandInside ⟨s.num rb, s.num rlb⟩
  demandNoClash [⟨s.num rdst, max (s.num rla) (s.num rlb)⟩] [⟨s.num ra, s.num rla⟩, ⟨s.num rb, s.num rlb⟩]
  let a ← s.mem.load ⟨s.num ra, s.num rla⟩
  let b ← s.mem.load ⟨s.num rb, s.num rlb⟩
  .ok (s.mem.writeBytes (s.num rdst) (polyadd a b))

/-- PADD (R104). -/
def execPadd (rdst ra rla rb rlb : Reg) (s : State) : Answer :=
  s.finishMem (.padd rdst ra rla rb rlb) (paddMem rdst ra rla rb rlb s)

/-- BUF and the two result lengths after PDIV (R105). -/
def pdivResult (rq rr ra rla rb rlb : Reg) (s : State) : Except Halt (Memory × Nat × Nat) := do
  s.demandInside ⟨s.num ra, s.num rla⟩
  s.demandInside ⟨s.num rb, s.num rlb⟩
  let a ← s.mem.load ⟨s.num ra, s.num rla⟩
  let b ← s.mem.load ⟨s.num rb, s.num rlb⟩
  let d ← orRaise (polydiv a b)
  s.demandInside ⟨s.num rq, d.1.length⟩
  s.demandInside ⟨s.num rr, d.2.length⟩
  demandNoClash [⟨s.num rq, d.1.length⟩, ⟨s.num rr, d.2.length⟩] [⟨s.num ra, s.num rla⟩, ⟨s.num rb, s.num rlb⟩]
  .ok ((s.mem.writeBytes (s.num rq) d.1).writeBytes (s.num rr) d.2, d.1.length, d.2.length)

/-- PDIV (R105). -/
def execPdiv (rq rr ra rla rb rlb : Reg) (s : State) : Answer :=
  s.finishDiv (.pdiv rq rr ra rla rb rlb) (pdivResult rq rr ra rla rb rlb s)

end Sys2Proof.Machine
end

