-- ==== Sys2Proof/Machine/MatrixOps.lean ====
section
/-! DEFINITION. Matrices of field elements, the elimination procedure and the parity matrix (43_matrix.md R117, R118,
R121), and the matrix commands (R110 to R121). -/

namespace Sys2Proof.Machine

/-! ### Matrices as lists of rows -/

/-- A matrix: its rows, from the top. -/
abbrev Rows := List (List Byte)

/-- The rows of a matrix stored row-major (20_memory.md R55). -/
def rowsOf (r c : Nat) (bs : List Byte) : Rows := (List.range r).map fun i => (bs.drop (i * c)).take c

/-- Element `[i][j]`; 0 outside the matrix, where no rule looks. -/
def elemAt (m : Rows) (i j : Nat) : Byte := (m.getD i []).getD j 0

/-- The sequence of length `n` with 1 at position `i` and 0 elsewhere. -/
def unitRow (n i : Nat) : List Byte := (List.range n).map fun j => if j = i then 1 else 0

/-- The `n` by `n` identity. -/
def identity (n : Nat) : Rows := (List.range n).map (unitRow n)

/-! ### Elimination -/

/-- A row of the matrix together with the same row of its companion: every row operation is applied to both (R117).
An absent companion is one without columns. -/
abbrev PairRow := List Byte × List Byte

/-- The rows of a matrix and of its companion, side by side. -/
def pairRows (m a : Rows) : List PairRow := m.zip a

/-- The rows of a matrix without a companion. -/
def soleRows (m : Rows) : List PairRow := m.map fun r => (r, [])

/-- Row `i`. -/
def rowAt (rows : List PairRow) (i : Nat) : PairRow := rows.getD i ([], [])

/-- `M[j][i]`, read from the matrix, never from the companion (R117). -/
def pivotAt (rows : List PairRow) (j i : Nat) : Byte := (rowAt rows j).1.getD i 0

/-- A row scaled by `f`. -/
def scalePair (r : PairRow) (f : Byte) : PairRow := (polyscale r.1 f, polyscale r.2 f)

/-- A row with `t` times row `p` added. -/
def addmulPair (r p : PairRow) (t : Byte) : PairRow := (addmul r.1 p.1 t, addmul r.2 p.2 t)

/-- Rows `i` and `j` exchanged. -/
def swapRows (rows : List PairRow) (i j : Nat) : List PairRow := (rows.set i (rowAt rows j)).set j (rowAt rows i)

/-- The least row index of `i .. r-1` with a nonzero entry in column `i` (R117). -/
def findPivot (rows : List PairRow) (i : Nat) : Option Nat :=
  (List.range rows.length).find? fun p => i ≤ p && pivotAt rows p i != 0

/-- Row `i` scaled so that its pivot becomes 1 (R117). -/
def scalePivot (rows : List PairRow) (i : Nat) : List PairRow :=
  rows.set i (scalePair (rowAt rows i) (gfInv (pivotAt rows i i)))

/-- Column `i` cleared in the rows below row `i` (R117). -/
def clearBelow (rows : List PairRow) (i : Nat) : List PairRow :=
  rows.mapIdx fun j r => if i < j then addmulPair r (rowAt rows i) (r.1.getD i 0) else r

/-- Column `i` cleared in the rows above row `i` (R117). -/
def clearAbove (rows : List PairRow) (i : Nat) : List PairRow :=
  rows.mapIdx fun j r => if j < i then addmulPair r (rowAt rows i) (r.1.getD i 0) else r

/-- Step `i` of the forward pass, given that row `p` has the pivot (R117). -/
def pivotStep (rows : List PairRow) (i p : Nat) : List PairRow :=
  clearBelow (scalePivot (if p = i then rows else swapRows rows i p) i) i

/-- The forward pass from step `i`, for as many steps as the second argument says; under STRICT a column without a
pivot ends it with the rows as they then are (R117, R119). -/
def forwardPass (policy : Policy) : Nat → Nat → List PairRow → Except (List PairRow) (List PairRow)
  | 0, _, rows => .ok rows
  | todo + 1, i, rows =>
    match findPivot rows i with
    | some p => forwardPass policy todo (i + 1) (pivotStep rows i p)
    | none =>
      match policy with
      | .strict => .error rows
      | .skip => forwardPass policy todo (i + 1) rows

/-- The backward pass, `i` from `r-1` down to 1 (R117). -/
def backwardPass (rows : List PairRow) : List PairRow :=
  (List.range' 1 (rows.length - 1)).reverse.foldl clearAbove rows

/-- `eliminate(M, A, policy)` (R117): the rows at the end, or, as an error, the rows that a MatrixInversionFailed
leaves. -/
def eliminate (policy : Policy) (rows : List PairRow) : Except (List PairRow) (List PairRow) :=
  match forwardPass policy rows.length 0 rows with
  | .ok rows' => .ok (backwardPass rows')
  | .error left => .error left

/-- The rows an elimination under SKIP ends with; it never fails (R118). -/
def eliminateSkip (rows : List PairRow) : List PairRow :=
  match eliminate .skip rows with
  | .ok rows' => rows'
  | .error left => left

/-- `parity(M)` for `M = [ .. | P]`, from the block `P` of `m` columns: the rows `[P transposed | I]` (R121). -/
def parityOf (m : Nat) (P : Rows) : Rows :=
  (List.range m).map fun i => (P.map fun row => row.getD i 0) ++ unitRow m i

/-! ### Element and row commands -/

/-- The region of the named matrix lies inside BUF, else BusError (R110). -/
def State.demandMatrix (s : State) (m : MatOp) : Except Halt Unit := s.demandInside m.region

/-- What MGET delivers (R111). -/
def mgetValue (rm rr rc ri rj : Reg) (s : State) : Except Halt Word := do
  demand (s.num ri < s.num rr && s.num rj < s.num rc) .operandRange
  s.demandMatrix (s.matOp rm rr rc)
  let bs ← s.mem.load ⟨(s.matOp rm rr rc).at (s.num ri) (s.num rj), 1⟩
  .ok (zext32 (bs.getD 0 0))

/-- MGET (R111). -/
def execMget (rd rm rr rc ri rj : Reg) (s : State) : Answer :=
  s.finishReg (.mget rd rm rr rc ri rj) rd (mgetValue rm rr rc ri rj s)

/-- BUF after MSET (R112). -/
def msetMem (rm rr rc ri rj rv : Reg) (s : State) : Except Halt Memory := do
  demand (s.num ri < s.num rr && s.num rj < s.num rc) .operandRange
  s.demandMatrix (s.matOp rm rr rc)
  .ok (s.mem.write ((s.matOp rm rr rc).at (s.num ri) (s.num rj)) (s.elem rv))

/-- MSET (R112). -/
def execMset (rm rr rc ri rj rv : Reg) (s : State) : Answer :=
  s.finishMem (.mset rm rr rc ri rj rv) (msetMem rm rr rc ri rj rv s)

/-- The address MROW delivers (R113). -/
def mrowValue (rm rr rc ri : Reg) (s : State) : Except Halt Word := do
  demand (s.num ri < s.num rr) .operandRange
  s.demandMatrix (s.matOp rm rr rc)
  .ok (BitVec.ofNat 32 ((s.matOp rm rr rc).row (s.num ri)).start)

/-- MROW (R113). -/
def execMrow (rd rm rr rc ri : Reg) (s : State) : Answer :=
  s.finishReg (.mrow rd rm rr rc ri) rd (mrowValue rm rr rc ri s)

/-- BUF after MSWAP (R114): both rows are read before either is written. -/
def mswapMem (rm rr rc ri rj : Reg) (s : State) : Except Halt Memory := do
  demand (s.num ri < s.num rr && s.num rj < s.num rr) .operandRange
  s.demandMatrix (s.matOp rm rr rc)
  let a ← s.mem.load ((s.matOp rm rr rc).row (s.num ri))
  let b ← s.mem.load ((s.matOp rm rr rc).row (s.num rj))
  .ok ((s.mem.writeBytes ((s.matOp rm rr rc).row (s.num ri)).start b).writeBytes
    ((s.matOp rm rr rc).row (s.num rj)).start a)

/-- MSWAP (R114). -/
def execMswap (rm rr rc ri rj : Reg) (s : State) : Answer :=
  s.finishMem (.mswap rm rr rc ri rj) (mswapMem rm rr rc ri rj s)

/-- BUF after MSCALE (R115). -/
def mscaleMem (rm rr rc ri rf : Reg) (s : State) : Except Halt Memory := do
  demand (s.num ri < s.num rr) .operandRange
  s.demandMatrix (s.matOp rm rr rc)
  let a ← s.mem.load ((s.matOp rm rr rc).row (s.num ri))
  .ok (s.mem.writeBytes ((s.matOp rm rr rc).row (s.num ri)).start (polyscale a (s.elem rf)))

/-- MSCALE (R115). -/
def execMscale (rm rr rc ri rf : Reg) (s : State) : Answer :=
  s.finishMem (.mscale rm rr rc ri rf) (mscaleMem rm rr rc ri rf s)

/-- BUF after MADDMUL (R116): both rows are read before the destination is written. -/
def maddmulMem (rm rr rc rs rt rf : Reg) (s : State) : Except Halt Memory := do
  demand (s.num rs < s.num rr && s.num rt < s.num rr) .operandRange
  s.demandMatrix (s.matOp rm rr rc)
  let src ← s.mem.load ((s.matOp rm rr rc).row (s.num rs))
  let dst ← s.mem.load ((s.matOp rm rr rc).row (s.num rt))
  .ok (s.mem.writeBytes ((s.matOp rm rr rc).row (s.num rt)).start (addmul dst src (s.elem rf)))

/-- MADDMUL (R116). -/
def execMaddmul (rm rr rc rs rt rf : Reg) (s : State) : Answer :=
  s.finishMem (.maddmul rm rr rc rs rt rf) (maddmulMem rm rr rc rs rt rf s)

/-! ### Whole-matrix commands -/

/-- The policy an MSTD or MINV word names; a number above 1 makes the word illegal (R64), the decoder never gives
one. -/
def demandPolicy (pol : Nibble) : Except Halt Policy :=
  match policyOf pol with
  | some p => .ok p
  | none => .error (.raised .illegalCommand)

/-- BUF with the rows of a matrix and of its companion stored from the given addresses on. -/
def storePairs (mem : Memory) (m a : Nat) (rows : List PairRow) : Memory :=
  (mem.writeBytes m (rows.map Prod.fst).flatten).writeBytes a (rows.map Prod.snd).flatten

/-- BUF after an elimination in place, and its error if it fails (R119, R120, 60_exceptions.md R174). -/
def eliminateInBuf (mem : Memory) (m a : Nat) (policy : Policy) (rows : List PairRow) : Memory × Option ErrorCode :=
  match eliminate policy rows with
  | .ok rows' => (storePairs mem m a rows', none)
  | .error left => (storePairs mem m a left, some .matrixInversionFailed)

/-- BUF after MSTD, and its error (R119). -/
def mstdResult (rm rr rc : Reg) (pol : Nibble) (s : State) : Except Halt (Memory × Option ErrorCode) := do
  let policy ← demandPolicy pol
  demand (s.num rr ≤ s.num rc) .operandRange
  s.demandMatrix (s.matOp rm rr rc)
  let bs ← s.mem.load (s.matOp rm rr rc).region
  .ok (eliminateInBuf s.mem (s.num rm) (s.num rm) policy (soleRows (rowsOf (s.num rr) (s.num rc) bs)))

/-- MSTD (R119). -/
def execMstd (rm rr rc : Reg) (pol : Nibble) (s : State) : Answer :=
  s.finishPart (.mstd rm rr rc pol) (mstdResult rm rr rc pol s)

/-- BUF after MINV, and its error (R120). -/
def minvResult (rm rr rc ra rca : Reg) (pol : Nibble) (s : State) : Except Halt (Memory × Option ErrorCode) := do
  let policy ← demandPolicy pol
  demand (s.num rr ≤ s.num rc) .operandRange
  s.demandMatrix (s.matOp rm rr rc)
  s.demandMatrix (s.matOp ra rr rca)
  demandNoClash [(s.matOp rm rr rc).region, (s.matOp ra rr rca).region] []
  let bm ← s.mem.load (s.matOp rm rr rc).region
  let ba ← s.mem.load (s.matOp ra rr rca).region
  .ok (eliminateInBuf s.mem (s.num rm) (s.num ra) policy
    (pairRows (rowsOf (s.num rr) (s.num rc) bm) (rowsOf (s.num rr) (s.num rca) ba)))

/-- MINV (R120). -/
def execMinv (rm rr rc ra rca : Reg) (pol : Nibble) (s : State) : Answer :=
  s.finishPart (.minv rm rr rc ra rca pol) (minvResult rm rr rc ra rca pol s)

/-- The regions of the block P of a matrix, columns `r` to `c-1` of each row: all that MPAR reads (R121, log 13). -/
def blockP (m : MatOp) : List Region :=
  (List.range m.rows).map fun j => ⟨m.at j m.rows, m.cols - m.rows⟩

/-- BUF after MPAR (R121). -/
def mparMem (rdst rm rr rc : Reg) (s : State) : Except Halt Memory := do
  demand (s.num rr ≤ s.num rc) .operandRange
  s.demandMatrix (s.matOp rm rr rc)
  s.demandInside ⟨s.num rdst, (s.num rc - s.num rr) * s.num rc⟩
  demandNoClash [⟨s.num rdst, (s.num rc - s.num rr) * s.num rc⟩] [(s.matOp rm rr rc).region]
  let P ← s.mem.loadEach (blockP (s.matOp rm rr rc))
  .ok (s.mem.writeBytes (s.num rdst) (parityOf (s.num rc - s.num rr) P).flatten)

/-- MPAR (R121). -/
def execMpar (rdst rm rr rc : Reg) (s : State) : Answer :=
  s.finishMem (.mpar rdst rm rr rc) (mparMem rdst rm rr rc s)

end Sys2Proof.Machine
end

