-- ==== Sys2Proof/Machine/CodecConstruct.lean ====
section
/-! DEFINITION. The matrices of the codec slot (44_codec_construct.md R126 to R128) and the commands that make and read
a codec (R125, R129 to R135). -/

namespace Sys2Proof.Machine

/-- The product over `m` in `0 .. k-1`, `m != j`, of `y (+) y_m` (R127). -/
def gapProduct (k j : Nat) (y : Byte) : Byte :=
  gfProd (((List.range k).filter (· != j)).map fun m => gfAdd y (evalPoint m))

/-- `ENC[i][j] = L_j(y_i)` (R127). -/
def encElem (k i j : Nat) : Byte := gfDiv (gapProduct k j (evalPoint i)) (gapProduct k j (evalPoint j))

/-- ENC, `n` rows by `k` columns (R127). -/
def encMatrix (k n : Nat) : Rows := (List.range n).map fun i => (List.range k).map fun j => encElem k i j

/-- VAND, `k` rows by `n` columns: `VAND[row][col] = y_col ^ row` (R128; 90_conflicts.md C1). -/
def vandMatrix (k n : Nat) : Rows := (List.range k).map fun row => (List.range n).map fun col => gfPow (evalPoint col) row

/-- The codec FECNEW builds for `k` and `n` (R129). -/
def codecFor (k n : Nat) : Codec := ⟨k, n, encMatrix k n, vandMatrix k n⟩

/-- The codec FECNEW stores (R129). -/
def fecnewCodec (rk rn : Reg) (s : State) : Except Halt Codec := do
  demand (1 ≤ s.num rk && s.num rk ≤ s.num rn && s.num rn ≤ 256) .invalidParameters
  .ok (codecFor (s.num rk) (s.num rn))

/-- FECNEW (R129). -/
def execFecnew (rk rn : Reg) (s : State) : Answer := s.finishCodec (.fecnew rk rn) (fecnewCodec rk rn s)

/-- What REQUIRED delivers (R130). -/
def requiredValue (s : State) : Except Halt Word := do
  let c ← s.needCodec
  .ok (BitVec.ofNat 32 c.k)

/-- REQUIRED (R130). -/
def execRequired (rd : Reg) (s : State) : Answer := s.finishReg (.required rd) rd (requiredValue s)

/-- What TOTAL delivers (R131). -/
def totalValue (s : State) : Except Halt Word := do
  let c ← s.needCodec
  .ok (BitVec.ofNat 32 c.n)

/-- TOTAL (R131). -/
def execTotal (rd : Reg) (s : State) : Answer := s.finishReg (.total rd) rd (totalValue s)

/-- What ENCGET delivers (R132). -/
def encgetValue (ri rj : Reg) (s : State) : Except Halt Word := do
  let c ← s.needCodec
  demand (s.num ri < c.n && s.num rj < c.k) .operandRange
  .ok (zext32 (elemAt c.enc (s.num ri) (s.num rj)))

/-- ENCGET (R132). -/
def execEncget (rd ri rj : Reg) (s : State) : Answer := s.finishReg (.encget rd ri rj) rd (encgetValue ri rj s)

/-- What VANDGET delivers (R133). -/
def vandgetValue (ri rj : Reg) (s : State) : Except Halt Word := do
  let c ← s.needCodec
  demand (s.num ri < c.k && s.num rj < c.n) .operandRange
  .ok (zext32 (elemAt c.vand (s.num ri) (s.num rj)))

/-- VANDGET (R133). -/
def execVandget (rd ri rj : Reg) (s : State) : Answer := s.finishReg (.vandget rd ri rj) rd (vandgetValue ri rj s)

/-- BUF after ENCDUMP (R134). -/
def encdumpMem (ra : Reg) (s : State) : Except Halt Memory := do
  let c ← s.needCodec
  s.demandInside ⟨s.num ra, c.n * c.k⟩
  .ok (s.mem.writeBytes (s.num ra) c.enc.flatten)

/-- ENCDUMP (R134). -/
def execEncdump (ra : Reg) (s : State) : Answer := s.finishMem (.encdump ra) (encdumpMem ra s)

/-- BUF after VANDDUMP (R135). -/
def vanddumpMem (ra : Reg) (s : State) : Except Halt Memory := do
  let c ← s.needCodec
  s.demandInside ⟨s.num ra, c.k * c.n⟩
  .ok (s.mem.writeBytes (s.num ra) c.vand.flatten)

/-- VANDDUMP (R135). -/
def execVanddump (ra : Reg) (s : State) : Answer := s.finishMem (.vanddump ra) (vanddumpMem ra s)

end Sys2Proof.Machine
end

