-- ==== Sys2Proof/Machine/ShareList.lean ====
section
/-! DEFINITION. Share lists (20_memory.md R56) and the front end with which the six share-list commands begin
(45_encode_rebuild.md R143). -/

namespace Sys2Proof.Machine

/-- An entry of a share list (R56): the fragment number, the two bytes that are only carried along, the address. -/
structure Share where
  num : Nat
  reserved : List Byte
  addr : Nat
  deriving DecidableEq, Repr

/-- The entry that 8 bytes stand for (R56). -/
def Share.ofBytes (bs : List Byte) : Share :=
  ⟨leValue (bs.take 2), (bs.drop 2).take 2, leValue (bs.drop 4)⟩

/-- The 8 bytes of an entry (R56). -/
def Share.toBytes (e : Share) : List Byte := leBytes 2 e.num ++ e.reserved ++ leBytes 4 e.addr

/-- The region of a share list of `cnt` entries (R56). -/
def listRegion (sl cnt : Nat) : Region := ⟨sl, 8 * cnt⟩

/-- The entries of a share list of `cnt` entries (R56). -/
def parseShares (cnt : Nat) (bs : List Byte) : List Share :=
  (List.range cnt).map fun t => Share.ofBytes ((bs.drop (8 * t)).take 8)

/-- An entry put in its place in a list in ascending order of number. -/
def insertShare (e : Share) : List Share → List Share
  | [] => [e]
  | t :: ts => if e.num ≤ t.num then e :: t :: ts else t :: insertShare e ts

/-- The entries in ascending order of number (R143, F7). -/
def sortShares : List Share → List Share
  | [] => []
  | e :: es => insertShare e (sortShares es)

/-- No two entries have the same number (R143, F6). -/
def distinctNumbers : List Share → Bool
  | [] => true
  | e :: es => es.all (fun t => t.num != e.num) && distinctNumbers es

/-- The operands of a share-list command (R143): the list's address and count, the block size (`none` for SYND, which
uses no fragment data) and the byte position (BWB only). The output regions stand apart: their sizes depend on K and N. -/
structure ListOperands where
  sl : Nat
  cnt : Nat
  bs : Option Nat
  pos : Option Nat

/-- The data regions of the entries: empty for SYND (R143, F9 and F10). -/
def dataRegions (bs : Option Nat) (shares : List Share) : List Region :=
  match bs with
  | some n => shares.map fun e => ⟨e.addr, n⟩
  | none => []

/-- Step F3: for BWB, the byte position lies inside the block. -/
def positionLegal (bs pos : Option Nat) : Bool :=
  match pos with
  | some p => p < bs.getD 0
  | none => true

/-- What a command works on after the front end: the sorted entries, and BUF with the sorted list written back. -/
structure Listed where
  codec : Codec
  shares : List Share
  mem : Memory

/-- Steps F1 to F7 (R143): the checks that leave BUF alone, then the sort in place. -/
def sortList (s : State) (a : ListOperands) (outs : Codec → List Region) : Except Halt Listed := do
  let c ← s.needCodec
  demand (c.k ≤ a.cnt) .insufficientShares
  demand (positionLegal a.bs a.pos) .operandRange
  s.demandInside (listRegion a.sl a.cnt)
  s.demandAllInside (outs c)
  let bytes ← s.mem.load (listRegion a.sl a.cnt)
  if distinctNumbers (parseShares a.cnt bytes) then
    .ok ⟨c, sortShares (parseShares a.cnt bytes),
      s.mem.writeBytes a.sl ((sortShares (parseShares a.cnt bytes)).map Share.toBytes).flatten⟩
  else .error (.refuse .duplicateNumbers)

/-- The error of steps F8 and F9, if there is one (R143). -/
def listError (s : State) (a : ListOperands) (L : Listed) : Option ErrorCode :=
  if L.shares.any fun e => L.codec.n ≤ e.num then some .invalidShareId
  else if (dataRegions a.bs L.shares).all (·.inside s.memSize) then none
  else some .busError

/-- Step F10 (R143): the data regions, the output regions and the list are pairwise disjoint. -/
def listApart (a : ListOperands) (outs : Codec → List Region) (L : Listed) : Bool :=
  pairwiseApart (dataRegions a.bs L.shares ++ outs L.codec ++ [listRegion a.sl a.cnt])

/-- The front end (R143), then the command's own work on what it yields. An error of F8 or later finds the list
sorted (60_exceptions.md R174). -/
def withList (s : State) (a : ListOperands) (outs : Codec → List Region)
    (work : Listed → Except Halt (Memory × Option ErrorCode)) : Except Halt (Memory × Option ErrorCode) := do
  let L ← sortList s a outs
  match listError s a L with
  | some e => .ok (L.mem, some e)
  | none => if listApart a outs L then work L else .error (.refuse .overlappingRegions)

/-- A fragment at work: its number, where its data lies, and the data (R143: `S[t].num`, `S[t].addr`, `S[t].data`). -/
structure Fragment where
  num : Nat
  addr : Nat
  data : List Byte
  deriving DecidableEq, Repr

/-- The fragments of the sorted list, all of whose data is read (R143 note (g)). -/
def loadFragments (L : Listed) (bs : Nat) : Except Halt (List Fragment) := do
  let datas ← L.mem.loadEach (L.shares.map fun e => ⟨e.addr, bs⟩)
  .ok (List.zipWith (fun (e : Share) d => ⟨e.num, e.addr, d⟩) L.shares datas)

/-- BUF with the data of the fragments stored where it lies. -/
def storeFragments (mem : Memory) : List Fragment → Memory
  | [] => mem
  | f :: fs => storeFragments (mem.writeBytes f.addr f.data) fs

end Sys2Proof.Machine
end

