-- ==== Sys2Proof/Machine/EncodeRebuild.lean ====
section
/-! DEFINITION. Encoding and rebuilding (45_encode_rebuild.md R141 to R146). -/

namespace Sys2Proof.Machine

/-! ### Encoding -/

/-- Block `j` of a data buffer (20_memory.md R54). -/
def blockAt (bs : Nat) (D : List Byte) (j : Nat) : List Byte := (D.drop (j * bs)).take bs

/-- The sum of blocks, each times its coefficient: `F := zeros(bs); F := addmul(F, block, coefficient) ...` (R141,
R145). -/
def combine (bs : Nat) (blocks : List (List Byte)) (coeffs : List Byte) : List Byte :=
  (blocks.zip coeffs).foldl (fun F bc => addmul F bc.1 bc.2) (zeros bs)

/-- Fragment `F_i` of the data `D` (R141). -/
def fragmentOf (c : Codec) (bs : Nat) (D : List Byte) (i : Nat) : List Byte :=
  if i < c.k then blockAt bs D i
  else combine bs ((List.range c.k).map (blockAt bs D)) (c.enc.getD i [])

/-- BUF after ENCODE (R141). -/
def encodeMem (rout rin rlen : Reg) (s : State) : Except Halt Memory := do
  let c ← s.needCodec
  demand (s.num rlen % c.k == 0) .inputLengthMismatch
  s.demandInside ⟨s.num rin, s.num rlen⟩
  s.demandInside ⟨s.num rout, c.n * (s.num rlen / c.k)⟩
  demandNoClash [⟨s.num rout, c.n * (s.num rlen / c.k)⟩] [⟨s.num rin, s.num rlen⟩]
  let D ← s.mem.load ⟨s.num rin, s.num rlen⟩
  .ok (s.mem.writeBytes (s.num rout) ((List.range c.n).map (fragmentOf c (s.num rlen / c.k) D)).flatten)

/-- ENCODE (R141). -/
def execEncode (rout rin rlen : Reg) (s : State) : Answer :=
  s.finishMem (.encode rout rin rlen) (encodeMem rout rin rlen s)

/-- BUF after ENCSINGLE (R142). -/
def encsingleMem (rout rin rlen ridx : Reg) (s : State) : Except Halt Memory := do
  let c ← s.needCodec
  demand (s.num ridx < c.n) .invalidShareId
  demand (s.num rlen % c.k == 0) .inputLengthMismatch
  s.demandInside ⟨s.num rin, s.num rlen⟩
  s.demandInside ⟨s.num rout, s.num rlen / c.k⟩
  demandNoClash [⟨s.num rout, s.num rlen / c.k⟩] [⟨s.num rin, s.num rlen⟩]
  let D ← s.mem.load ⟨s.num rin, s.num rlen⟩
  .ok (s.mem.writeBytes (s.num rout) (fragmentOf c (s.num rlen / c.k) D (s.num ridx)))

/-- ENCSINGLE (R142). -/
def execEncsingle (rout rin rlen ridx : Reg) (s : State) : Answer :=
  s.finishMem (.encsingle rout rin rlen ridx) (encsingleMem rout rin rlen ridx s)

/-! ### Rebuilding -/

/-- The fragments selected for slots `i, i+1, ..`, as many as the first argument says, from the fragments not yet
taken: the first if it belongs in slot `i`, else the last (R144). -/
def selectFrom : Nat → Nat → List Fragment → List Fragment
  | 0, _, _ => []
  | _ + 1, _, [] => []
  | todo + 1, i, f :: fs =>
    if f.num = i then f :: selectFrom todo (i + 1) fs
    else (f :: fs).getLastD f :: selectFrom todo (i + 1) (f :: fs).dropLast

/-- The `k` selected fragments, one for each slot (R144). -/
def selectFragments (k : Nat) (S : List Fragment) : List Fragment := selectFrom k 0 S

/-- The decoding matrix of the selected fragments (R144). -/
def decodingMatrix (c : Codec) (sel : List Fragment) : Rows :=
  sel.map fun f => if f.num < c.k then unitRow c.k f.num else c.enc.getD f.num []

/-- The fragment selected for slot `i` (R144). -/
def selectedAt (c : Codec) (S : List Fragment) (i : Nat) : Fragment := (selectFragments c.k S).getD i ⟨0, 0, []⟩

/-- The fragment selected for slot `i` is a data fragment (R145: `sel[i].num < k`). -/
def received (c : Codec) (S : List Fragment) (i : Nat) : Bool := (selectedAt c S i).num < c.k

/-- `rebuild(S)`: the `k` data blocks (R145). -/
def rebuildBlocks (c : Codec) (bs : Nat) (S : List Fragment) : Except ErrorCode (List (List Byte)) :=
  match eliminate .strict (pairRows (decodingMatrix c (selectFragments c.k S)) (identity c.k)) with
  | .error _ => .error .matrixInversionFailed
  | .ok rows =>
    .ok ((List.range c.k).map fun i =>
      if received c S i then (selectedAt c S i).data
      else combine bs ((selectFragments c.k S).map (·.data)) (rowAt rows i).2)

/-- The block numbers in emission order: the slots whose own fragment was received, then the recomputed ones, both
ascending (R145; 90_conflicts.md C10). -/
def emissionOrder (c : Codec) (S : List Fragment) : List Nat :=
  (List.range c.k).filter (received c S) ++ (List.range c.k).filter fun i => !received c S i

/-- BUF after REBUILD, and its error (R146). -/
def rebuildResult (rout rsl rcnt rbs : Reg) (s : State) : Except Halt (Memory × Option ErrorCode) :=
  withList s ⟨s.num rsl, s.num rcnt, some (s.num rbs), none⟩ (fun c => [⟨s.num rout, c.k * s.num rbs⟩]) fun L => do
    let S ← loadFragments L (s.num rbs)
    match rebuildBlocks L.codec (s.num rbs) S with
    | .ok blocks => .ok (L.mem.writeBytes (s.num rout) blocks.flatten, none)
    | .error e => .ok (L.mem, some e)

/-- REBUILD (R146). -/
def execRebuild (rout rsl rcnt rbs : Reg) (s : State) : Answer :=
  s.finishPart (.rebuild rout rsl rcnt rbs) (rebuildResult rout rsl rcnt rbs s)

end Sys2Proof.Machine
end

