-- ==== Sys2Proof/Machine/BerlekampWelch.lean ====
section
/-! DEFINITION. Syndromes, detection, Berlekamp-Welch repair and decoding (46_berlekamp_welch.md R150 to R160). -/

namespace Sys2Proof.Machine

/-! ### The syndrome matrix -/

/-- `syndrome(S)` for fragments with the given numbers (R150): `r - k` rows of `r` columns. -/
def syndrome (c : Codec) (nums : List Nat) : Except ErrorCode Rows :=
  match eliminate .strict (soleRows (c.vand.map fun row => nums.map fun t => row.getD t 0)) with
  | .ok rows => .ok (parityOf (nums.length - c.k) (rows.map fun r => r.1.drop c.k))
  | .error _ => .error .matrixInversionFailed

/-- BUF after SYND, and its error (R151). -/
def syndResult (rout rsl rcnt : Reg) (s : State) : Except Halt (Memory × Option ErrorCode) :=
  withList s ⟨s.num rsl, s.num rcnt, none, none⟩ (fun c => [⟨s.num rout, (s.num rcnt - c.k) * s.num rcnt⟩]) fun L =>
    match syndrome L.codec (L.shares.map (·.num)) with
    | .ok H => .ok (L.mem.writeBytes (s.num rout) H.flatten, none)
    | .error e => .ok (L.mem, some e)

/-- SYND (R151). -/
def execSynd (rout rsl rcnt : Reg) (s : State) : Answer :=
  s.finishPart (.synd rout rsl rcnt) (syndResult rout rsl rcnt s)

/-! ### Berlekamp-Welch for one byte position -/

/-- Row `i` of the interpolation system, for a fragment at point `x` with byte `b` (R153): the coefficients of `Q`,
then those of `E`. -/
def systemRow (q e : Nat) (x b : Byte) : List Byte :=
  ((List.range q).map fun j => gfPow x j) ++ ((List.range e).map fun t => gfMul (gfPow x t) b)

/-- The solution `u` of the interpolation system of the given fragments at position `p` (R153, R154). -/
def solveSystem (q e p : Nat) (S : List Fragment) : List Byte :=
  let s := S.map fun f => systemRow q e (evalPoint f.num) (f.data.getD p 0)
  let f := S.map fun f => gfMul (gfPow (evalPoint f.num) e) (f.data.getD p 0)
  (eliminateSkip (pairRows s (identity (q + e)))).map fun r => dot r.2 f

/-- The corrected bytes `c[0 .. n-1]` that a solution gives (R155). -/
def bytesFromSolution (n e : Nat) (u : List Byte) : Except ErrorCode (List Byte) :=
  match polydiv (u.reverse.drop e) (1 :: u.reverse.take e) with
  | .error err => .error err
  | .ok (P, rem) =>
    if rem.all (· == 0) then .ok ((List.range n).map fun i => polyeval P (evalPoint i))
    else .error .uncorrectableErrors

/-- `bw(S, p)` (R153 to R155): the system is built from the first `k + 2e` fragments. -/
def bw (c : Codec) (S : List Fragment) (p : Nat) : Except ErrorCode (List Byte) :=
  let e := (S.length - c.k) / 2
  if e = 0 then .error .notEnoughShares
  else bytesFromSolution c.n e (solveSystem (e + c.k) e p (S.take (c.k + 2 * e)))

/-- BUF after BWB, and its error (R156). -/
def bwbResult (rout rsl rcnt rbs rp : Reg) (s : State) : Except Halt (Memory × Option ErrorCode) :=
  withList s ⟨s.num rsl, s.num rcnt, some (s.num rbs), some (s.num rp)⟩ (fun c => [⟨s.num rout, c.n⟩]) fun L => do
    let S ← loadFragments L (s.num rbs)
    match bw L.codec S (s.num rp) with
    | .ok bytes => .ok (L.mem.writeBytes (s.num rout) bytes, none)
    | .error e => .ok (L.mem, some e)

/-- BWB (R156). -/
def execBwb (rout rsl rcnt rbs rp : Reg) (s : State) : Answer :=
  s.finishPart (.bwb rout rsl rcnt rbs rp) (bwbResult rout rsl rcnt rbs rp s)

/-! ### Correction -/

/-- Byte `p` of every present fragment set to its corrected value (R157). -/
def rewriteAt (S : List Fragment) (p : Nat) (bytes : List Byte) : List Fragment :=
  S.map fun f => { f with data := f.data.set p (bytes.getD f.num 0) }

/-- The repair of one flagged byte position; a failure keeps the fragments as repaired so far (R157). -/
def repairAt (c : Codec) (S : List Fragment) (p : Nat) : Except (ErrorCode × List Fragment) (List Fragment) :=
  match bw c S p with
  | .ok bytes => .ok (rewriteAt S p bytes)
  | .error e => .error (e, S)

/-- The repairs at several byte positions, in order (R157). -/
def repairEach (c : Codec) : List Nat → List Fragment → Except (ErrorCode × List Fragment) (List Fragment)
  | [], S => .ok S
  | p :: ps, S =>
    match repairAt c S p with
    | .ok S' => repairEach c ps S'
    | .error e => .error e

/-- The check vector `buf_w` of a syndrome row (R152). -/
def checkVector (bs : Nat) (S : List Fragment) (row : List Byte) : List Byte := combine bs (S.map (·.data)) row

/-- The byte positions a check vector flags, ascending (R152, R157). -/
def flagged (bs : Nat) (buf : List Byte) : List Nat := (List.range bs).filter fun p => buf.getD p 0 != 0

/-- The rows of the syndrome matrix one after another, one check vector for each (R157). -/
def correctRows (c : Codec) (bs : Nat) : Rows → List Fragment → Except (ErrorCode × List Fragment) (List Fragment)
  | [], S => .ok S
  | row :: rows, S =>
    match repairEach c (flagged bs (checkVector bs S row)) S with
    | .ok S' => correctRows c bs rows S'
    | .error e => .error e

/-- `correct(S)` (R157): the corrected fragments, or the error with the fragments as repaired up to it. -/
def correctFragments (c : Codec) (bs : Nat) (S : List Fragment) :
    Except (ErrorCode × List Fragment) (List Fragment) :=
  match syndrome c (S.map (·.num)) with
  | .ok H => correctRows c bs H S
  | .error e => .error (e, S)

/-- BUF after CORRECT, and its error (R158). -/
def correctResult (rsl rcnt rbs : Reg) (s : State) : Except Halt (Memory × Option ErrorCode) :=
  withList s ⟨s.num rsl, s.num rcnt, some (s.num rbs), none⟩ (fun _ => []) fun L => do
    let S ← loadFragments L (s.num rbs)
    match correctFragments L.codec (s.num rbs) S with
    | .ok S' => .ok (storeFragments L.mem S', none)
    | .error (e, S') => .ok (storeFragments L.mem S', some e)

/-- CORRECT (R158). -/
def execCorrect (rsl rcnt rbs : Reg) (s : State) : Answer :=
  s.finishPart (.correct rsl rcnt rbs) (correctResult rsl rcnt rbs s)

/-! ### Decoding -/

/-- Steps 4 and 5 in one (R159, R160): correction, then the rebuild of the corrected fragments, then the outputs that
`emit` makes of the blocks; a failure leaves the repairs made before it. -/
def decodeWith (L : Listed) (bs : Nat) (emit : Memory → List Fragment → List (List Byte) → Memory) :
    Except Halt (Memory × Option ErrorCode) := do
  let S ← loadFragments L bs
  match correctFragments L.codec bs S with
  | .error (e, S') => .ok (storeFragments L.mem S', some e)
  | .ok S' =>
    match rebuildBlocks L.codec bs S' with
    | .error e => .ok (storeFragments L.mem S', some e)
    | .ok blocks => .ok (emit (storeFragments L.mem S') S' blocks, none)

/-- BUF after DECODE, and its error (R159). -/
def decodeResult (rout rsl rcnt rbs : Reg) (s : State) : Except Halt (Memory × Option ErrorCode) :=
  withList s ⟨s.num rsl, s.num rcnt, some (s.num rbs), none⟩ (fun c => [⟨s.num rout, c.k * s.num rbs⟩]) fun L =>
    decodeWith L (s.num rbs) fun mem _ blocks => mem.writeBytes (s.num rout) blocks.flatten

/-- DECODE (R159). -/
def execDecode (rout rsl rcnt rbs : Reg) (s : State) : Answer :=
  s.finishPart (.decode rout rsl rcnt rbs) (decodeResult rout rsl rcnt rbs s)

/-- The emission record of block `j` (R160; layout 20_memory.md R56). -/
def emissionRecord (out bs j : Nat) : List Byte := Share.toBytes ⟨j, [0, 0], out + j * bs⟩

/-- BUF after DECNC, and its error (R160). -/
def decncResult (rout rol rsl rcnt rbs : Reg) (s : State) : Except Halt (Memory × Option ErrorCode) :=
  withList s ⟨s.num rsl, s.num rcnt, some (s.num rbs), none⟩
    (fun c => [⟨s.num rout, c.k * s.num rbs⟩, ⟨s.num rol, 8 * c.k⟩]) fun L =>
    decodeWith L (s.num rbs) fun mem S blocks =>
      (mem.writeBytes (s.num rout) blocks.flatten).writeBytes (s.num rol)
        ((emissionOrder L.codec S).map (emissionRecord (s.num rout) (s.num rbs))).flatten

/-- DECNC (R160). -/
def execDecnc (rout rol rsl rcnt rbs : Reg) (s : State) : Answer :=
  s.finishPart (.decnc rout rol rsl rcnt rbs) (decncResult rout rol rsl rcnt rbs s)

end Sys2Proof.Machine
end

