-- ==== Sys2Proof/Machine/ScalarField.lean ====
section
/-! DEFINITION. Scalar field commands (41_scalar_field.md R90 to R96). -/

namespace Sys2Proof.Machine

/-- GFADD (R90). -/
def execGfadd (rd ra rb : Reg) (s : State) : Answer :=
  s.finishReg (.gfadd rd ra rb) rd (.ok (zext32 (gfAdd (s.elem ra) (s.elem rb))))

/-- GFMUL (R91). -/
def execGfmul (rd ra rb : Reg) (s : State) : Answer :=
  s.finishReg (.gfmul rd ra rb) rd (.ok (zext32 (gfMul (s.elem ra) (s.elem rb))))

/-- The quotient GFDIV delivers (R92): the divisor is tested whatever the dividend is. -/
def gfdivValue (ra rb : Reg) (s : State) : Except Halt Word := do
  demand (s.elem rb != 0) .divideByZero
  .ok (zext32 (gfDiv (s.elem ra) (s.elem rb)))

/-- GFDIV (R92). -/
def execGfdiv (rd ra rb : Reg) (s : State) : Answer := s.finishReg (.gfdiv rd ra rb) rd (gfdivValue ra rb s)

/-- GFPOW (R93): the exponent is the whole register. -/
def execGfpow (rd ra re : Reg) (s : State) : Answer :=
  s.finishReg (.gfpow rd ra re) rd (.ok (zext32 (gfPow (s.elem ra) (s.num re))))

/-- The inverse GFINV delivers (R94). -/
def gfinvValue (ra : Reg) (s : State) : Except Halt Word := do
  demand (s.elem ra != 0) .invertZero
  .ok (zext32 (gfInv (s.elem ra)))

/-- GFINV (R94). -/
def execGfinv (rd ra : Reg) (s : State) : Answer := s.finishReg (.gfinv rd ra) rd (gfinvValue ra s)

/-- The entry GFEXP reads (R95): index 0 to 509. -/
def gfexpValue (ra : Reg) (s : State) : Except Halt Word := do
  demand (s.num ra ≤ 509) .operandRange
  .ok (zext32 (gfExp (s.num ra)))

/-- GFEXP (R95). -/
def execGfexp (rd ra : Reg) (s : State) : Answer := s.finishReg (.gfexp rd ra) rd (gfexpValue ra s)

/-- GFLOG (R96): 255 for the element 0. -/
def execGflog (rd ra : Reg) (s : State) : Answer :=
  s.finishReg (.gflog rd ra) rd (.ok (BitVec.ofNat 32 (gfLog (s.elem ra))))

end Sys2Proof.Machine
end

