-- ==== Sys2Proof/Machine/SystemMoves.lean ====
section
/-! DEFINITION. System, move and single-byte memory commands (40_system_moves.md R80 to R87). -/

namespace Sys2Proof.Machine

/-- NOP (R80). -/
def execNop (s : State) : Answer := .next s.complete

/-- LI (R81): the immediate zero-extended. -/
def execLi (rd : Reg) (imm16 : BitVec 16) (s : State) : Answer :=
  s.finishReg (.li rd imm16) rd (.ok (imm16.setWidth 32))

/-- LIH (R82): the immediate above the low half of the destination. -/
def execLih (rd : Reg) (imm16 : BitVec 16) (s : State) : Answer :=
  s.finishReg (.lih rd imm16) rd (.ok (imm16 ++ (s.reg rd).setWidth 16 : BitVec (16 + 16)))

/-- MOV (R85): all 32 bits. -/
def execMov (rd ra : Reg) (s : State) : Answer := s.finishReg (.mov rd ra) rd (.ok (s.reg ra))

/-- MFS (R83). A number above 8 makes the word illegal (R64); the decoder never gives one. -/
def execMfs (rd : Reg) (sreg : Nibble) (s : State) : Answer :=
  s.finishReg (.mfs rd sreg) rd <|
    match s.sysReg sreg with
    | some v => .ok v
    | none => .error (.raised .illegalCommand)

/-- CLRERR (R84). -/
def execClrerr (s : State) : Answer := .next s.clearLatch.complete

/-- What LDB loads (R86). -/
def ldbValue (ra : Reg) (s : State) : Except Halt Word := do
  s.demandInside ⟨s.num ra, 1⟩
  let bs ← s.mem.load ⟨s.num ra, 1⟩
  .ok (zext32 (bs.getD 0 0))

/-- LDB (R86). -/
def execLdb (rd ra : Reg) (s : State) : Answer := s.finishReg (.ldb rd ra) rd (ldbValue ra s)

/-- BUF after STB (R87). -/
def stbMem (ra rb : Reg) (s : State) : Except Halt Memory := do
  s.demandInside ⟨s.num ra, 1⟩
  .ok (s.mem.write (s.num ra) (s.elem rb))

/-- STB (R87). -/
def execStb (ra rb : Reg) (s : State) : Answer := s.finishMem (.stb ra rb) (stbMem ra rb s)

end Sys2Proof.Machine
end

