-- ==== Sys2Proof/Machine/Dispatch.lean ====
section
/-! DEFINITION. One arm for each command. -/

namespace Sys2Proof.Machine

/-- What a command does to the state of the engine. -/
def exec (i : Instr) (s : State) : Host.Outcome State Fault Refusal :=
  match i with
  | .nop => Sys2Proof.Machine.execNop s
  | .li rd imm16 => Sys2Proof.Machine.execLi rd imm16 s
  | .lih rd imm16 => Sys2Proof.Machine.execLih rd imm16 s
  | .mov rd ra => Sys2Proof.Machine.execMov rd ra s
  | .mfs rd sreg => Sys2Proof.Machine.execMfs rd sreg s
  | .clrerr => Sys2Proof.Machine.execClrerr s
  | .ldb rd ra => Sys2Proof.Machine.execLdb rd ra s
  | .stb ra rb => Sys2Proof.Machine.execStb ra rb s
  | .gfadd rd ra rb => Sys2Proof.Machine.execGfadd rd ra rb s
  | .gfmul rd ra rb => Sys2Proof.Machine.execGfmul rd ra rb s
  | .gfdiv rd ra rb => Sys2Proof.Machine.execGfdiv rd ra rb s
  | .gfpow rd ra re => Sys2Proof.Machine.execGfpow rd ra re s
  | .gfinv rd ra => Sys2Proof.Machine.execGfinv rd ra s
  | .gfexp rd ra => Sys2Proof.Machine.execGfexp rd ra s
  | .gflog rd ra => Sys2Proof.Machine.execGflog rd ra s
  | .vdot rd ra rb rl => Sys2Proof.Machine.execVdot rd ra rb rl s
  | .vaddmul rdst rsrc rl rf => Sys2Proof.Machine.execVaddmul rdst rsrc rl rf s
  | .peval rd rp rl rx => Sys2Proof.Machine.execPeval rd rp rl rx s
  | .pscale rdst rp rl rf => Sys2Proof.Machine.execPscale rdst rp rl rf s
  | .padd rdst ra rla rb rlb => Sys2Proof.Machine.execPadd rdst ra rla rb rlb s
  | .pdiv rq rr ra rla rb rlb => Sys2Proof.Machine.execPdiv rq rr ra rla rb rlb s
  | .mget rd rm rr rc ri rj => Sys2Proof.Machine.execMget rd rm rr rc ri rj s
  | .mset rm rr rc ri rj rv => Sys2Proof.Machine.execMset rm rr rc ri rj rv s
  | .mrow rd rm rr rc ri => Sys2Proof.Machine.execMrow rd rm rr rc ri s
  | .mswap rm rr rc ri rj => Sys2Proof.Machine.execMswap rm rr rc ri rj s
  | .mscale rm rr rc ri rf => Sys2Proof.Machine.execMscale rm rr rc ri rf s
  | .maddmul rm rr rc rs rt rf => Sys2Proof.Machine.execMaddmul rm rr rc rs rt rf s
  | .mstd rm rr rc pol => Sys2Proof.Machine.execMstd rm rr rc pol s
  | .minv rm rr rc ra rca pol => Sys2Proof.Machine.execMinv rm rr rc ra rca pol s
  | .mpar rdst rm rr rc => Sys2Proof.Machine.execMpar rdst rm rr rc s
  | .fecnew rk rn => Sys2Proof.Machine.execFecnew rk rn s
  | .required rd => Sys2Proof.Machine.execRequired rd s
  | .total rd => Sys2Proof.Machine.execTotal rd s
  | .encget rd ri rj => Sys2Proof.Machine.execEncget rd ri rj s
  | .vandget rd ri rj => Sys2Proof.Machine.execVandget rd ri rj s
  | .encdump ra => Sys2Proof.Machine.execEncdump ra s
  | .vanddump ra => Sys2Proof.Machine.execVanddump ra s
  | .encode rout rin rlen => Sys2Proof.Machine.execEncode rout rin rlen s
  | .encsingle rout rin rlen ridx => Sys2Proof.Machine.execEncsingle rout rin rlen ridx s
  | .rebuild rout rsl rcnt rbs => Sys2Proof.Machine.execRebuild rout rsl rcnt rbs s
  | .synd rout rsl rcnt => Sys2Proof.Machine.execSynd rout rsl rcnt s
  | .bwb rout rsl rcnt rbs rp => Sys2Proof.Machine.execBwb rout rsl rcnt rbs rp s
  | .correct rsl rcnt rbs => Sys2Proof.Machine.execCorrect rsl rcnt rbs s
  | .decode rout rsl rcnt rbs => Sys2Proof.Machine.execDecode rout rsl rcnt rbs s
  | .decnc rout rol rsl rcnt rbs => Sys2Proof.Machine.execDecnc rout rol rsl rcnt rbs s

end Sys2Proof.Machine
end

