-- ==== Sys2Proof/Machine/Port.lean ====
section
/-! DEFINITION. The host interface (70_reset_and_hazards.md R198): a command word on the command port, a host write and
a host read of BUF between commands (20_memory.md R40), and reset (R190, R191). -/

namespace Sys2Proof.Machine

/-- The engine accepts command word `w` when idle, executes it to the end and gives its response (30_encoding.md R60); an
illegal word raises IllegalCommand before any other check (R64, R66). -/
def accept (w : Word) (s : State) : Answer :=
  match decode w with
  | .ok i => exec i s
  | .error _ => .next (s.raise w .illegalCommand)

/-- The host writes byte `b` at address `a` of BUF (R40). -/
def hostWrite (a : Nat) (b : Byte) (s : State) : Answer :=
  if a < s.memSize then .next { s with mem := s.mem.write a b } else .fault .hostOutsideBuf

/-- The host reads the byte at address `a` of BUF (R40, 93 U1). -/
def hostRead (a : Nat) (s : State) : Answer :=
  if a < s.memSize then
    match s.mem.read a with
    | some b => .next { s with hostData := some b }
    | none => .refused .unwrittenByte
  else .fault .hostOutsideBuf

/-- Reset (R190, R191, log 8): the engine keeps its MEMSIZE, and the host goes on with what it does next. -/
def hostReset (s : State) : Answer := .next (State.resetWith s.memsz s.inbox)

/-- One action of the host, taken by the engine in state `s`. -/
def perform (a : HostAction) (s : State) : Answer :=
  match a with
  | .command w => accept w s
  | .write a b => hostWrite a b s
  | .read a => hostRead a s
  | .reset => hostReset s

end Sys2Proof.Machine
end

