-- ==== Sys2Proof/Machine/Step.lean ====
section
/-! DEFINITION. One step of the machine: the host's next action, or nothing. -/

namespace Sys2Proof.Machine

/-- One step. The engine has no program counter and fetches nothing (10_state.md R21): it takes the host's next action.
While the host does nothing the engine is idle, which keeps all state (60_exceptions.md R185). -/
def step (s : State) : Host.Outcome State Fault Refusal :=
  match s.inbox with
  | [] => .next s
  | a :: rest => perform a { s with inbox := rest }

/-- The state with the host about to give the engine command word `w` (its low `nbits` bits), before whatever else it
does: the very next step runs that command (log 7). -/
def State.withFetchWord (s : State) (nbits w : Nat) : State :=
  { s with inbox := .command (BitVec.ofNat 32 (w % 2 ^ nbits)) :: s.inbox }

end Sys2Proof.Machine
end

