-- ==== Sys2Proof/Safety.lean ====
section
/-! DEFINITION. What a good state of the engine is (its invariant), and the terms in which claims speak: how a command
ends, what bytes BUF holds, which register a command may write, and the mathematics the spec defines its results by. -/

namespace Sys2Proof.Machine

/-! ### The invariant -/

/-- The contents of a filled codec slot are those of its K and N (10_state.md R18). -/
structure Codec.Legal (c : Codec) : Prop where
  kPos : 1 ≤ c.k
  kLeN : c.k ≤ c.n
  nMax : c.n ≤ 256
  enc : c.enc = encMatrix c.k c.n
  vand : c.vand = vandMatrix c.k c.n

/-- The error codes of 60_exceptions.md R171, OK left out. -/
def errorCodes : List Byte :=
  [0x01, 0x02, 0x03, 0x04, 0x05, 0x06, 0x07, 0x08, 0x09, 0x0A, 0x10, 0x11, 0x12, 0x13]

/-- The error latch is empty, or holds a failure (10_state.md R22, R23). -/
def State.latchLegal (s : State) : Prop :=
  (s.errs = true ∧ s.err ∈ errorCodes) ∨ (s.errs = false ∧ s.err = 0 ∧ s.ecmd = 0 ∧ s.eseq = 0)

/-- A good state: BUF is in canonical form and inside its MEMSIZE bytes (R47), the codec slot is legal (R18), the latch
and the response hold codes of R171, and MEMSIZE is in its range (00_scope.md R6). -/
structure State.Inv (s : State) : Prop where
  memWf : s.mem.wf = true
  memWithin : s.mem.within s.memSize = true
  codecLegal : ∀ c, s.codec = some c → c.Legal
  latch : s.latchLegal
  response : ∀ b, s.response = some b → b = codeOk ∨ b ∈ errorCodes
  memszPos : 1 ≤ s.memSize

/-- A step from `s` answers a next state: it meets neither a fault nor a refusal. -/
def State.Runs (s : State) : Prop := ∃ t, step s = .next t

/-! ### How a command ends -/

/-- What no command changes: MEMSIZE and the host's side of the ports. -/
structure PortsKept (s t : State) : Prop where
  memsz : t.memsz = s.memsz
  inbox : t.inbox = s.inbox
  hostData : t.hostData = s.hostData

/-- The error latch keeps its value (60_exceptions.md R172). -/
structure LatchKept (s t : State) : Prop where
  errs : t.errs = s.errs
  err : t.err = s.err
  ecmd : t.ecmd = s.ecmd
  eseq : t.eseq = s.eseq

/-- A command ended with success: the response is OK and CSEQ has advanced by one, modulo 2^32 (R170, 10_state.md R21);
the ports keep their values. -/
structure EndsOk (s t : State) : Prop extends PortsKept s t where
  cseq : t.cseq = s.cseq + 1
  response : t.response = some 0x00

/-- Every general register keeps its value. -/
abbrev RegsKept (s t : State) : Prop := ∀ r, t.reg r = s.reg r

/-- A command ended with success and wrote `v` to `x[rd]`, and nothing else. -/
structure RegDone (s t : State) (rd : Reg) (v : Word) : Prop extends EndsOk s t, LatchKept s t where
  value : t.reg rd = v
  others : ∀ r, r ≠ rd → t.reg r = s.reg r
  codec : t.codec = s.codec
  mem : t.mem = s.mem
  len0 : t.len0 = s.len0
  len1 : t.len1 = s.len1

/-- A command ended with success and changed BUF, and nothing else: afterwards a read of address `a` gives `w a`. -/
structure MemDone (s t : State) (w : Nat → Option Byte) : Prop extends EndsOk s t, LatchKept s t where
  regs : RegsKept s t
  codec : t.codec = s.codec
  len0 : t.len0 = s.len0
  len1 : t.len1 = s.len1
  bytes : ∀ a, t.mem.read a = w a

/-- A PDIV ended with success: BUF and the two result lengths have changed, and nothing else (42_vector_poly.md R105). -/
structure DivDone (s t : State) (w : Nat → Option Byte) (l0 l1 : Nat) : Prop extends EndsOk s t, LatchKept s t where
  regs : RegsKept s t
  codec : t.codec = s.codec
  len0 : t.len0 = BitVec.ofNat 32 l0
  len1 : t.len1 = BitVec.ofNat 32 l1
  bytes : ∀ a, t.mem.read a = w a

/-- A FECNEW ended with success: the codec slot holds `c`, and nothing else has changed (44_codec_construct.md R129). -/
structure CodecDone (s t : State) (c : Codec) : Prop extends EndsOk s t, LatchKept s t where
  regs : RegsKept s t
  codec : t.codec = some c
  mem : t.mem = s.mem
  len0 : t.len0 = s.len0
  len1 : t.len1 = s.len1

/-- Command word `w` ended with error `e` (R172): the latch records it, CSEQ has advanced, and no general register, no
part of the codec slot, no length register and no port has changed. What BUF holds is for each claim to say. -/
structure Raised (s t : State) (w : Word) (e : ErrorCode) : Prop extends PortsKept s t where
  response : t.response = some e.code
  err : t.err = e.code
  ecmd : t.ecmd = w
  eseq : t.eseq = s.cseq
  errs : t.errs = true
  cseq : t.cseq = s.cseq + 1
  regs : RegsKept s t
  codec : t.codec = s.codec
  len0 : t.len0 = s.len0
  len1 : t.len1 = s.len1

/-- `i` run in `s` ends with error `e` and leaves BUF exactly as it was. -/
def FailsClean (i : Instr) (s : State) (e : ErrorCode) : Prop :=
  ∃ t, exec i s = .next t ∧ Raised s t (encode i) e ∧ t.mem = s.mem

/-! ### What BUF holds -/

/-- BUF holds the byte sequence `u` from address `a` on (00_scope.md R7, `MemRead`). -/
abbrev Holds (s : State) (a : Nat) (u : List Byte) : Prop :=
  ∀ i (h : i < u.length), s.mem.read (a + i) = some u[i]

/-- The contents of BUF after `u` is stored from address `a` on into contents `w` (R7, `MemWrite`). -/
def storedInto (w : Nat → Option Byte) (a : Nat) (u : List Byte) (x : Nat) : Option Byte :=
  if a ≤ x ∧ x < a + u.length then u[x - a]? else w x

/-- The contents of BUF after `u` is stored from address `a` on (R7, `MemWrite`). -/
def stored (s : State) (a : Nat) (u : List Byte) : Nat → Option Byte := storedInto s.mem.read a u

/-- The contents of BUF after the `n` bytes `g 0 .. g (n-1)` are stored from address `a` on. -/
def storedBy (s : State) (a n : Nat) (g : Nat → Byte) (x : Nat) : Option Byte :=
  if a ≤ x ∧ x < a + n then some (g (x - a)) else s.mem.read x

/-- The region of `n` bytes from `a` lies inside BUF (20_memory.md R43). -/
abbrev Inside (s : State) (a n : Nat) : Prop := n = 0 ∨ a + n ≤ s.memSize

/-- The regions (`a`, `n`) and (`b`, `m`) share no byte (R46; regions of length 0 never overlap anything). -/
abbrev Apart (a n b m : Nat) : Prop := n = 0 ∨ m = 0 ∨ a + n ≤ b ∨ b + m ≤ a

/-- Some byte of the `n` bytes from `a` on has not been written since reset (93_implementation_defined.md U1). -/
abbrev Unwritten (s : State) (a n : Nat) : Prop := ∃ i, i < n ∧ s.mem.read (a + i) = none

/-! ### Which state a command may write -/

/-- The general register a command writes, if it writes one (files 40 to 46, "destination"). -/
def destOf : Instr → Option Reg
  | .li rd _ => some rd
  | .lih rd _ => some rd
  | .mov rd _ => some rd
  | .mfs rd _ => some rd
  | .ldb rd _ => some rd
  | .gfadd rd _ _ => some rd
  | .gfmul rd _ _ => some rd
  | .gfdiv rd _ _ => some rd
  | .gfpow rd _ _ => some rd
  | .gfinv rd _ => some rd
  | .gfexp rd _ => some rd
  | .gflog rd _ => some rd
  | .vdot rd _ _ _ => some rd
  | .peval rd _ _ _ => some rd
  | .mget rd _ _ _ _ _ => some rd
  | .mrow rd _ _ _ _ => some rd
  | .required rd => some rd
  | .total rd => some rd
  | .encget rd _ _ => some rd
  | .vandget rd _ _ => some rd
  | .nop => none
  | .clrerr => none
  | .stb _ _ => none
  | .vaddmul _ _ _ _ => none
  | .pscale _ _ _ _ => none
  | .padd _ _ _ _ _ => none
  | .pdiv _ _ _ _ _ _ => none
  | .mset _ _ _ _ _ _ => none
  | .mswap _ _ _ _ _ => none
  | .mscale _ _ _ _ _ => none
  | .maddmul _ _ _ _ _ _ => none
  | .mstd _ _ _ _ => none
  | .minv _ _ _ _ _ _ => none
  | .mpar _ _ _ _ => none
  | .fecnew _ _ => none
  | .encdump _ => none
  | .vanddump _ => none
  | .encode _ _ _ => none
  | .encsingle _ _ _ _ => none
  | .rebuild _ _ _ _ => none
  | .synd _ _ _ => none
  | .bwb _ _ _ _ _ => none
  | .correct _ _ _ => none
  | .decode _ _ _ _ => none
  | .decnc _ _ _ _ _ => none

/-- The six commands that take a share list (45_encode_rebuild.md R143). -/
def usesShareList : Instr → Bool
  | .rebuild _ _ _ _ => true
  | .synd _ _ _ => true
  | .bwb _ _ _ _ _ => true
  | .correct _ _ _ => true
  | .decode _ _ _ _ => true
  | .decnc _ _ _ _ _ => true
  | _ => false

/-- The fourteen commands that use the codec slot (44_codec_construct.md R125). -/
def usesCodec : Instr → Bool
  | .required _ => true
  | .total _ => true
  | .encget _ _ _ => true
  | .vandget _ _ _ => true
  | .encdump _ => true
  | .vanddump _ => true
  | .encode _ _ _ => true
  | .encsingle _ _ _ _ => true
  | i => usesShareList i

/-- The two commands that eliminate in place in BUF (43_matrix.md R119, R120). -/
def eliminatesInBuf : Instr → Bool
  | .mstd _ _ _ _ => true
  | .minv _ _ _ _ _ _ => true
  | _ => false

/-! ### The kinds of the fields (30_encoding.md R65) -/

/-- The kind of a 4-bit field of a format R word (R61). -/
inductive Kind where
  /-- The number of a general register. -/
  | r
  /-- The number of a system register, 0 to 8. -/
  | s
  /-- A pivot policy, 0 or 1. -/
  | p
  /-- Unused, must be 0. -/
  | z
  /-- Any value: a field inside the immediate of a format I word (R62). -/
  | any
  deriving DecidableEq, Repr

/-- A value is legal for a kind (R61). -/
def Kind.legal : Kind → Nat → Bool
  | .r, _ => true
  | .s, v => v ≤ 8
  | .p, v => v ≤ 1
  | .z, v => v == 0
  | .any, _ => true

/-- A row of R65: the opcode and the kinds of f1 to f6. -/
def kindRow (op : Nat) (k1 k2 k3 k4 k5 k6 : Kind) : Nat × List Kind := (op, [k1, k2, k3, k4, k5, k6])

/-- R65, system, moves and single bytes. -/
def kindsSystem : List (Nat × List Kind) :=
  [kindRow 0x00 .z .z .z .z .z .z,
   kindRow 0x01 .r .z .any .any .any .any,
   kindRow 0x02 .r .z .any .any .any .any,
   kindRow 0x03 .r .r .z .z .z .z,
   kindRow 0x04 .r .s .z .z .z .z,
   kindRow 0x05 .z .z .z .z .z .z,
   kindRow 0x06 .r .r .z .z .z .z,
   kindRow 0x07 .r .r .z .z .z .z]

/-- R65, scalar field. -/
def kindsScalar : List (Nat × List Kind) :=
  [kindRow 0x10 .r .r .r .z .z .z,
   kindRow 0x11 .r .r .r .z .z .z,
   kindRow 0x12 .r .r .r .z .z .z,
   kindRow 0x13 .r .r .r .z .z .z,
   kindRow 0x14 .r .r .z .z .z .z,
   kindRow 0x15 .r .r .z .z .z .z,
   kindRow 0x16 .r .r .z .z .z .z]

/-- R65, vectors and polynomials. -/
def kindsVector : List (Nat × List Kind) :=
  [kindRow 0x20 .r .r .r .r .z .z,
   kindRow 0x21 .r .r .r .r .z .z,
   kindRow 0x22 .r .r .r .r .z .z,
   kindRow 0x23 .r .r .r .r .z .z,
   kindRow 0x24 .r .r .r .r .r .z,
   kindRow 0x25 .r .r .r .r .r .r]

/-- R65, matrices. -/
def kindsMatrix : List (Nat × List Kind) :=
  [kindRow 0x30 .r .r .r .r .r .r,
   kindRow 0x31 .r .r .r .r .r .r,
   kindRow 0x32 .r .r .r .r .r .z,
   kindRow 0x33 .r .r .r .r .r .z,
   kindRow 0x34 .r .r .r .r .r .z,
   kindRow 0x35 .r .r .r .r .r .r,
   kindRow 0x36 .r .r .r .z .z .p,
   kindRow 0x37 .r .r .r .r .r .p,
   kindRow 0x38 .r .r .r .r .z .z]

/-- R65, codec construction. -/
def kindsCodec : List (Nat × List Kind) :=
  [kindRow 0x40 .r .r .z .z .z .z,
   kindRow 0x41 .r .z .z .z .z .z,
   kindRow 0x42 .r .z .z .z .z .z,
   kindRow 0x43 .r .r .r .z .z .z,
   kindRow 0x44 .r .r .r .z .z .z,
   kindRow 0x45 .r .z .z .z .z .z,
   kindRow 0x46 .r .z .z .z .z .z]

/-- R65, encoding, rebuilding, Berlekamp-Welch. -/
def kindsShares : List (Nat × List Kind) :=
  [kindRow 0x50 .r .r .r .z .z .z,
   kindRow 0x51 .r .r .r .r .z .z,
   kindRow 0x52 .r .r .r .r .z .z,
   kindRow 0x60 .r .r .r .z .z .z,
   kindRow 0x61 .r .r .r .r .r .z,
   kindRow 0x62 .r .r .r .z .z .z,
   kindRow 0x63 .r .r .r .r .z .z,
   kindRow 0x64 .r .r .r .r .r .z]

/-- R65: the opcodes with the kinds of their fields f1 to f6. -/
def kindTable : List (Nat × List Kind) :=
  kindsSystem ++ kindsScalar ++ kindsVector ++ kindsMatrix ++ kindsCodec ++ kindsShares

/-- The six 4-bit fields of a word, f1 first (R61). -/
def fieldsOf (w : Word) : List Nat := [20, 16, 12, 8, 4, 0].map fun lo => w.toNat / 2 ^ lo % 16

/-- The word of `i` is the format R word with opcode `op` and fields `fs` (R61), and decodes to `i`. -/
def HasWord (i : Instr) (op : Nat) (fs : List Nibble) : Prop :=
  (encode i).toNat / 2 ^ 24 = op ∧ fieldsOf (encode i) = fs.map (·.val) ∧ decode (encode i) = .ok i

/-- The word of `i` is the format I word with opcode `op`, destination `rd` and immediate `imm` (R62), and decodes to
`i`. -/
def HasImmWord (i : Instr) (op : Nat) (rd : Nibble) (imm : BitVec 16) : Prop :=
  (encode i).toNat = op * 2 ^ 24 + rd.val * 2 ^ 20 + imm.toNat ∧ decode (encode i) = .ok i

/-- A word is legal (R64, R66): its opcode is in the table and every field is legal for its kind. -/
def WordLegal (w : Word) : Prop :=
  ∃ row ∈ kindTable, row.1 = w.toNat / 2 ^ 24 ∧ ∀ kv ∈ row.2.zip (fieldsOf w), kv.1.legal kv.2 = true

/-! ### The mathematics of the results -/

/-- `xtime` applied `i` times. -/
def xtimes : Nat → Byte → Byte
  | 0, a => a
  | i + 1, a => xtime (xtimes i a)

/-- The product of two elements as polynomials modulo POLY, by shift and add over the bits of `b` (10_state.md R11). -/
def polyProduct (a b : Byte) : Byte :=
  (List.range 8).foldl (fun acc i => if b.getLsbD i then acc ^^^ xtimes i a else acc) 0

/-- `a` multiplied into 1, `e` times (41_scalar_field.md R93, "repeated table-multiplication"). -/
def repeatedProduct (a : Byte) : Nat → Byte
  | 0 => 1
  | e + 1 => gfMul (repeatedProduct a e) a

/-- The sum `(+)` of `g 0 .. g (n-1)` (00_scope.md R7). -/
def sumTo (n : Nat) (g : Nat → Byte) : Byte := (List.range n).foldl (fun acc i => acc ^^^ g i) 0

/-- The coefficient of `x^d` in a polynomial, most significant coefficient first (20_memory.md R54); 0 above its
length. -/
def coeff (p : List Byte) (d : Nat) : Byte := if d < p.length then p.getD (p.length - 1 - d) 0 else 0

/-- The coefficient of `x^d` in the product of two polynomials (42_vector_poly.md R105 (h)). -/
def productCoeff (p q : List Byte) (d : Nat) : Byte := sumTo (d + 1) fun i => gfMul (coeff p i) (coeff q (d - i))

/-- Element `[i][j]` of the product of two matrices whose common dimension is `n`. -/
def matProduct (n : Nat) (A B : Rows) (i j : Nat) : Byte := sumTo n fun t => gfMul (elemAt A i t) (elemAt B t j)

/-- A matrix of `r` rows and `c` columns (20_memory.md R55). -/
def IsMatrix (r c : Nat) (m : Rows) : Prop := m.length = r ∧ ∀ row ∈ m, row.length = c

/-- Byte `p` of fragment `i` of the data `D` in blocks of `bs` bytes (45_encode_rebuild.md R141). -/
def fragmentByte (c : Codec) (bs : Nat) (D : List Byte) (i p : Nat) : Byte :=
  if i < c.k then D.getD (i * bs + p) 0 else sumTo c.k fun j => gfMul (elemAt c.enc i j) (D.getD (j * bs + p) 0)

/-! ### Share lists -/

/-- An entry that 8 bytes can hold (20_memory.md R56). -/
abbrev Share.Fits (e : Share) : Prop := e.num < 65536 ∧ e.reserved.length = 2 ∧ e.addr < 4294967296

/-- The bytes of a share list (R56). -/
def listBytes (es : List Share) : List Byte := (es.map Share.toBytes).flatten

/-- The share list at `sl` with `cnt` entries passes steps F1, F2 and F4 to F6 of R143 for codec `c`: `es` is what BUF
holds, `sorted` the same entries in strictly ascending order of number, the list and the outputs inside BUF. -/
structure GoodList (s : State) (c : Codec) (sl cnt : Nat) (es sorted : List Share) (outs : List Region) : Prop where
  codec : s.codec = some c
  enough : c.k ≤ cnt
  count : es.length = cnt
  fits : ∀ e ∈ es, e.Fits
  held : Holds s sl (listBytes es)
  inside : Inside s sl (8 * cnt)
  outsInside : ∀ r ∈ outs, Inside s r.start r.len
  sameEntries : sorted.Perm es
  ascending : sorted.Pairwise fun a b => a.num < b.num

/-- Every entry of the sorted list has a number below N (R143, F8). -/
abbrev GoodNumbers (c : Codec) (sorted : List Share) : Prop := ∀ e ∈ sorted, e.num < c.n

/-- `i` is a share-list command that passes step F3 in `s`: its list at `sl` with `cnt` entries, and its output regions
for codec `c` (R143, R146, R151, R156 to R160). -/
def IsListCommand (i : Instr) (s : State) (c : Codec) (sl cnt : Nat) (outs : List Region) : Prop :=
  ∃ ro re rl rn rb rp, sl = s.num rl ∧ cnt = s.num rn ∧
    (i = .rebuild ro rl rn rb ∧ outs = [⟨s.num ro, c.k * s.num rb⟩] ∨
      i = .synd ro rl rn ∧ outs = [⟨s.num ro, (s.num rn - c.k) * s.num rn⟩] ∨
      i = .bwb ro rl rn rb rp ∧ outs = [⟨s.num ro, c.n⟩] ∧ s.num rp < s.num rb ∨
      i = .correct rl rn rb ∧ outs = [] ∨
      i = .decode ro rl rn rb ∧ outs = [⟨s.num ro, c.k * s.num rb⟩] ∨
      i = .decnc ro re rl rn rb ∧ outs = [⟨s.num ro, c.k * s.num rb⟩, ⟨s.num re, 8 * c.k⟩])

/-- The data regions of the entries for share-list command `i`; SYND reads no data (R143, F9). -/
def dataOf (i : Instr) (s : State) (sorted : List Share) : List Region :=
  match i with
  | .rebuild _ _ _ rb => sorted.map fun e => ⟨e.addr, s.num rb⟩
  | .bwb _ _ _ rb _ => sorted.map fun e => ⟨e.addr, s.num rb⟩
  | .correct _ _ rb => sorted.map fun e => ⟨e.addr, s.num rb⟩
  | .decode _ _ _ rb => sorted.map fun e => ⟨e.addr, s.num rb⟩
  | .decnc _ _ _ _ rb => sorted.map fun e => ⟨e.addr, s.num rb⟩
  | _ => []

/-- The fragments of a sorted list, with their data of `bs` bytes each: written, inside BUF, and disjoint from each
other, from the outputs and from the list (R143, F9, F10 and note (g)). -/
structure GoodData (s : State) (sl cnt bs : Nat) (sorted : List Share) (outs : List Region) (S : List Fragment) :
    Prop where
  shares : S.map (fun f => (f.num, f.addr)) = sorted.map fun e => (e.num, e.addr)
  length : ∀ f ∈ S, f.data.length = bs
  held : ∀ f ∈ S, Holds s f.addr f.data
  inside : ∀ f ∈ S, Inside s f.addr bs
  apart : (S.map (fun f => Region.mk f.addr bs) ++ outs ++ [Region.mk sl (8 * cnt)]).Pairwise fun a b =>
    Apart a.start a.len b.start b.len

/-- The contents of BUF after the sorted list is written back where the list lies (R143, F7). -/
def sortedList (s : State) (sl : Nat) (sorted : List Share) : Nat → Option Byte := stored s sl (listBytes sorted)

/-- The contents of BUF after the data of the fragments is stored where it lies, into contents `w`. -/
def dataStored (w : Nat → Option Byte) : List Fragment → Nat → Option Byte
  | [] => w
  | f :: fs => dataStored (storedInto w f.addr f.data) fs

/-- The fragments are those of the data `D` in blocks of `bs` bytes, uncorrupted. -/
def AreEncodedFrom (c : Codec) (bs : Nat) (D : List Byte) (S : List Fragment) : Prop :=
  ∀ f ∈ S, f.data = (List.range bs).map (fragmentByte c bs D f.num)

/-- How many of the fragments have a wrong byte at position `p`, against those of the data `D` (R161). -/
def wrongAt (c : Codec) (bs : Nat) (D : List Byte) (S : List Fragment) (p : Nat) : Nat :=
  (S.filter fun f => f.data.getD p 0 != fragmentByte c bs D f.num p).length

/-- Enough fragments of codec `c`, in strictly ascending order of number, all numbers below N (R143). -/
structure SortedFragments (c : Codec) (S : List Fragment) : Prop where
  enough : c.k ≤ S.length
  ascending : S.Pairwise fun a b => a.num < b.num
  numbers : ∀ f ∈ S, f.num < c.n

end Sys2Proof.Machine
end

