-- ==== Sys2Proof/Certificates/Slice0/Obligations.lean ====
section
/-! DEFINITION. The statements for the provers, each after the rule of spec/ it formalises. A statement that rests on a
choice of the model names the log entry. -/

open Sys2Proof Sys2Proof.Machine

/-! ### Encoding -/

/-- Every well-formed command, with every value of every operand, decodes from its own word (R61 to R65). -/
def Obligations.DecodeInvertsEncode : Prop := ∀ i : Instr, i.wellFormed = true → decode (encode i) = .ok i

/-- A word that decodes is the word of a well-formed command: no bit of it is dropped (R64, R67). -/
def Obligations.EncodeInvertsDecode : Prop := ∀ w i, decode w = .ok i → i.wellFormed = true ∧ encode i = w

/-- R66: the legal words are those of the table R65, and an illegal word given to the engine raises IllegalCommand and
changes no register, no BUF byte and no part of the codec slot. -/
def Obligations.IllegalWordsRaiseIllegalCommand : Prop :=
  (∀ w, (∃ i, decode w = .ok i) ↔ WordLegal w) ∧
  ∀ s w rest, s.inbox = .command w :: rest → ¬ WordLegal w →
    ∃ t, step s = .next t ∧ Raised { s with inbox := rest } t w .illegalCommand ∧ t.mem = s.mem

/-- Words written out in the spec's examples decode to the commands they stand for, in every family. -/
def Obligations.SampleWordsDecode : Prop :=
  decode 0x00000000 = .ok .nop ∧ decode 0x0150BEEF = .ok (.li 5 0xBEEF) ∧ decode 0x04A00000 = .ok (.mfs 10 0) ∧
  decode 0x11312000 = .ok (.gfmul 3 1 2) ∧ decode 0x25123456 = .ok (.pdiv 1 2 3 4 5 6) ∧
  decode 0x36123001 = .ok (.mstd 1 2 3 1) ∧ decode 0x37122420 = .ok (.minv 1 2 2 4 2 0) ∧
  decode 0x40120000 = .ok (.fecnew 1 2) ∧ decode 0x52967800 = .ok (.rebuild 9 6 7 8) ∧
  decode 0x619678A0 = .ok (.bwb 9 6 7 8 10) ∧ decode 0x649A6780 = .ok (.decnc 9 10 6 7 8)

/-- An entry of a share list lies in BUF as R56 lays it out, and is read back as it was. -/
def Obligations.ShareEntryLayout : Prop :=
  ∀ e : Share, e.Fits → Share.ofBytes e.toBytes = e ∧
    e.toBytes = [BitVec.ofNat 8 (e.num % 256), BitVec.ofNat 8 (e.num / 256)] ++ e.reserved ++
      [BitVec.ofNat 8 (e.addr % 256), BitVec.ofNat 8 (e.addr / 256 % 256), BitVec.ofNat 8 (e.addr / 65536 % 256),
       BitVec.ofNat 8 (e.addr / 16777216)]

/-! ### The step and the host interface -/

/-- A command word at the head of what the host does next is decoded and run: the step is `exec` of the decoded command
on the state without that action (R60; the list of host actions is the model's, log 5). -/
def Obligations.StepRunsTheDecodedCommand : Prop :=
  ∀ s w rest i, s.inbox = .command w :: rest → decode w = .ok i → step s = exec i { s with inbox := rest }

/-- The host writes and reads single bytes of BUF between commands, and an idle engine keeps all state (R40, R45, R185).
An address of MEMSIZE or above does not exist (the fault is the model's, log 9); reading a byte never written is
refused (93 U1, log 2). -/
def Obligations.HostReachesBufBetweenCommands : Prop :=
  (∀ s, s.inbox = [] → step s = .next s) ∧
  (∀ s rest a b, s.inbox = .write a b :: rest →
    (s.memSize ≤ a → step s = .fault .hostOutsideBuf) ∧
    (a < s.memSize → ∃ m, step s = .next { s with inbox := rest, mem := m } ∧
      ∀ x, m.read x = if x = a then some b else s.mem.read x)) ∧
  (∀ s rest a, s.inbox = .read a :: rest →
    (s.memSize ≤ a → step s = .fault .hostOutsideBuf) ∧
    (a < s.memSize → s.mem.read a = none → step s = .refused .unwrittenByte) ∧
    (∀ b, a < s.memSize → s.mem.read a = some b → step s = .next { s with inbox := rest, hostData := some b }))

/-- R25: the state after reset, for an engine of any MEMSIZE: registers, codec slot, latch, counters and lengths are 0,
STATUS and CFG read 0, MEMSZ reads MEMSIZE, no response is pending, no byte of BUF has a value (log 2). `State.reset` is
the one of MEMSIZE 4096 (the model's number, log 1). The reset event gives this state whatever the state was (R190,
R191), and the engine goes on with what the host does next (log 8). -/
def Obligations.ResetStateValues : Prop :=
  (∀ m q, let t := State.resetWith m q
    (∀ r, t.reg r = 0) ∧ t.valid = false ∧ t.k = 0 ∧ t.n = 0 ∧ t.status = 0 ∧ t.cfg = 0 ∧ t.err = 0 ∧ t.ecmd = 0 ∧
      t.eseq = 0 ∧ t.cseq = 0 ∧ t.len0 = 0 ∧ t.len1 = 0 ∧ t.memsz = m ∧ t.response = none ∧ ∀ a, t.mem.read a = none) ∧
  State.reset = State.resetWith 4096 [] ∧
  ∀ s rest, s.inbox = .reset :: rest → step s = .next (State.resetWith s.memsz rest)

/-! ### Rules over all commands -/

/-- R172: a command that ends has either succeeded, and then it has left the error latch alone (except CLRERR), or failed
with one error, and then it has recorded it with its word and number and has changed no register, no part of the codec
slot and no length. R174: a failing command leaves BUF exactly as it was, except MSTD and MINV when they fail with
MatrixInversionFailed, and the share-list commands when they fail with an error that step F8 or a later one can raise
(`ShareListChecks` separates the two places a BusError can come from). -/
def Obligations.FailureOnlyLatchesTheError : Prop :=
  ∀ i s t, exec i s = .next t →
    (EndsOk s t ∧ (i ≠ .clrerr → LatchKept s t)) ∨
    (∃ e, Raised s t (encode i) e ∧
      (eliminatesInBuf i = false → usesShareList i = false → t.mem = s.mem) ∧
      (eliminatesInBuf i = true → e ≠ .matrixInversionFailed → t.mem = s.mem) ∧
      (usesShareList i = true → e ∈ [ErrorCode.noCodec, .insufficientShares, .operandRange] → t.mem = s.mem))

/-- R170, R171, R177: no command faults the engine, one that ends answers OK or a code of the table, and the model
refuses only the three cases the spec leaves unspecified. -/
def Obligations.EveryCommandEndsWithACode : Prop :=
  ∀ i s, (∀ f, exec i s ≠ .fault f) ∧
    (∀ t, exec i s = .next t → ∃ b, t.response = some b ∧ (b = 0x00 ∨ b ∈ errorCodes)) ∧
    (∀ r, exec i s = .refused r → r ∈ [Refusal.unwrittenByte, .overlappingRegions, .duplicateNumbers])

/-- R21: every command the engine ends, with success or with an error, an illegal word too, advances CSEQ by one modulo
2^32; MFS of CSEQ reads the number of the MFS itself. -/
def Obligations.CseqCountsEveryCommand : Prop :=
  (∀ w s t, accept w s = .next t → t.cseq = s.cseq + 1) ∧
  (∀ rd s, ∃ t, exec (.mfs rd 4) s = .next t ∧ t.reg rd = s.cseq ∧ t.cseq = s.cseq + 1) ∧
  ∀ m q, (State.resetWith m q).cseq = 0

/-- R19: the codec slot is written by FECNEW alone, and only when FECNEW succeeds; a successful FECNEW replaces the whole
slot. -/
def Obligations.OnlyFecnewWritesTheCodecSlot : Prop :=
  ∀ i s t, exec i s = .next t →
    (t.codec ≠ s.codec → ∃ rk rn, i = .fecnew rk rn ∧ t.response = some 0x00) ∧
    ∀ rk rn, i = .fecnew rk rn → t.response = some 0x00 →
      ∃ c, t.codec = some c ∧ c.k = s.num rk ∧ c.n = s.num rn ∧ c.Legal

/-- A command writes no general register but its destination, and only PDIV, when it succeeds, writes LEN0 and LEN1; no
command changes MEMSZ or the host's side of the ports (R17, R22, R23, R98). -/
def Obligations.CommandsWriteOnlyTheirDestination : Prop :=
  ∀ i s t, exec i s = .next t →
    (∀ r, destOf i ≠ some r → t.reg r = s.reg r) ∧
    ((t.len0 ≠ s.len0 ∨ t.len1 ≠ s.len1) → t.response = some 0x00 ∧ ∃ a b c d e f, i = .pdiv a b c d e f) ∧
    PortsKept s t

/-- R125: each of the fourteen commands that use the codec slot raises NoCodec when VALID = 0, before any other
check. -/
def Obligations.CodecCommandsNeedACodec : Prop :=
  ∀ i s, usesCodec i = true → s.codec = none → FailsClean i s .noCodec

/-- The examples of R173, and no more of that rule: ENCSINGLE with a bad index reports InvalidShareId whatever its length
is, MGET with an index out of range reports OperandRange wherever the matrix lies, a share list that is too short reports
InsufficientShares wherever it lies and whatever the byte position of BWB is. The last clause is step F3 of R143: a BWB
with enough shares and a byte position outside the block reports OperandRange. -/
def Obligations.CheckPriorityExamples : Prop :=
  (∀ ro ri rl rx s c, s.codec = some c → c.n ≤ s.num rx → FailsClean (.encsingle ro ri rl rx) s .invalidShareId) ∧
  (∀ rd rm rr rc ri rj s, (s.num rr ≤ s.num ri ∨ s.num rc ≤ s.num rj) →
    FailsClean (.mget rd rm rr rc ri rj) s .operandRange) ∧
  (∀ i s c cnt, s.codec = some c → s.num cnt < c.k →
    ((∃ ro rl rb, i = .rebuild ro rl cnt rb) ∨ (∃ ro rl, i = .synd ro rl cnt) ∨ (∃ ro rl rb rp, i = .bwb ro rl cnt rb rp) ∨
      (∃ rl rb, i = .correct rl cnt rb) ∨ (∃ ro rl rb, i = .decode ro rl cnt rb) ∨
      (∃ ro re rl rb, i = .decnc ro re rl cnt rb)) →
    FailsClean i s .insufficientShares) ∧
  (∀ ro rl cnt rb rp s c, s.codec = some c → c.k ≤ s.num cnt → s.num rb ≤ s.num rp →
    FailsClean (.bwb ro rl cnt rb rp) s .operandRange)

/-- Where the outcome of a command is unspecified the model refuses: its written regions meet a region that it names
(R46, R143 F10, 93 U2, log 3), or, that being in order, a byte it reads has not been written since reset (R45, 93 U1,
log 2). -/
def Obligations.UnspecifiedCasesAreRefused : Prop :=
  ∀ s : State,
    (∀ rd ra rb rl, Inside s (s.num ra) (s.num rl) → Inside s (s.num rb) (s.num rl) →
      Unwritten s (s.num ra) (s.num rl) ∨ Unwritten s (s.num rb) (s.num rl) →
      exec (.vdot rd ra rb rl) s = .refused .unwrittenByte) ∧
    (∀ rd rs rl rf, Inside s (s.num rd) (s.num rl) → Inside s (s.num rs) (s.num rl) →
      (¬ Apart (s.num rd) (s.num rl) (s.num rs) (s.num rl) →
        exec (.vaddmul rd rs rl rf) s = .refused .overlappingRegions ∧
        exec (.pscale rd rs rl rf) s = .refused .overlappingRegions) ∧
      (Apart (s.num rd) (s.num rl) (s.num rs) (s.num rl) →
        (Unwritten s (s.num rs) (s.num rl) → exec (.pscale rd rs rl rf) s = .refused .unwrittenByte) ∧
        (Unwritten s (s.num rd) (s.num rl) ∨ Unwritten s (s.num rs) (s.num rl) →
          exec (.vaddmul rd rs rl rf) s = .refused .unwrittenByte))) ∧
    (∀ rd rp rl rx, Inside s (s.num rp) (s.num rl) → Unwritten s (s.num rp) (s.num rl) →
      exec (.peval rd rp rl rx) s = .refused .unwrittenByte) ∧
    (∀ rd ra rla rb rlb, Inside s (s.num rd) (max (s.num rla) (s.num rlb)) → Inside s (s.num ra) (s.num rla) →
      Inside s (s.num rb) (s.num rlb) →
      let apart := Apart (s.num rd) (max (s.num rla) (s.num rlb)) (s.num ra) (s.num rla) ∧
        Apart (s.num rd) (max (s.num rla) (s.num rlb)) (s.num rb) (s.num rlb)
      (¬ apart → exec (.padd rd ra rla rb rlb) s = .refused .overlappingRegions) ∧
      (apart → Unwritten s (s.num ra) (s.num rla) ∨ Unwritten s (s.num rb) (s.num rlb) →
        exec (.padd rd ra rla rb rlb) s = .refused .unwrittenByte)) ∧
    (∀ rq rr ra rla rb rlb, Inside s (s.num ra) (s.num rla) → Inside s (s.num rb) (s.num rlb) →
      (Unwritten s (s.num ra) (s.num rla) ∨ Unwritten s (s.num rb) (s.num rlb) →
        exec (.pdiv rq rr ra rla rb rlb) s = .refused .unwrittenByte) ∧
      (∀ A B q r, A.length = s.num rla → B.length = s.num rlb → Holds s (s.num ra) A → Holds s (s.num rb) B →
        polydiv A B = .ok (q, r) → Inside s (s.num rq) q.length → Inside s (s.num rr) r.length →
        ¬ (Apart (s.num rq) q.length (s.num rr) r.length ∧ Apart (s.num rq) q.length (s.num ra) (s.num rla) ∧
          Apart (s.num rq) q.length (s.num rb) (s.num rlb) ∧ Apart (s.num rr) r.length (s.num ra) (s.num rla) ∧
          Apart (s.num rr) r.length (s.num rb) (s.num rlb)) →
        exec (.pdiv rq rr ra rla rb rlb) s = .refused .overlappingRegions)) ∧
    (∀ rd rm rr rc ri rj, s.num ri < s.num rr → s.num rj < s.num rc → Inside s (s.num rm) (s.num rr * s.num rc) →
      s.mem.read (s.num rm + s.num ri * s.num rc + s.num rj) = none →
      exec (.mget rd rm rr rc ri rj) s = .refused .unwrittenByte) ∧
    (∀ rm rr rc ri rj rf, s.num ri < s.num rr → Inside s (s.num rm) (s.num rr * s.num rc) →
      let row := fun r : Reg => Unwritten s (s.num rm + s.num r * s.num rc) (s.num rc)
      (row ri → exec (.mscale rm rr rc ri rf) s = .refused .unwrittenByte) ∧
      (s.num rj < s.num rr → row ri ∨ row rj → exec (.mswap rm rr rc ri rj) s = .refused .unwrittenByte ∧
        exec (.maddmul rm rr rc ri rj rf) s = .refused .unwrittenByte)) ∧
    (∀ rm rr rc (pol : Nibble), pol.val ≤ 1 → s.num rr ≤ s.num rc → Inside s (s.num rm) (s.num rr * s.num rc) →
      Unwritten s (s.num rm) (s.num rr * s.num rc) → exec (.mstd rm rr rc pol) s = .refused .unwrittenByte) ∧
    (∀ rm rr rc ra rca (pol : Nibble), pol.val ≤ 1 → s.num rr ≤ s.num rc → Inside s (s.num rm) (s.num rr * s.num rc) →
      Inside s (s.num ra) (s.num rr * s.num rca) →
      let apart := Apart (s.num rm) (s.num rr * s.num rc) (s.num ra) (s.num rr * s.num rca)
      (¬ apart → exec (.minv rm rr rc ra rca pol) s = .refused .overlappingRegions) ∧
      (apart → Unwritten s (s.num rm) (s.num rr * s.num rc) ∨ Unwritten s (s.num ra) (s.num rr * s.num rca) →
        exec (.minv rm rr rc ra rca pol) s = .refused .unwrittenByte)) ∧
    (∀ rd rm rr rc, s.num rr ≤ s.num rc → Inside s (s.num rm) (s.num rr * s.num rc) →
      Inside s (s.num rd) ((s.num rc - s.num rr) * s.num rc) →
      let apart := Apart (s.num rd) ((s.num rc - s.num rr) * s.num rc) (s.num rm) (s.num rr * s.num rc)
      (¬ apart → exec (.mpar rd rm rr rc) s = .refused .overlappingRegions) ∧
      (apart → (∃ j, j < s.num rr ∧ Unwritten s (s.num rm + j * s.num rc + s.num rr) (s.num rc - s.num rr)) →
        exec (.mpar rd rm rr rc) s = .refused .unwrittenByte)) ∧
    (∀ rout rin rlen rx c, s.codec = some c → s.num rlen % c.k = 0 → Inside s (s.num rin) (s.num rlen) →
      (Inside s (s.num rout) (c.n * (s.num rlen / c.k)) →
        let apart := Apart (s.num rout) (c.n * (s.num rlen / c.k)) (s.num rin) (s.num rlen)
        (¬ apart → exec (.encode rout rin rlen) s = .refused .overlappingRegions) ∧
        (apart → Unwritten s (s.num rin) (s.num rlen) → exec (.encode rout rin rlen) s = .refused .unwrittenByte)) ∧
      (s.num rx < c.n → Inside s (s.num rout) (s.num rlen / c.k) →
        let apart := Apart (s.num rout) (s.num rlen / c.k) (s.num rin) (s.num rlen)
        (¬ apart → exec (.encsingle rout rin rlen rx) s = .refused .overlappingRegions) ∧
        (apart → Unwritten s (s.num rin) (s.num rlen) →
          exec (.encsingle rout rin rlen rx) s = .refused .unwrittenByte))) ∧
    (∀ i c sl cnt outs, IsListCommand i s c sl cnt outs →
      (s.codec = some c → c.k ≤ cnt → Inside s sl (8 * cnt) → (∀ r ∈ outs, Inside s r.start r.len) →
        Unwritten s sl (8 * cnt) → exec i s = .refused .unwrittenByte) ∧
      (∀ es sorted, GoodList s c sl cnt es sorted outs → GoodNumbers c sorted →
        (∀ r ∈ dataOf i s sorted, Inside s r.start r.len) →
        let apart := (dataOf i s sorted ++ outs ++ [Region.mk sl (8 * cnt)]).Pairwise fun a b =>
          Apart a.start a.len b.start b.len
        (¬ apart → exec i s = .refused .overlappingRegions) ∧
        (apart → (∃ r ∈ dataOf i s sorted, Unwritten s r.start r.len) → exec i s = .refused .unwrittenByte)))

/-- From every good state, whatever the host does next, a step that answers a next state gives a good state: BUF stays in
canonical form and inside its MEMSIZE bytes, the codec slot holds the matrices of its K and N, the latch and the response
hold codes of R171 (R18, R22, R23, R43, R47). -/
def Obligations.StepKeepsTheInvariant : Prop := ∀ s t, s.Inv → step s = .next t → t.Inv

/-- The reset state is good. -/
def Obligations.ResetMeetsTheInvariant : Prop := State.reset.Inv

/-! ### System, moves, single bytes -/

/-- R80 and R84: NOP does nothing; CLRERR clears the error latch and nothing else. -/
def Obligations.NopAndClrerr : Prop :=
  HasWord .nop 0x00 [0, 0, 0, 0, 0, 0] ∧ HasWord .clrerr 0x05 [0, 0, 0, 0, 0, 0] ∧
  ∀ s, exec .nop s = .next { s with cseq := s.cseq + 1, response := some 0x00 } ∧
    exec .clrerr s =
      .next { s with errs := false, err := 0, ecmd := 0, eseq := 0, cseq := s.cseq + 1, response := some 0x00 }

/-- R81, R82, R85: LI zero-extends its immediate, LIH puts it above the low half of the destination, MOV copies 32
bits. -/
def Obligations.ConstantsAndMoves : Prop :=
  ∀ rd ra imm s,
    (HasImmWord (.li rd imm) 0x01 rd imm ∧
      ∃ t, exec (.li rd imm) s = .next t ∧ RegDone s t rd (BitVec.ofNat 32 imm.toNat)) ∧
    (HasImmWord (.lih rd imm) 0x02 rd imm ∧
      ∃ t, exec (.lih rd imm) s = .next t ∧
        RegDone s t rd (BitVec.ofNat 32 (imm.toNat * 65536 + (s.reg rd).toNat % 65536))) ∧
    (HasWord (.mov rd ra) 0x03 [rd, ra, 0, 0, 0, 0] ∧
      ∃ t, exec (.mov rd ra) s = .next t ∧ RegDone s t rd (s.reg ra))

/-- R83: MFS reads the system register with its number, as R22 lays them out, without side effect. -/
def Obligations.MfsReadsSystemRegisters : Prop :=
  ∀ rd (sreg : Nibble) s, (h : sreg.val < 9) →
    HasWord (.mfs rd sreg) 0x04 [rd, sreg, 0, 0, 0, 0] ∧
    ∃ t, exec (.mfs rd sreg) s = .next t ∧ RegDone s t rd
      ([BitVec.ofNat 32 ((if s.codec = none then 0 else 1) + 2 * (if s.errs = true then 1 else 0)),
        s.err.setWidth 32, s.ecmd, s.eseq, s.cseq,
        BitVec.ofNat 32 (match s.codec with
          | some c => c.k + 65536 * c.n
          | none => 0),
        s.len0, s.len1, s.memsz][sreg.val]'h)

/-- R86, R87: LDB loads one byte of BUF zero-extended, STB stores the low byte of a register; an address of MEMSIZE or
above raises BusError. A byte never written is refused (93 U1, log 2). -/
def Obligations.SingleByteLoadAndStore : Prop :=
  ∀ rd ra rb s,
    (HasWord (.ldb rd ra) 0x06 [rd, ra, 0, 0, 0, 0] ∧
      (s.memSize ≤ s.num ra → FailsClean (.ldb rd ra) s .busError) ∧
      (s.num ra < s.memSize → s.mem.read (s.num ra) = none → exec (.ldb rd ra) s = .refused .unwrittenByte) ∧
      ∀ b, s.num ra < s.memSize → s.mem.read (s.num ra) = some b →
        ∃ t, exec (.ldb rd ra) s = .next t ∧ RegDone s t rd (b.setWidth 32)) ∧
    (HasWord (.stb ra rb) 0x07 [ra, rb, 0, 0, 0, 0] ∧
      (s.memSize ≤ s.num ra → FailsClean (.stb ra rb) s .busError) ∧
      (s.num ra < s.memSize → ∃ t, exec (.stb ra rb) s = .next t ∧
        MemDone s t fun x => if x = s.num ra then some ((s.reg rb).setWidth 8) else s.mem.read x))

/-! ### Scalar field -/

/-- R90: GFADD is the exclusive or of the low bytes. -/
def Obligations.GfaddIsXor : Prop :=
  ∀ rd ra rb s, HasWord (.gfadd rd ra rb) 0x10 [rd, ra, rb, 0, 0, 0] ∧
    ∃ t, exec (.gfadd rd ra rb) s = .next t ∧
      RegDone s t rd (((s.reg ra).setWidth 8 ^^^ (s.reg rb).setWidth 8 : Byte).setWidth 32)

/-- R11, R91: what GFMUL computes by tables is the product of the low bytes as polynomials modulo 0x11D. -/
def Obligations.GfmulIsPolynomialProduct : Prop :=
  ∀ rd ra rb s, HasWord (.gfmul rd ra rb) 0x11 [rd, ra, rb, 0, 0, 0] ∧
    ∃ t, exec (.gfmul rd ra rb) s = .next t ∧
      RegDone s t rd ((polyProduct ((s.reg ra).setWidth 8) ((s.reg rb).setWidth 8)).setWidth 32)

/-- R92: GFDIV raises DivideByZero for a zero divisor whatever the dividend is; else it delivers the quotient, which
times the divisor is the dividend. -/
def Obligations.GfdivUndoesMultiplication : Prop :=
  ∀ rd ra rb s, HasWord (.gfdiv rd ra rb) 0x12 [rd, ra, rb, 0, 0, 0] ∧
    ((s.reg rb).setWidth 8 = (0 : Byte) → FailsClean (.gfdiv rd ra rb) s .divideByZero) ∧
    ((s.reg rb).setWidth 8 ≠ (0 : Byte) → ∃ t, ∃ q : Byte, exec (.gfdiv rd ra rb) s = .next t ∧
      RegDone s t rd (q.setWidth 32) ∧ gfMul q ((s.reg rb).setWidth 8) = (s.reg ra).setWidth 8 ∧
      ((s.reg ra).setWidth 8 = (0 : Byte) → q = 0))

/-- R93: GFPOW is repeated multiplication, the whole register being the exponent; `0^0 = 1`. -/
def Obligations.GfpowRepeatsMultiplication : Prop :=
  ∀ rd ra re s, HasWord (.gfpow rd ra re) 0x13 [rd, ra, re, 0, 0, 0] ∧
    ∃ t, exec (.gfpow rd ra re) s = .next t ∧
      RegDone s t rd ((repeatedProduct ((s.reg ra).setWidth 8) (s.reg re).toNat).setWidth 32)

/-- R94: GFINV delivers the inverse of a nonzero element and raises InvertZero for 0. -/
def Obligations.GfinvGivesTheInverse : Prop :=
  ∀ rd ra s, HasWord (.gfinv rd ra) 0x14 [rd, ra, 0, 0, 0, 0] ∧
    ((s.reg ra).setWidth 8 = (0 : Byte) → FailsClean (.gfinv rd ra) s .invertZero) ∧
    ((s.reg ra).setWidth 8 ≠ (0 : Byte) → ∃ t, ∃ v : Byte, exec (.gfinv rd ra) s = .next t ∧
      RegDone s t rd (v.setWidth 32) ∧ gfMul ((s.reg ra).setWidth 8) v = 1)

/-- R95, R96: GFEXP reads the powers of 2 for the indices 0 to 509 and raises OperandRange above; GFLOG reads the
exponent, 0 to 254, of a nonzero element, and 255 for 0. -/
def Obligations.GfexpAndGflogReadTheTables : Prop :=
  ∀ rd ra s,
    (HasWord (.gfexp rd ra) 0x15 [rd, ra, 0, 0, 0, 0] ∧
      (509 < s.num ra → FailsClean (.gfexp rd ra) s .operandRange) ∧
      (s.num ra ≤ 509 → ∃ t, exec (.gfexp rd ra) s = .next t ∧ RegDone s t rd ((xtimes (s.num ra) 1).setWidth 32))) ∧
    (HasWord (.gflog rd ra) 0x16 [rd, ra, 0, 0, 0, 0] ∧
      ∃ t v, exec (.gflog rd ra) s = .next t ∧ RegDone s t rd (BitVec.ofNat 32 v) ∧
        ((s.reg ra).setWidth 8 = (0 : Byte) → v = 255) ∧
        ((s.reg ra).setWidth 8 ≠ (0 : Byte) → v ≤ 254 ∧ xtimes v 1 = (s.reg ra).setWidth 8))

/-- R97: the bytes under XOR and the table product form a field in which 2 generates the multiplicative group. -/
def Obligations.FieldLawsHold : Prop :=
  (∀ a b, gfMul a b = gfMul b a) ∧ (∀ a b c, gfMul (gfMul a b) c = gfMul a (gfMul b c)) ∧
  (∀ a b c, gfMul a (b ^^^ c) = gfMul a b ^^^ gfMul a c) ∧ (∀ a, gfMul 1 a = a) ∧
  (∀ a, a ≠ 0 → gfMul a (gfInv a) = 1) ∧ (∀ a, a ≠ 0 → ∃ i, i ≤ 254 ∧ a = xtimes i 1) ∧
  (∀ i j, i < j → j ≤ 254 → xtimes i 1 ≠ xtimes j 1)

/-! ### Vectors and polynomials -/

/-- R100: VDOT delivers the sum of the products of corresponding elements; a vector outside BUF raises BusError. -/
def Obligations.VdotSumsProducts : Prop :=
  ∀ rd ra rb rl s, HasWord (.vdot rd ra rb rl) 0x20 [rd, ra, rb, rl, 0, 0] ∧
    (¬ (Inside s (s.num ra) (s.num rl) ∧ Inside s (s.num rb) (s.num rl)) → FailsClean (.vdot rd ra rb rl) s .busError) ∧
    ∀ u v, u.length = s.num rl → v.length = s.num rl → Inside s (s.num ra) (s.num rl) →
      Inside s (s.num rb) (s.num rl) → Holds s (s.num ra) u → Holds s (s.num rb) v →
      ∃ t, exec (.vdot rd ra rb rl) s = .next t ∧
        RegDone s t rd ((sumTo (s.num rl) fun i => gfMul (u.getD i 0) (v.getD i 0)).setWidth 32)

/-- R101: VADDMUL adds the factor times the source to the destination, element by element. -/
def Obligations.VaddmulAccumulates : Prop :=
  ∀ rdst rsrc rl rf s, HasWord (.vaddmul rdst rsrc rl rf) 0x21 [rdst, rsrc, rl, rf, 0, 0] ∧
    (¬ (Inside s (s.num rdst) (s.num rl) ∧ Inside s (s.num rsrc) (s.num rl)) →
      FailsClean (.vaddmul rdst rsrc rl rf) s .busError) ∧
    ∀ u v, u.length = s.num rl → v.length = s.num rl → Inside s (s.num rdst) (s.num rl) →
      Inside s (s.num rsrc) (s.num rl) → Apart (s.num rdst) (s.num rl) (s.num rsrc) (s.num rl) →
      Holds s (s.num rdst) u → Holds s (s.num rsrc) v →
      ∃ t, exec (.vaddmul rdst rsrc rl rf) s = .next t ∧
        MemDone s t (storedBy s (s.num rdst) (s.num rl) fun i =>
          u.getD i 0 ^^^ gfMul ((s.reg rf).setWidth 8) (v.getD i 0))

/-- R102: PEVAL delivers the sum of the coefficients times the powers of the point. -/
def Obligations.PevalSumsTerms : Prop :=
  ∀ rd rp rl rx s, HasWord (.peval rd rp rl rx) 0x22 [rd, rp, rl, rx, 0, 0] ∧
    (¬ Inside s (s.num rp) (s.num rl) → FailsClean (.peval rd rp rl rx) s .busError) ∧
    ∀ p, p.length = s.num rl → Inside s (s.num rp) (s.num rl) → Holds s (s.num rp) p →
      ∃ t, exec (.peval rd rp rl rx) s = .next t ∧
        RegDone s t rd ((sumTo (s.num rl) fun i =>
          gfMul (p.getD (s.num rl - 1 - i) 0) (repeatedProduct ((s.reg rx).setWidth 8) i)).setWidth 32)

/-- R103: PSCALE stores every coefficient times the factor. -/
def Obligations.PscaleScalesEveryCoefficient : Prop :=
  ∀ rdst rp rl rf s, HasWord (.pscale rdst rp rl rf) 0x23 [rdst, rp, rl, rf, 0, 0] ∧
    (¬ (Inside s (s.num rdst) (s.num rl) ∧ Inside s (s.num rp) (s.num rl)) →
      FailsClean (.pscale rdst rp rl rf) s .busError) ∧
    ∀ p, p.length = s.num rl → Inside s (s.num rdst) (s.num rl) → Inside s (s.num rp) (s.num rl) →
      Apart (s.num rdst) (s.num rl) (s.num rp) (s.num rl) → Holds s (s.num rp) p →
      ∃ t, exec (.pscale rdst rp rl rf) s = .next t ∧
        MemDone s t (storedBy s (s.num rdst) (s.num rl) fun i => gfMul (p.getD i 0) ((s.reg rf).setWidth 8))

/-- R104: PADD adds the coefficients of equal degree; the result has the longer operand's length. -/
def Obligations.PaddAddsCoefficientsOfEqualDegree : Prop :=
  ∀ rdst ra rla rb rlb s, HasWord (.padd rdst ra rla rb rlb) 0x24 [rdst, ra, rla, rb, rlb, 0] ∧
    (¬ (Inside s (s.num rdst) (max (s.num rla) (s.num rlb)) ∧ Inside s (s.num ra) (s.num rla) ∧
      Inside s (s.num rb) (s.num rlb)) → FailsClean (.padd rdst ra rla rb rlb) s .busError) ∧
    ∀ a b, a.length = s.num rla → b.length = s.num rlb → Inside s (s.num rdst) (max (s.num rla) (s.num rlb)) →
      Inside s (s.num ra) (s.num rla) → Inside s (s.num rb) (s.num rlb) →
      Apart (s.num rdst) (max (s.num rla) (s.num rlb)) (s.num ra) (s.num rla) →
      Apart (s.num rdst) (max (s.num rla) (s.num rlb)) (s.num rb) (s.num rlb) →
      Holds s (s.num ra) a → Holds s (s.num rb) b →
      ∃ t, exec (.padd rdst ra rla rb rlb) s = .next t ∧
        MemDone s t (storedBy s (s.num rdst) (max (s.num rla) (s.num rlb)) fun i =>
          coeff a (max (s.num rla) (s.num rlb) - 1 - i) ^^^ coeff b (max (s.num rla) (s.num rlb) - 1 - i))

/-- R105: PDIV raises DivideByZero when every element of the divisor is 0. Otherwise there are a quotient and a
remainder of the lengths of R105 (a) with dividend = quotient * divisor + remainder (R105 (h)); PDIV stores them and their
lengths, or raises BusError when one of them does not fit in BUF. -/
def Obligations.PdivDividesWithRemainder : Prop :=
  ∀ rq rr ra rla rb rlb s, HasWord (.pdiv rq rr ra rla rb rlb) 0x25 [rq, rr, ra, rla, rb, rlb] ∧
    (¬ (Inside s (s.num ra) (s.num rla) ∧ Inside s (s.num rb) (s.num rlb)) →
      FailsClean (.pdiv rq rr ra rla rb rlb) s .busError) ∧
    ∀ A B, A.length = s.num rla → B.length = s.num rlb → Inside s (s.num ra) (s.num rla) →
      Inside s (s.num rb) (s.num rlb) → Holds s (s.num ra) A → Holds s (s.num rb) B →
      ((∀ b ∈ B, b = 0) → FailsClean (.pdiv rq rr ra rla rb rlb) s .divideByZero) ∧
      ((∃ b ∈ B, b ≠ 0) → ∃ q r : List Byte,
        (let la := (A.dropWhile (· == 0)).length
         let lb := (B.dropWhile (· == 0)).length
         if la < lb then q.length = 0 ∧ r.length = la else q.length = la - lb + 1 ∧ r.length = lb - 1) ∧
        (∀ d, coeff A d = productCoeff q B d ^^^ coeff r d) ∧
        (¬ (Inside s (s.num rq) q.length ∧ Inside s (s.num rr) r.length) →
          FailsClean (.pdiv rq rr ra rla rb rlb) s .busError) ∧
        (Inside s (s.num rq) q.length → Inside s (s.num rr) r.length →
          Apart (s.num rq) q.length (s.num rr) r.length → Apart (s.num rq) q.length (s.num ra) (s.num rla) →
          Apart (s.num rq) q.length (s.num rb) (s.num rlb) → Apart (s.num rr) r.length (s.num ra) (s.num rla) →
          Apart (s.num rr) r.length (s.num rb) (s.num rlb) →
          ∃ t, exec (.pdiv rq rr ra rla rb rlb) s = .next t ∧
            DivDone s t (storedInto (stored s (s.num rq) q) (s.num rr) r) q.length r.length))

/-! ### Matrices -/

/-- R110 to R113: MGET reads and MSET writes the byte of element `[i][j]`, MROW delivers the address of row `i`. An index
outside the matrix raises OperandRange, and only then a matrix outside BUF raises BusError. -/
def Obligations.MatrixElementsAndRowAddress : Prop :=
  ∀ rd rm rr rc ri rj rv s,
    (HasWord (.mget rd rm rr rc ri rj) 0x30 [rd, rm, rr, rc, ri, rj] ∧
      HasWord (.mset rm rr rc ri rj rv) 0x31 [rm, rr, rc, ri, rj, rv] ∧
      HasWord (.mrow rd rm rr rc ri) 0x32 [rd, rm, rr, rc, ri, 0]) ∧
    (¬ (s.num ri < s.num rr ∧ s.num rj < s.num rc) →
      FailsClean (.mget rd rm rr rc ri rj) s .operandRange ∧ FailsClean (.mset rm rr rc ri rj rv) s .operandRange) ∧
    (s.num ri < s.num rr → s.num rj < s.num rc → ¬ Inside s (s.num rm) (s.num rr * s.num rc) →
      FailsClean (.mget rd rm rr rc ri rj) s .busError ∧ FailsClean (.mset rm rr rc ri rj rv) s .busError) ∧
    (s.num ri < s.num rr → s.num rj < s.num rc → Inside s (s.num rm) (s.num rr * s.num rc) →
      (∀ b, s.mem.read (s.num rm + s.num ri * s.num rc + s.num rj) = some b →
        ∃ t, exec (.mget rd rm rr rc ri rj) s = .next t ∧ RegDone s t rd (b.setWidth 32)) ∧
      ∃ t, exec (.mset rm rr rc ri rj rv) s = .next t ∧ MemDone s t fun x =>
        if x = s.num rm + s.num ri * s.num rc + s.num rj then some ((s.reg rv).setWidth 8) else s.mem.read x) ∧
    (s.num rr ≤ s.num ri → FailsClean (.mrow rd rm rr rc ri) s .operandRange) ∧
    (s.num ri < s.num rr → ¬ Inside s (s.num rm) (s.num rr * s.num rc) →
      FailsClean (.mrow rd rm rr rc ri) s .busError) ∧
    (s.num ri < s.num rr → Inside s (s.num rm) (s.num rr * s.num rc) →
      ∃ t v, exec (.mrow rd rm rr rc ri) s = .next t ∧ RegDone s t rd v ∧ v.toNat = s.num rm + s.num ri * s.num rc)

/-- R114: MSWAP exchanges two rows; R115: MSCALE multiplies a row by a factor; R116: MADDMUL adds a multiple of one row
to another (which may be the same row). -/
def Obligations.RowOperations : Prop :=
  ∀ rm rr rc ri rj rf s,
    (HasWord (.mswap rm rr rc ri rj) 0x33 [rm, rr, rc, ri, rj, 0] ∧
      HasWord (.mscale rm rr rc ri rf) 0x34 [rm, rr, rc, ri, rf, 0] ∧
      HasWord (.maddmul rm rr rc ri rj rf) 0x35 [rm, rr, rc, ri, rj, rf]) ∧
    (¬ (s.num ri < s.num rr ∧ s.num rj < s.num rr) →
      FailsClean (.mswap rm rr rc ri rj) s .operandRange ∧ FailsClean (.maddmul rm rr rc ri rj rf) s .operandRange) ∧
    (s.num rr ≤ s.num ri → FailsClean (.mscale rm rr rc ri rf) s .operandRange) ∧
    (s.num ri < s.num rr → ¬ Inside s (s.num rm) (s.num rr * s.num rc) →
      FailsClean (.mscale rm rr rc ri rf) s .busError ∧
      (s.num rj < s.num rr → FailsClean (.mswap rm rr rc ri rj) s .busError ∧
        FailsClean (.maddmul rm rr rc ri rj rf) s .busError)) ∧
    ∀ a, s.num ri < s.num rr → Inside s (s.num rm) (s.num rr * s.num rc) → a.length = s.num rc →
      Holds s (s.num rm + s.num ri * s.num rc) a →
      (∃ t, exec (.mscale rm rr rc ri rf) s = .next t ∧
        MemDone s t (storedBy s (s.num rm + s.num ri * s.num rc) (s.num rc) fun x =>
          gfMul (a.getD x 0) ((s.reg rf).setWidth 8))) ∧
      ∀ b, s.num rj < s.num rr → b.length = s.num rc → Holds s (s.num rm + s.num rj * s.num rc) b →
        (∃ t, exec (.mswap rm rr rc ri rj) s = .next t ∧
          MemDone s t (storedInto (stored s (s.num rm + s.num ri * s.num rc) b)
            (s.num rm + s.num rj * s.num rc) a)) ∧
        ∃ t, exec (.maddmul rm rr rc ri rj rf) s = .next t ∧
          MemDone s t (storedBy s (s.num rm + s.num rj * s.num rc) (s.num rc) fun x =>
            b.getD x 0 ^^^ gfMul ((s.reg rf).setWidth 8) (a.getD x 0))

/-- R119: MSTD raises OperandRange for more rows than columns, BusError for a matrix outside BUF, and eliminates in
place: under SKIP it always succeeds, under STRICT it succeeds with the identity in the first columns or ends with
MatrixInversionFailed, BUF then holding the rows as the steps before the failing one left them. -/
def Obligations.MstdReducesInPlace : Prop :=
  ∀ rm rr rc (pol : Nibble) s, pol.val ≤ 1 →
    HasWord (.mstd rm rr rc pol) 0x36 [rm, rr, rc, 0, 0, pol] ∧
    (s.num rc < s.num rr → FailsClean (.mstd rm rr rc pol) s .operandRange) ∧
    (s.num rr ≤ s.num rc → ¬ Inside s (s.num rm) (s.num rr * s.num rc) →
      FailsClean (.mstd rm rr rc pol) s .busError) ∧
    ∀ M, s.num rr ≤ s.num rc → Inside s (s.num rm) (s.num rr * s.num rc) → IsMatrix (s.num rr) (s.num rc) M →
      Holds s (s.num rm) M.flatten →
      (pol = 1 → ∃ t M', exec (.mstd rm rr rc pol) s = .next t ∧ IsMatrix (s.num rr) (s.num rc) M' ∧
        eliminate .skip (soleRows M) = .ok (soleRows M') ∧ MemDone s t (stored s (s.num rm) M'.flatten)) ∧
      (pol = 0 → ∀ M', eliminate .strict (soleRows M) = .ok (soleRows M') →
        IsMatrix (s.num rr) (s.num rc) M' ∧
        (∀ i j, i < s.num rr → j < s.num rr → elemAt M' i j = if i = j then 1 else 0) ∧
        ∃ t, exec (.mstd rm rr rc pol) s = .next t ∧ MemDone s t (stored s (s.num rm) M'.flatten)) ∧
      (pol = 0 → ∀ L, eliminate .strict (soleRows M) = .error (soleRows L) →
        ∃ t, exec (.mstd rm rr rc pol) s = .next t ∧ Raised s t (encode (.mstd rm rr rc pol)) .matrixInversionFailed ∧
          ∀ x, t.mem.read x = stored s (s.num rm) L.flatten x)

/-- R120: MINV checks both matrices, eliminates `M` with the companion `A` in lock-step and stores both; under SKIP it
always succeeds, under STRICT it may end with MatrixInversionFailed, both matrices then being left as the steps before the
failing one made them. -/
def Obligations.MinvEliminatesBothMatrices : Prop :=
  ∀ rm rr rc ra rca (pol : Nibble) policy s, policyOf pol = some policy →
    HasWord (.minv rm rr rc ra rca pol) 0x37 [rm, rr, rc, ra, rca, pol] ∧
    (s.num rc < s.num rr → FailsClean (.minv rm rr rc ra rca pol) s .operandRange) ∧
    (s.num rr ≤ s.num rc → ¬ (Inside s (s.num rm) (s.num rr * s.num rc) ∧ Inside s (s.num ra) (s.num rr * s.num rca)) →
      FailsClean (.minv rm rr rc ra rca pol) s .busError) ∧
    ∀ M A, s.num rr ≤ s.num rc → Inside s (s.num rm) (s.num rr * s.num rc) →
      Inside s (s.num ra) (s.num rr * s.num rca) →
      Apart (s.num rm) (s.num rr * s.num rc) (s.num ra) (s.num rr * s.num rca) →
      IsMatrix (s.num rr) (s.num rc) M → IsMatrix (s.num rr) (s.num rca) A → Holds s (s.num rm) M.flatten →
      Holds s (s.num ra) A.flatten →
      (policy = .skip → ∃ rows, eliminate policy (pairRows M A) = .ok rows) ∧
      (∀ rows, eliminate policy (pairRows M A) = .ok rows → ∃ t, exec (.minv rm rr rc ra rca pol) s = .next t ∧
        MemDone s t (storedInto (stored s (s.num rm) (rows.map Prod.fst).flatten) (s.num ra)
          (rows.map Prod.snd).flatten)) ∧
      (∀ rows, eliminate policy (pairRows M A) = .error rows → policy = .strict ∧
        ∃ t, exec (.minv rm rr rc ra rca pol) s = .next t ∧
          Raised s t (encode (.minv rm rr rc ra rca pol)) .matrixInversionFailed ∧
          ∀ x, t.mem.read x = storedInto (stored s (s.num rm) (rows.map Prod.fst).flatten) (s.num ra)
            (rows.map Prod.snd).flatten x)

/-- R117, R120: when the companion starts as the identity, the row operations it records turn the original matrix into
the eliminated one: companion times original = result. Under STRICT the result has the identity in its first columns, so
for a square matrix the companion is its inverse. -/
def Obligations.CompanionRecordsRowOperations : Prop :=
  ∀ r c M policy rows, IsMatrix r c M → r ≤ c → eliminate policy (pairRows M (identity r)) = .ok rows →
    (∀ i j, i < r → j < c → matProduct r (rows.map Prod.snd) M i j = elemAt (rows.map Prod.fst) i j) ∧
    (policy = .strict → ∀ i j, i < r → j < r → elemAt (rows.map Prod.fst) i j = if i = j then 1 else 0)

/-- R121: MPAR writes `[P transposed | I]`, reading only the block P of the input (that the rest may be unwritten is log
13). -/
def Obligations.MparWritesTheParityMatrix : Prop :=
  ∀ rdst rm rr rc s, HasWord (.mpar rdst rm rr rc) 0x38 [rdst, rm, rr, rc, 0, 0] ∧
    (s.num rc < s.num rr → FailsClean (.mpar rdst rm rr rc) s .operandRange) ∧
    (s.num rr ≤ s.num rc → ¬ (Inside s (s.num rm) (s.num rr * s.num rc) ∧
      Inside s (s.num rdst) ((s.num rc - s.num rr) * s.num rc)) → FailsClean (.mpar rdst rm rr rc) s .busError) ∧
    ∀ P : Nat → Nat → Byte, s.num rr ≤ s.num rc → Inside s (s.num rm) (s.num rr * s.num rc) →
      Inside s (s.num rdst) ((s.num rc - s.num rr) * s.num rc) →
      Apart (s.num rdst) ((s.num rc - s.num rr) * s.num rc) (s.num rm) (s.num rr * s.num rc) →
      (∀ j k, j < s.num rr → s.num rr ≤ k → k < s.num rc → s.mem.read (s.num rm + j * s.num rc + k) = some (P j k)) →
      ∃ t, exec (.mpar rdst rm rr rc) s = .next t ∧
        MemDone s t (storedBy s (s.num rdst) ((s.num rc - s.num rr) * s.num rc) fun x =>
          let i := x / s.num rc
          let j := x % s.num rc
          if j < s.num rr then P j (s.num rr + i) else if j = s.num rr + i then 1 else 0)

/-! ### Codec construction -/

/-- R129: FECNEW fills the slot when `1 <= k <= n <= 256` and otherwise raises InvalidParameters, the slot staying as it
was. -/
def Obligations.FecnewFillsTheSlot : Prop :=
  ∀ rk rn s, HasWord (.fecnew rk rn) 0x40 [rk, rn, 0, 0, 0, 0] ∧
    (¬ (1 ≤ s.num rk ∧ s.num rk ≤ s.num rn ∧ s.num rn ≤ 256) → FailsClean (.fecnew rk rn) s .invalidParameters) ∧
    (1 ≤ s.num rk → s.num rk ≤ s.num rn → s.num rn ≤ 256 → ∃ t c, exec (.fecnew rk rn) s = .next t ∧
      CodecDone s t c ∧ c.k = s.num rk ∧ c.n = s.num rn ∧ c.Legal ∧
      t.cfg = BitVec.ofNat 32 (s.num rk + 65536 * s.num rn) ∧ t.valid = true)

/-- R127: ENC has `n` rows of `k` elements, its first `k` rows are the identity, and it interpolates: for every
polynomial of `k` coefficients, row `i` of ENC applied to its values at the first `k` points gives its value at point
`i`. -/
def Obligations.EncIsTheInterpolationMatrix : Prop :=
  ∀ k n, 1 ≤ k → k ≤ n → n ≤ 256 → IsMatrix n k (encMatrix k n) ∧
    (∀ i j, i < k → j < k → elemAt (encMatrix k n) i j = if i = j then 1 else 0) ∧
    ∀ p : List Byte, p.length = k → ∀ i, i < n →
      (sumTo k fun j => gfMul (elemAt (encMatrix k n) i j) (polyeval p (evalPoint j))) = polyeval p (evalPoint i)

/-- R126, R128: VAND has `k` rows of `n` elements; row `i` holds the `i`-th powers of the points 0, 1, 2, 4, ..; row 0 is
all ones. -/
def Obligations.VandHoldsPowersOfThePoints : Prop :=
  ∀ k n, 1 ≤ k → k ≤ n → n ≤ 256 → IsMatrix k n (vandMatrix k n) ∧
    ∀ i j, i < k → j < n →
      elemAt (vandMatrix k n) i j = repeatedProduct (if j = 0 then 0 else xtimes (j - 1) 1) i ∧
      elemAt (vandMatrix k n) 0 j = 1

/-- R130 to R133: REQUIRED and TOTAL deliver K and N, ENCGET and VANDGET one element of ENC and VAND; an index outside
raises OperandRange. -/
def Obligations.CodecReads : Prop :=
  ∀ rd ri rj s c, s.codec = some c →
    (HasWord (.required rd) 0x41 [rd, 0, 0, 0, 0, 0] ∧ HasWord (.total rd) 0x42 [rd, 0, 0, 0, 0, 0] ∧
      HasWord (.encget rd ri rj) 0x43 [rd, ri, rj, 0, 0, 0] ∧ HasWord (.vandget rd ri rj) 0x44 [rd, ri, rj, 0, 0, 0]) ∧
    (∃ t, exec (.required rd) s = .next t ∧ RegDone s t rd (BitVec.ofNat 32 c.k)) ∧
    (∃ t, exec (.total rd) s = .next t ∧ RegDone s t rd (BitVec.ofNat 32 c.n)) ∧
    (¬ (s.num ri < c.n ∧ s.num rj < c.k) → FailsClean (.encget rd ri rj) s .operandRange) ∧
    (s.num ri < c.n → s.num rj < c.k → ∃ t, exec (.encget rd ri rj) s = .next t ∧
      RegDone s t rd ((elemAt c.enc (s.num ri) (s.num rj)).setWidth 32)) ∧
    (¬ (s.num ri < c.k ∧ s.num rj < c.n) → FailsClean (.vandget rd ri rj) s .operandRange) ∧
    (s.num ri < c.k → s.num rj < c.n → ∃ t, exec (.vandget rd ri rj) s = .next t ∧
      RegDone s t rd ((elemAt c.vand (s.num ri) (s.num rj)).setWidth 32))

/-- R134, R135: ENCDUMP and VANDDUMP copy ENC and VAND to BUF, row-major. -/
def Obligations.CodecDumps : Prop :=
  ∀ ra s c, s.codec = some c → c.Legal →
    (HasWord (.encdump ra) 0x45 [ra, 0, 0, 0, 0, 0] ∧ HasWord (.vanddump ra) 0x46 [ra, 0, 0, 0, 0, 0]) ∧
    (¬ Inside s (s.num ra) (c.n * c.k) →
      FailsClean (.encdump ra) s .busError ∧ FailsClean (.vanddump ra) s .busError) ∧
    (Inside s (s.num ra) (c.n * c.k) →
      (∃ t, exec (.encdump ra) s = .next t ∧
        MemDone s t (storedBy s (s.num ra) (c.n * c.k) fun x => elemAt c.enc (x / c.k) (x % c.k))) ∧
      ∃ t, exec (.vanddump ra) s = .next t ∧
        MemDone s t (storedBy s (s.num ra) (c.k * c.n) fun x => elemAt c.vand (x / c.n) (x % c.n)))

/-! ### Encoding and rebuilding -/

/-- R141: ENCODE writes the `n` fragments of the data, fragment `i` at `out + i*bs`: the blocks of the data, then the
parity fragments, each byte the sum of the coefficients of ENC times the bytes of the blocks. -/
def Obligations.EncodeWritesAllFragments : Prop :=
  ∀ rout rin rlen s c, s.codec = some c → c.Legal →
    HasWord (.encode rout rin rlen) 0x50 [rout, rin, rlen, 0, 0, 0] ∧
    (s.num rlen % c.k ≠ 0 → FailsClean (.encode rout rin rlen) s .inputLengthMismatch) ∧
    (s.num rlen % c.k = 0 → ¬ (Inside s (s.num rin) (s.num rlen) ∧ Inside s (s.num rout) (c.n * (s.num rlen / c.k))) →
      FailsClean (.encode rout rin rlen) s .busError) ∧
    ∀ D, s.num rlen % c.k = 0 → D.length = s.num rlen → Inside s (s.num rin) (s.num rlen) →
      Inside s (s.num rout) (c.n * (s.num rlen / c.k)) →
      Apart (s.num rout) (c.n * (s.num rlen / c.k)) (s.num rin) (s.num rlen) → Holds s (s.num rin) D →
      ∃ t, exec (.encode rout rin rlen) s = .next t ∧
        MemDone s t (storedBy s (s.num rout) (c.n * (s.num rlen / c.k)) fun x =>
          fragmentByte c (s.num rlen / c.k) D (x / (s.num rlen / c.k)) (x % (s.num rlen / c.k)))

/-- R142: ENCSINGLE writes the one fragment asked for, the same bytes that ENCODE gives it, at `out` itself; a bad index
is reported before a bad length. (That all of the data must have been written is log 12.) -/
def Obligations.EncsingleWritesOneFragment : Prop :=
  ∀ rout rin rlen ridx s c, s.codec = some c → c.Legal →
    HasWord (.encsingle rout rin rlen ridx) 0x51 [rout, rin, rlen, ridx, 0, 0] ∧
    (c.n ≤ s.num ridx → FailsClean (.encsingle rout rin rlen ridx) s .invalidShareId) ∧
    (s.num ridx < c.n → s.num rlen % c.k ≠ 0 → FailsClean (.encsingle rout rin rlen ridx) s .inputLengthMismatch) ∧
    (s.num ridx < c.n → s.num rlen % c.k = 0 →
      ¬ (Inside s (s.num rin) (s.num rlen) ∧ Inside s (s.num rout) (s.num rlen / c.k)) →
      FailsClean (.encsingle rout rin rlen ridx) s .busError) ∧
    ∀ D, s.num ridx < c.n → s.num rlen % c.k = 0 → D.length = s.num rlen → Inside s (s.num rin) (s.num rlen) →
      Inside s (s.num rout) (s.num rlen / c.k) → Apart (s.num rout) (s.num rlen / c.k) (s.num rin) (s.num rlen) →
      Holds s (s.num rin) D →
      ∃ t, exec (.encsingle rout rin rlen ridx) s = .next t ∧
        MemDone s t (storedBy s (s.num rout) (s.num rlen / c.k) fun x =>
          fragmentByte c (s.num rlen / c.k) D (s.num ridx) x)

/-- R143 F4 to F9, R174, for each of the six share-list commands: a list or an output outside BUF is a BusError that
changes nothing; a list with two equal numbers is refused (93 U3, log 4); a number of N or above ends in InvalidShareId,
and then data outside BUF in BusError, both with the list left sorted in BUF and nothing else changed there. -/
def Obligations.ShareListChecks : Prop :=
  ∀ i s c sl cnt outs, IsListCommand i s c sl cnt outs →
    (s.codec = some c → c.k ≤ cnt → ¬ (Inside s sl (8 * cnt) ∧ ∀ r ∈ outs, Inside s r.start r.len) →
      FailsClean i s .busError) ∧
    (∀ es, s.codec = some c → c.k ≤ cnt → es.length = cnt → (∀ e ∈ es, e.Fits) → Holds s sl (listBytes es) →
      Inside s sl (8 * cnt) → (∀ r ∈ outs, Inside s r.start r.len) → ¬ (es.map (·.num)).Nodup →
      exec i s = .refused .duplicateNumbers) ∧
    (∀ es sorted, GoodList s c sl cnt es sorted outs →
      (¬ GoodNumbers c sorted →
        ∃ t, exec i s = .next t ∧ Raised s t (encode i) .invalidShareId ∧
          ∀ x, t.mem.read x = sortedList s sl sorted x) ∧
      (GoodNumbers c sorted → ¬ (∀ r ∈ dataOf i s sorted, Inside s r.start r.len) →
        ∃ t, exec i s = .next t ∧ Raised s t (encode i) .busError ∧ ∀ x, t.mem.read x = sortedList s sl sorted x))

/-- R146: REBUILD sorts the list in place and stores the `k` blocks of R145 one after another; its one possible error
after the checks is the elimination's, and then only the list has changed. -/
def Obligations.RebuildStoresTheBlocks : Prop :=
  ∀ rout rsl rcnt rbs s c es sorted S,
    GoodList s c (s.num rsl) (s.num rcnt) es sorted [⟨s.num rout, c.k * s.num rbs⟩] → GoodNumbers c sorted →
    GoodData s (s.num rsl) (s.num rcnt) (s.num rbs) sorted [⟨s.num rout, c.k * s.num rbs⟩] S →
    HasWord (.rebuild rout rsl rcnt rbs) 0x52 [rout, rsl, rcnt, rbs, 0, 0] ∧
    (∀ blocks, rebuildBlocks c (s.num rbs) S = .ok blocks → IsMatrix c.k (s.num rbs) blocks ∧
      ∃ t, exec (.rebuild rout rsl rcnt rbs) s = .next t ∧
        MemDone s t (storedInto (sortedList s (s.num rsl) sorted) (s.num rout) blocks.flatten)) ∧
    (∀ e, rebuildBlocks c (s.num rbs) S = .error e → e = .matrixInversionFailed ∧
      ∃ t, exec (.rebuild rout rsl rcnt rbs) s = .next t ∧ Raised s t (encode (.rebuild rout rsl rcnt rbs)) e ∧
        ∀ x, t.mem.read x = sortedList s (s.num rsl) sorted x)

/-- R145, R146: the blocks rebuilt from uncorrupted fragments of some data are the blocks of that data, whichever
fragments they are. -/
def Obligations.RebuildRecoversTheData : Prop :=
  ∀ c bs D S blocks, c.Legal → D.length = c.k * bs → SortedFragments c S → AreEncodedFrom c bs D S →
    rebuildBlocks c bs S = .ok blocks → blocks.flatten = D

/-- R145, R150: with a legal codec, the eliminations that rebuild and syndrome run always find their pivots: the
MatrixInversionFailed of REBUILD, SYND and CORRECT is unreachable. -/
def Obligations.CodecEliminationsSucceed : Prop :=
  ∀ c bs S, c.Legal → SortedFragments c S →
    (∃ blocks, rebuildBlocks c bs S = .ok blocks) ∧ ∃ H, syndrome c (S.map (·.num)) = .ok H

/-! ### Berlekamp-Welch -/

/-- R151: SYND sorts the list in place and stores the syndrome matrix, `cnt - k` rows of `cnt` elements; the addresses and
data of the fragments play no part. -/
def Obligations.SyndStoresTheSyndromeMatrix : Prop :=
  ∀ rout rsl rcnt s c es sorted,
    GoodList s c (s.num rsl) (s.num rcnt) es sorted [⟨s.num rout, (s.num rcnt - c.k) * s.num rcnt⟩] →
    GoodNumbers c sorted →
    Apart (s.num rout) ((s.num rcnt - c.k) * s.num rcnt) (s.num rsl) (8 * s.num rcnt) → c.Legal →
    HasWord (.synd rout rsl rcnt) 0x60 [rout, rsl, rcnt, 0, 0, 0] ∧
    (∀ H, syndrome c (sorted.map (·.num)) = .ok H → IsMatrix (s.num rcnt - c.k) (s.num rcnt) H ∧
      ∃ t, exec (.synd rout rsl rcnt) s = .next t ∧
        MemDone s t (storedInto (sortedList s (s.num rsl) sorted) (s.num rout) H.flatten)) ∧
    (∀ e, syndrome c (sorted.map (·.num)) = .error e → e = .matrixInversionFailed ∧
      ∃ t, exec (.synd rout rsl rcnt) s = .next t ∧ Raised s t (encode (.synd rout rsl rcnt)) e ∧
        ∀ x, t.mem.read x = sortedList s (s.num rsl) sorted x)

/-- R150: every row of the syndrome matrix annihilates the bytes that one encoding gives the present fragments. -/
def Obligations.SyndromeAnnihilatesCodewords : Prop :=
  ∀ c bs D S H, c.Legal → SortedFragments c S → AreEncodedFrom c bs D S → syndrome c (S.map (·.num)) = .ok H →
    ∀ row ∈ H, ∀ p, p < bs →
      (sumTo S.length fun t => gfMul (row.getD t 0) ((S.map (·.data)).getD t [] |>.getD p 0)) = 0

/-- R156: BWB stores the `n` corrected bytes of one byte position without changing the fragments; a position outside the
block raises OperandRange, fewer than `k + 2` fragments raise NotEnoughShares, and an error of the solver leaves only the
sorted list behind. -/
def Obligations.BwbStoresCorrectedBytes : Prop :=
  ∀ rout rsl rcnt rbs rp s c es sorted S,
    GoodList s c (s.num rsl) (s.num rcnt) es sorted [⟨s.num rout, c.n⟩] → GoodNumbers c sorted →
    GoodData s (s.num rsl) (s.num rcnt) (s.num rbs) sorted [⟨s.num rout, c.n⟩] S →
    HasWord (.bwb rout rsl rcnt rbs rp) 0x61 [rout, rsl, rcnt, rbs, rp, 0] ∧
    (s.num rbs ≤ s.num rp → FailsClean (.bwb rout rsl rcnt rbs rp) s .operandRange) ∧
    (s.num rp < s.num rbs →
      (s.num rcnt - c.k < 2 → bw c S (s.num rp) = .error .notEnoughShares) ∧
      (∀ bytes, bw c S (s.num rp) = .ok bytes → bytes.length = c.n ∧
        ∃ t, exec (.bwb rout rsl rcnt rbs rp) s = .next t ∧
          MemDone s t (storedInto (sortedList s (s.num rsl) sorted) (s.num rout) bytes)) ∧
      (∀ e, bw c S (s.num rp) = .error e →
        ∃ t, exec (.bwb rout rsl rcnt rbs rp) s = .next t ∧ Raised s t (encode (.bwb rout rsl rcnt rbs rp)) e ∧
          ∀ x, t.mem.read x = sortedList s (s.num rsl) sorted x))

/-- R157, R158: CORRECT sorts the list and rewrites the data of the fragments in place; when a position cannot be repaired
it ends with that error, the list sorted and the repairs made before it kept. -/
def Obligations.CorrectRepairsInPlace : Prop :=
  ∀ rsl rcnt rbs s c es sorted S,
    GoodList s c (s.num rsl) (s.num rcnt) es sorted [] → GoodNumbers c sorted →
    GoodData s (s.num rsl) (s.num rcnt) (s.num rbs) sorted [] S →
    HasWord (.correct rsl rcnt rbs) 0x62 [rsl, rcnt, rbs, 0, 0, 0] ∧
    (∀ S', correctFragments c (s.num rbs) S = .ok S' →
      ∃ t, exec (.correct rsl rcnt rbs) s = .next t ∧
        MemDone s t (dataStored (sortedList s (s.num rsl) sorted) S')) ∧
    (∀ e S', correctFragments c (s.num rbs) S = .error (e, S') →
      ∃ t, exec (.correct rsl rcnt rbs) s = .next t ∧ Raised s t (encode (.correct rsl rcnt rbs)) e ∧
        ∀ x, t.mem.read x = dataStored (sortedList s (s.num rsl) sorted) S' x)

/-- R161 (b): when at most `e = (r-k)/2` of the present bytes of one position are wrong, and `e >= 1`, Berlekamp-Welch
gives the right byte of every fragment number. -/
def Obligations.BerlekampWelchCorrectsUpToE : Prop :=
  ∀ c bs D S p, c.Legal → SortedFragments c S → 1 ≤ (S.length - c.k) / 2 → wrongAt c bs D S p ≤ (S.length - c.k) / 2 →
    bw c S p = .ok ((List.range c.n).map fun i => fragmentByte c bs D i p)

/-- R161, R157: when at every byte position at most `e = (r-k)/2` of the present bytes are wrong, correction gives every
present fragment its right data; different positions may have different wrong fragments. -/
def Obligations.CorrectionRestoresEveryFragment : Prop :=
  ∀ c bs D S, c.Legal → SortedFragments c S → (∀ f ∈ S, f.data.length = bs) →
    (∀ p, p < bs → wrongAt c bs D S p ≤ (S.length - c.k) / 2) →
    correctFragments c bs S = .ok (S.map fun f => { f with data := (List.range bs).map (fragmentByte c bs D f.num) })

/-- R159: DECODE corrects as CORRECT does, then stores the blocks rebuilt from the corrected fragments; a failure keeps
the repairs made before it and writes no output. -/
def Obligations.DecodeCorrectsThenRebuilds : Prop :=
  ∀ rout rsl rcnt rbs s c es sorted S,
    GoodList s c (s.num rsl) (s.num rcnt) es sorted [⟨s.num rout, c.k * s.num rbs⟩] → GoodNumbers c sorted →
    GoodData s (s.num rsl) (s.num rcnt) (s.num rbs) sorted [⟨s.num rout, c.k * s.num rbs⟩] S →
    HasWord (.decode rout rsl rcnt rbs) 0x63 [rout, rsl, rcnt, rbs, 0, 0] ∧
    (∀ S' blocks, correctFragments c (s.num rbs) S = .ok S' → rebuildBlocks c (s.num rbs) S' = .ok blocks →
      ∃ t, exec (.decode rout rsl rcnt rbs) s = .next t ∧
        MemDone s t (storedInto (dataStored (sortedList s (s.num rsl) sorted) S') (s.num rout) blocks.flatten)) ∧
    (∀ S' e, correctFragments c (s.num rbs) S = .ok S' → rebuildBlocks c (s.num rbs) S' = .error e →
      ∃ t, exec (.decode rout rsl rcnt rbs) s = .next t ∧ Raised s t (encode (.decode rout rsl rcnt rbs)) e ∧
        ∀ x, t.mem.read x = dataStored (sortedList s (s.num rsl) sorted) S' x) ∧
    (∀ e S', correctFragments c (s.num rbs) S = .error (e, S') →
      ∃ t, exec (.decode rout rsl rcnt rbs) s = .next t ∧ Raised s t (encode (.decode rout rsl rcnt rbs)) e ∧
        ∀ x, t.mem.read x = dataStored (sortedList s (s.num rsl) sorted) S' x)

/-- R160: DECNC does what DECODE does and also writes `k` emission records of 8 bytes: block number, two zero bytes,
address `out + j*bs`, the received blocks first, each group in ascending order. -/
def Obligations.DecncRecordsTheEmission : Prop :=
  ∀ rout rol rsl rcnt rbs s c es sorted S,
    GoodList s c (s.num rsl) (s.num rcnt) es sorted [⟨s.num rout, c.k * s.num rbs⟩, ⟨s.num rol, 8 * c.k⟩] →
    GoodNumbers c sorted →
    GoodData s (s.num rsl) (s.num rcnt) (s.num rbs) sorted [⟨s.num rout, c.k * s.num rbs⟩, ⟨s.num rol, 8 * c.k⟩] S →
    HasWord (.decnc rout rol rsl rcnt rbs) 0x64 [rout, rol, rsl, rcnt, rbs, 0] ∧
    (∀ S' blocks, correctFragments c (s.num rbs) S = .ok S' → rebuildBlocks c (s.num rbs) S' = .ok blocks →
      ∃ t, exec (.decnc rout rol rsl rcnt rbs) s = .next t ∧
        MemDone s t (storedInto
          (storedInto (dataStored (sortedList s (s.num rsl) sorted) S') (s.num rout) blocks.flatten) (s.num rol)
          (listBytes (((List.range c.k).filter (received c S') ++
            (List.range c.k).filter (fun j => !received c S' j)).map fun j =>
              Share.mk j [0, 0] (s.num rout + j * s.num rbs))))) ∧
    (∀ S' e, correctFragments c (s.num rbs) S = .ok S' → rebuildBlocks c (s.num rbs) S' = .error e →
      ∃ t, exec (.decnc rout rol rsl rcnt rbs) s = .next t ∧ Raised s t (encode (.decnc rout rol rsl rcnt rbs)) e ∧
        ∀ x, t.mem.read x = dataStored (sortedList s (s.num rsl) sorted) S' x) ∧
    (∀ e S', correctFragments c (s.num rbs) S = .error (e, S') →
      ∃ t, exec (.decnc rout rol rsl rcnt rbs) s = .next t ∧ Raised s t (encode (.decnc rout rol rsl rcnt rbs)) e ∧
        ∀ x, t.mem.read x = dataStored (sortedList s (s.num rsl) sorted) S' x)
end

