-- ==== Sys2Proof/Laws/State.lean ====
section
/-! SUPPORT. One lemma per field per update of State, so that no later proof unfolds a record update; and the register
file's read-after-write laws. -/

namespace Sys2Proof.Machine

variable (s : State)

@[simp] theorem setReg_x (r : Reg) (v : Word) : (s.setReg r v).x = s.x.set r.val v := rfl
@[simp] theorem setReg_codec (r : Reg) (v : Word) : (s.setReg r v).codec = s.codec := rfl
@[simp] theorem setReg_mem (r : Reg) (v : Word) : (s.setReg r v).mem = s.mem := rfl
@[simp] theorem setReg_cseq (r : Reg) (v : Word) : (s.setReg r v).cseq = s.cseq := rfl
@[simp] theorem setReg_errs (r : Reg) (v : Word) : (s.setReg r v).errs = s.errs := rfl
@[simp] theorem setReg_err (r : Reg) (v : Word) : (s.setReg r v).err = s.err := rfl
@[simp] theorem setReg_ecmd (r : Reg) (v : Word) : (s.setReg r v).ecmd = s.ecmd := rfl
@[simp] theorem setReg_eseq (r : Reg) (v : Word) : (s.setReg r v).eseq = s.eseq := rfl
@[simp] theorem setReg_len0 (r : Reg) (v : Word) : (s.setReg r v).len0 = s.len0 := rfl
@[simp] theorem setReg_len1 (r : Reg) (v : Word) : (s.setReg r v).len1 = s.len1 := rfl
@[simp] theorem setReg_memsz (r : Reg) (v : Word) : (s.setReg r v).memsz = s.memsz := rfl
@[simp] theorem setReg_inbox (r : Reg) (v : Word) : (s.setReg r v).inbox = s.inbox := rfl
@[simp] theorem setReg_response (r : Reg) (v : Word) : (s.setReg r v).response = s.response := rfl
@[simp] theorem setReg_hostData (r : Reg) (v : Word) : (s.setReg r v).hostData = s.hostData := rfl

@[simp] theorem complete_x : s.complete.x = s.x := rfl
@[simp] theorem complete_codec : s.complete.codec = s.codec := rfl
@[simp] theorem complete_mem : s.complete.mem = s.mem := rfl
@[simp] theorem complete_cseq : s.complete.cseq = s.cseq + 1 := rfl
@[simp] theorem complete_errs : s.complete.errs = s.errs := rfl
@[simp] theorem complete_err : s.complete.err = s.err := rfl
@[simp] theorem complete_ecmd : s.complete.ecmd = s.ecmd := rfl
@[simp] theorem complete_eseq : s.complete.eseq = s.eseq := rfl
@[simp] theorem complete_len0 : s.complete.len0 = s.len0 := rfl
@[simp] theorem complete_len1 : s.complete.len1 = s.len1 := rfl
@[simp] theorem complete_memsz : s.complete.memsz = s.memsz := rfl
@[simp] theorem complete_inbox : s.complete.inbox = s.inbox := rfl
@[simp] theorem complete_response : s.complete.response = some codeOk := rfl
@[simp] theorem complete_hostData : s.complete.hostData = s.hostData := rfl

@[simp] theorem raise_x (w : Word) (e : ErrorCode) : (s.raise w e).x = s.x := rfl
@[simp] theorem raise_codec (w : Word) (e : ErrorCode) : (s.raise w e).codec = s.codec := rfl
@[simp] theorem raise_mem (w : Word) (e : ErrorCode) : (s.raise w e).mem = s.mem := rfl
@[simp] theorem raise_cseq (w : Word) (e : ErrorCode) : (s.raise w e).cseq = s.cseq + 1 := rfl
@[simp] theorem raise_errs (w : Word) (e : ErrorCode) : (s.raise w e).errs = true := rfl
@[simp] theorem raise_err (w : Word) (e : ErrorCode) : (s.raise w e).err = e.code := rfl
@[simp] theorem raise_ecmd (w : Word) (e : ErrorCode) : (s.raise w e).ecmd = w := rfl
@[simp] theorem raise_eseq (w : Word) (e : ErrorCode) : (s.raise w e).eseq = s.cseq := rfl
@[simp] theorem raise_len0 (w : Word) (e : ErrorCode) : (s.raise w e).len0 = s.len0 := rfl
@[simp] theorem raise_len1 (w : Word) (e : ErrorCode) : (s.raise w e).len1 = s.len1 := rfl
@[simp] theorem raise_memsz (w : Word) (e : ErrorCode) : (s.raise w e).memsz = s.memsz := rfl
@[simp] theorem raise_inbox (w : Word) (e : ErrorCode) : (s.raise w e).inbox = s.inbox := rfl
@[simp] theorem raise_response (w : Word) (e : ErrorCode) : (s.raise w e).response = some e.code := rfl
@[simp] theorem raise_hostData (w : Word) (e : ErrorCode) : (s.raise w e).hostData = s.hostData := rfl

@[simp] theorem clearLatch_x : s.clearLatch.x = s.x := rfl
@[simp] theorem clearLatch_codec : s.clearLatch.codec = s.codec := rfl
@[simp] theorem clearLatch_mem : s.clearLatch.mem = s.mem := rfl
@[simp] theorem clearLatch_cseq : s.clearLatch.cseq = s.cseq := rfl
@[simp] theorem clearLatch_errs : s.clearLatch.errs = false := rfl
@[simp] theorem clearLatch_err : s.clearLatch.err = 0 := rfl
@[simp] theorem clearLatch_ecmd : s.clearLatch.ecmd = 0 := rfl
@[simp] theorem clearLatch_eseq : s.clearLatch.eseq = 0 := rfl
@[simp] theorem clearLatch_len0 : s.clearLatch.len0 = s.len0 := rfl
@[simp] theorem clearLatch_len1 : s.clearLatch.len1 = s.len1 := rfl
@[simp] theorem clearLatch_memsz : s.clearLatch.memsz = s.memsz := rfl
@[simp] theorem clearLatch_inbox : s.clearLatch.inbox = s.inbox := rfl
@[simp] theorem clearLatch_response : s.clearLatch.response = s.response := rfl
@[simp] theorem clearLatch_hostData : s.clearLatch.hostData = s.hostData := rfl

@[simp] theorem withFetchWord_x (nbits w : Nat) : (s.withFetchWord nbits w).x = s.x := rfl
@[simp] theorem withFetchWord_codec (nbits w : Nat) : (s.withFetchWord nbits w).codec = s.codec := rfl
@[simp] theorem withFetchWord_mem (nbits w : Nat) : (s.withFetchWord nbits w).mem = s.mem := rfl
@[simp] theorem withFetchWord_cseq (nbits w : Nat) : (s.withFetchWord nbits w).cseq = s.cseq := rfl
@[simp] theorem withFetchWord_errs (nbits w : Nat) : (s.withFetchWord nbits w).errs = s.errs := rfl
@[simp] theorem withFetchWord_err (nbits w : Nat) : (s.withFetchWord nbits w).err = s.err := rfl
@[simp] theorem withFetchWord_ecmd (nbits w : Nat) : (s.withFetchWord nbits w).ecmd = s.ecmd := rfl
@[simp] theorem withFetchWord_eseq (nbits w : Nat) : (s.withFetchWord nbits w).eseq = s.eseq := rfl
@[simp] theorem withFetchWord_len0 (nbits w : Nat) : (s.withFetchWord nbits w).len0 = s.len0 := rfl
@[simp] theorem withFetchWord_len1 (nbits w : Nat) : (s.withFetchWord nbits w).len1 = s.len1 := rfl
@[simp] theorem withFetchWord_memsz (nbits w : Nat) : (s.withFetchWord nbits w).memsz = s.memsz := rfl
@[simp] theorem withFetchWord_inbox (nbits w : Nat) : (s.withFetchWord nbits w).inbox = .command (BitVec.ofNat 32 (w % 2 ^ nbits)) :: s.inbox := rfl
@[simp] theorem withFetchWord_response (nbits w : Nat) : (s.withFetchWord nbits w).response = s.response := rfl
@[simp] theorem withFetchWord_hostData (nbits w : Nat) : (s.withFetchWord nbits w).hostData = s.hostData := rfl

@[simp] theorem resetWith_x (m : Word) (q : List HostAction) : (State.resetWith m q).x = Vector.replicate 16 0 := rfl
@[simp] theorem resetWith_codec (m : Word) (q : List HostAction) : (State.resetWith m q).codec = none := rfl
@[simp] theorem resetWith_mem (m : Word) (q : List HostAction) : (State.resetWith m q).mem = [] := rfl
@[simp] theorem resetWith_cseq (m : Word) (q : List HostAction) : (State.resetWith m q).cseq = 0 := rfl
@[simp] theorem resetWith_errs (m : Word) (q : List HostAction) : (State.resetWith m q).errs = false := rfl
@[simp] theorem resetWith_err (m : Word) (q : List HostAction) : (State.resetWith m q).err = 0 := rfl
@[simp] theorem resetWith_ecmd (m : Word) (q : List HostAction) : (State.resetWith m q).ecmd = 0 := rfl
@[simp] theorem resetWith_eseq (m : Word) (q : List HostAction) : (State.resetWith m q).eseq = 0 := rfl
@[simp] theorem resetWith_len0 (m : Word) (q : List HostAction) : (State.resetWith m q).len0 = 0 := rfl
@[simp] theorem resetWith_len1 (m : Word) (q : List HostAction) : (State.resetWith m q).len1 = 0 := rfl
@[simp] theorem resetWith_memsz (m : Word) (q : List HostAction) : (State.resetWith m q).memsz = m := rfl
@[simp] theorem resetWith_inbox (m : Word) (q : List HostAction) : (State.resetWith m q).inbox = q := rfl
@[simp] theorem resetWith_response (m : Word) (q : List HostAction) : (State.resetWith m q).response = none := rfl
@[simp] theorem resetWith_hostData (m : Word) (q : List HostAction) : (State.resetWith m q).hostData = none := rfl

/-! ### The register file -/

@[simp] theorem reg_setReg_same (r : Reg) (v : Word) : (s.setReg r v).reg r = v := by
  simp [State.reg, State.setReg]

theorem reg_setReg_other {r r' : Reg} (h : r' ≠ r) (v : Word) : (s.setReg r v).reg r' = s.reg r' := by
  have : r.val ≠ r'.val := fun e => h (Fin.ext e.symm)
  simp [State.reg, State.setReg, this]

@[simp] theorem reg_complete (r : Reg) : s.complete.reg r = s.reg r := rfl
@[simp] theorem reg_raise (w : Word) (e : ErrorCode) (r : Reg) : (s.raise w e).reg r = s.reg r := rfl
@[simp] theorem reg_clearLatch (r : Reg) : s.clearLatch.reg r = s.reg r := rfl
@[simp] theorem memSize_complete : s.complete.memSize = s.memSize := rfl
@[simp] theorem memSize_raise (w : Word) (e : ErrorCode) : (s.raise w e).memSize = s.memSize := rfl
@[simp] theorem memSize_setReg (r : Reg) (v : Word) : (s.setReg r v).memSize = s.memSize := rfl
@[simp] theorem memSize_clearLatch : s.clearLatch.memSize = s.memSize := rfl

theorem num_lt (r : Reg) : s.num r < 2 ^ 32 := (s.reg r).isLt

theorem memSize_lt : s.memSize < 2 ^ 32 := s.memsz.isLt

/-- Two states with the same registers have the same register file. -/
theorem x_eq_of_regsKept {s t : State} (h : RegsKept s t) : t.x = s.x := by
  apply Vector.ext
  intro i hi
  exact h ⟨i, hi⟩

end Sys2Proof.Machine
end

