-- ==== Sys2Proof/Laws/Decode.lean ====
section
/-! SUPPORT. What the field extractors of the decoder give on the words the encoder packs, and how a word is put
together again from its fields (30_encoding.md R61, R62). -/

namespace Sys2Proof

theorem packR_toNat (op : Nat) (g1 g2 g3 g4 g5 g6 : Nibble) (h : op < 256) :
    (packR op g1 g2 g3 g4 g5 g6).toNat =
      op * 2 ^ 24 + g1.val * 2 ^ 20 + g2.val * 2 ^ 16 + g3.val * 2 ^ 12 + g4.val * 2 ^ 8 + g5.val * 2 ^ 4 + g6.val := by
  simp only [packR, BitVec.toNat_ofNat]
  omega

theorem packI_toNat (op : Nat) (rd : Nibble) (imm : BitVec 16) (h : op < 256) :
    (packI op rd imm).toNat = op * 2 ^ 24 + rd.val * 2 ^ 20 + imm.toNat := by
  simp only [packI, BitVec.toNat_ofNat]
  have := imm.isLt
  omega

section
variable (op : Nat) (g1 g2 g3 g4 g5 g6 : Nibble) (h : op < 256)
include h

theorem opcodeOf_packR : opcodeOf (packR op g1 g2 g3 g4 g5 g6) = op := by
  simp only [opcodeOf, packR_toNat _ _ _ _ _ _ _ h]; omega

theorem f1_packR : f1 (packR op g1 g2 g3 g4 g5 g6) = g1 := by
  apply Fin.ext; simp only [f1, nibbleAt, packR_toNat _ _ _ _ _ _ _ h]; omega

theorem f2_packR : f2 (packR op g1 g2 g3 g4 g5 g6) = g2 := by
  apply Fin.ext; simp only [f2, nibbleAt, packR_toNat _ _ _ _ _ _ _ h]; omega

theorem f3_packR : f3 (packR op g1 g2 g3 g4 g5 g6) = g3 := by
  apply Fin.ext; simp only [f3, nibbleAt, packR_toNat _ _ _ _ _ _ _ h]; omega

theorem f4_packR : f4 (packR op g1 g2 g3 g4 g5 g6) = g4 := by
  apply Fin.ext; simp only [f4, nibbleAt, packR_toNat _ _ _ _ _ _ _ h]; omega

theorem f5_packR : f5 (packR op g1 g2 g3 g4 g5 g6) = g5 := by
  apply Fin.ext; simp only [f5, nibbleAt, packR_toNat _ _ _ _ _ _ _ h]; omega

theorem f6_packR : f6 (packR op g1 g2 g3 g4 g5 g6) = g6 := by
  apply Fin.ext; simp only [f6, nibbleAt, packR_toNat _ _ _ _ _ _ _ h]; omega
end

section
variable (op : Nat) (rd : Nibble) (imm : BitVec 16) (h : op < 256)
include h

theorem opcodeOf_packI : opcodeOf (packI op rd imm) = op := by
  have := imm.isLt
  simp only [opcodeOf, packI_toNat _ _ _ h]; omega

theorem f1_packI : f1 (packI op rd imm) = rd := by
  have := imm.isLt
  apply Fin.ext; simp only [f1, nibbleAt, packI_toNat _ _ _ h]; omega

theorem f2_packI : f2 (packI op rd imm) = 0 := by
  have := imm.isLt
  apply Fin.ext; simp only [f2, nibbleAt, packI_toNat _ _ _ h, Fin.coe_ofNat_eq_mod]; omega

theorem imm16Of_packI : imm16Of (packI op rd imm) = imm := by
  have := imm.isLt
  apply BitVec.eq_of_toNat_eq
  simp only [imm16Of, BitVec.toNat_setWidth, packI_toNat _ _ _ h]
  omega
end

/-- The fields of a format R word (R61). -/
theorem fieldsOf_packR (op : Nat) (g1 g2 g3 g4 g5 g6 : Nibble) (h : op < 256) :
    Machine.fieldsOf (packR op g1 g2 g3 g4 g5 g6) = [g1, g2, g3, g4, g5, g6].map (·.val) := by
  simp only [Machine.fieldsOf, packR_toNat _ _ _ _ _ _ _ h, List.map_cons, List.map_nil, List.cons.injEq, and_true]
  omega

/-- A word is the format R word of its opcode and fields. -/
theorem packR_fields (w : Word) : packR (opcodeOf w) (f1 w) (f2 w) (f3 w) (f4 w) (f5 w) (f6 w) = w := by
  have hw := w.isLt
  have ho : opcodeOf w < 256 := by unfold opcodeOf; omega
  apply BitVec.eq_of_toNat_eq
  rw [packR_toNat _ _ _ _ _ _ _ ho]
  simp only [opcodeOf, f1, f2, f3, f4, f5, f6, nibbleAt]
  omega

/-- A word whose second field is 0 is the format I word of its opcode, first field and immediate. -/
theorem packI_fields (w : Word) (h : f2 w = 0) : packI (opcodeOf w) (f1 w) (imm16Of w) = w := by
  have hw := w.isLt
  have ho : opcodeOf w < 256 := by unfold opcodeOf; omega
  have h2 := congrArg Fin.val h
  simp only [f2, nibbleAt, Fin.coe_ofNat_eq_mod] at h2
  apply BitVec.eq_of_toNat_eq
  rw [packI_toNat _ _ _ ho]
  simp only [opcodeOf, f1, nibbleAt, imm16Of, BitVec.toNat_setWidth]
  omega

theorem unused_eq_ok (zs : List Nibble) (i j : Instr) :
    unused zs i = .ok j ↔ (∀ z ∈ zs, z = 0) ∧ i = j := by
  unfold unused
  by_cases h : zs.all (· == 0) = true
  · rw [if_pos h]
    simp only [List.all_eq_true, beq_iff_eq] at h
    simpa using fun _ => h
  · rw [if_neg h]
    simp only [List.all_eq_true, beq_iff_eq] at h
    simp [h]

theorem needSreg_eq_ok (v : Nibble) (r : Except Illegal Instr) (j : Instr) :
    needSreg v r = .ok j ↔ sregLegal v = true ∧ r = .ok j := by
  unfold needSreg
  cases sregLegal v <;> simp

theorem needPol_eq_ok (v : Nibble) (r : Except Illegal Instr) (j : Instr) :
    needPol v r = .ok j ↔ polLegal v = true ∧ r = .ok j := by
  unfold needPol
  cases polLegal v <;> simp

end Sys2Proof
end

