-- ==== Sys2Proof/Laws/Field.lean ====
section
/-! SUPPORT. The printed tables are the tables that 10_state.md R12 to R14 define, and the laws of the operators that
follow from them directly. -/

namespace Sys2Proof.Machine

theorem gfExp_zero : gfExp 0 = 1 := by decide +kernel

/-- R12: each entry is the double of the one before it. -/
theorem gfExp_succ_table : ∀ i : Fin 255, gfExp (i.val + 1) = xtime (gfExp i.val) := by decide +kernel

/-- R12: the table has period 255. -/
theorem gfExp_mod (i : Nat) : gfExp (i % 255) = gfExp i := by simp [gfExp]

theorem gfExp_add_255 (i : Nat) : gfExp (i + 255) = gfExp i := by simp [gfExp]

theorem gfExp_succ (i : Nat) : gfExp (i + 1) = xtime (gfExp i) := by
  have h := gfExp_succ_table ⟨i % 255, Nat.mod_lt _ (by decide)⟩
  simp only [gfExp_mod] at h
  rw [← h, ← gfExp_mod (i + 1), ← gfExp_mod (i % 255 + 1)]
  congr 1
  omega

/-- R12: `EXP[i] = 2^i`, doubling `i` times from 1. -/
theorem gfExp_eq_xtimes (i : Nat) : gfExp i = xtimes i 1 := by
  induction i with
  | zero => exact gfExp_zero
  | succ i ih => rw [gfExp_succ, ih]; rfl

/-- R13: the logarithm of a nonzero element. -/
theorem gfLog_table : ∀ a : Fin 256, a.val ≠ 0 →
    gfLog (BitVec.ofFin a) ≤ 254 ∧ gfExp (gfLog (BitVec.ofFin a)) = BitVec.ofFin a := by decide +kernel

theorem gfLog_le {a : Byte} (h : a ≠ 0) : gfLog a ≤ 254 :=
  (gfLog_table a.toFin fun e => h (BitVec.eq_of_toNat_eq e)).1

theorem gfExp_gfLog {a : Byte} (h : a ≠ 0) : gfExp (gfLog a) = a :=
  (gfLog_table a.toFin fun e => h (BitVec.eq_of_toNat_eq e)).2

/-- R13: the logarithm of a power of the generator. -/
theorem gfLog_gfExp_table : ∀ i : Fin 255, gfLog (gfExp i.val) = i.val := by decide +kernel

theorem gfLog_gfExp (i : Nat) : gfLog (gfExp i) = i % 255 := by
  have h := gfLog_gfExp_table ⟨i % 255, Nat.mod_lt _ (by decide)⟩
  rwa [gfExp_mod] at h

theorem gfExp_ne_zero_table : ∀ i : Fin 255, gfExp i.val ≠ 0 := by decide +kernel

theorem gfExp_ne_zero (i : Nat) : gfExp i ≠ 0 := by
  have h := gfExp_ne_zero_table ⟨i % 255, Nat.mod_lt _ (by decide)⟩
  rwa [gfExp_mod] at h

/-- R14: the inverse table. -/
theorem gfInv_table : ∀ a : Fin 256, a.val ≠ 0 →
    gfInv (BitVec.ofFin a) = gfExp (255 - gfLog (BitVec.ofFin a)) := by decide +kernel

theorem gfInv_eq {a : Byte} (h : a ≠ 0) : gfInv a = gfExp (255 - gfLog a) :=
  gfInv_table a.toFin fun e => h (BitVec.eq_of_toNat_eq e)

/-- Powers of the generator multiply by adding exponents. -/
theorem gfMul_gfExp (i j : Nat) : gfMul (gfExp i) (gfExp j) = gfExp (i + j) := by
  simp only [gfMul, gfExp_ne_zero, or_self, if_false, gfLog_gfExp]
  rw [← gfExp_mod, ← gfExp_mod (i + j)]
  congr 1
  omega

@[simp] theorem gfMul_zero_left (b : Byte) : gfMul 0#8 b = 0#8 := by simp [gfMul]
@[simp] theorem gfMul_zero_right (a : Byte) : gfMul a 0#8 = 0#8 := by simp [gfMul]

/-- Every nonzero element is a power of the generator. -/
theorem exists_gfExp {a : Byte} (h : a ≠ 0) : ∃ i, a = gfExp i := ⟨gfLog a, (gfExp_gfLog h).symm⟩

/-- The evaluation points are distinct (44_codec_construct.md R126). -/
theorem evalPoint_inj {i j : Nat} (hi : i ≤ 255) (hj : j ≤ 255) (h : evalPoint i = evalPoint j) : i = j := by
  cases i with
  | zero =>
    cases j with
    | zero => rfl
    | succ j => exact absurd h.symm (gfExp_ne_zero j)
  | succ i =>
    cases j with
    | zero => exact absurd h (gfExp_ne_zero i)
    | succ j =>
      have h' : gfLog (gfExp i) = gfLog (gfExp j) := congrArg gfLog h
      rw [gfLog_gfExp, gfLog_gfExp] at h'
      omega

end Sys2Proof.Machine
end

