-- ==== Sys2Proof/Laws/Sequences.lean ====
section
/-! SUPPORT. The operators on byte sequences: their lengths and elements, sums, and what a long division can answer. -/

namespace Sys2Proof.Machine

/-! ### Lengths -/

@[simp] theorem length_zeros (n : Nat) : (zeros n).length = n := by simp [zeros]

@[simp] theorem length_seqAdd (u v : List Byte) : (seqAdd u v).length = min u.length v.length := by simp [seqAdd]

@[simp] theorem length_addmul (d s : List Byte) (f : Byte) : (addmul d s f).length = min d.length s.length := by
  simp [addmul]

@[simp] theorem length_polyscale (p : List Byte) (f : Byte) : (polyscale p f).length = p.length := by simp [polyscale]

theorem length_padTo {n : Nat} {p : List Byte} (h : p.length ≤ n) : (padTo n p).length = n := by
  simp [padTo]; omega

@[simp] theorem length_polyadd (a b : List Byte) : (polyadd a b).length = max a.length b.length := by
  rw [polyadd, length_seqAdd, length_padTo (Nat.le_max_left _ _), length_padTo (Nat.le_max_right _ _), Nat.min_self]

@[simp] theorem length_unitRow (n i : Nat) : (unitRow n i).length = n := by simp [unitRow]

theorem length_combine (bs : Nat) (blocks : List (List Byte)) (coeffs : List Byte) (h : ∀ b ∈ blocks, b.length = bs) :
    (combine bs blocks coeffs).length = bs := by
  suffices H : ∀ (l : List (List Byte × Byte)) (F : List Byte), (∀ x ∈ l, x.1.length = bs) → F.length = bs →
      (l.foldl (fun F bc => addmul F bc.1 bc.2) F).length = bs from
    H _ _ (fun x hx => h _ (List.of_mem_zip hx).1) (length_zeros bs)
  intro l
  induction l with
  | nil => exact fun F _ hF => hF
  | cons x l ih =>
    intro F hl hF
    have hx := hl x List.mem_cons_self
    exact ih _ (fun y hy => hl y (List.mem_cons_of_mem _ hy)) (by simp [hF, hx])

/-! ### Elements -/

theorem getD_zipWith (f : Byte → Byte → Byte) (u v : List Byte) (i : Nat) (hu : i < u.length) (hv : i < v.length) :
    (List.zipWith f u v).getD i 0 = f (u.getD i 0) (v.getD i 0) := by
  simp [List.getD_eq_getElem?_getD, hu, hv]

theorem getD_addmul {d s : List Byte} {i : Nat} (f : Byte) (hd : i < d.length) (hs : i < s.length) :
    (addmul d s f).getD i 0 = d.getD i 0 ^^^ gfMul f (s.getD i 0) :=
  getD_zipWith _ d s i hd hs

theorem getD_polyscale (p : List Byte) (f : Byte) (i : Nat) : (polyscale p f).getD i 0 = gfMul (p.getD i 0) f := by
  by_cases h : i < p.length <;> simp [polyscale, List.getD_eq_getElem?_getD, h]

@[simp] theorem getD_unitRow (n i j : Nat) (h : j < n) : (unitRow n i).getD j 0 = if j = i then 1 else 0 := by
  simp [unitRow, List.getD_eq_getElem?_getD, h]

theorem elemAt_of_range (r c : Nat) (g : Nat → Nat → Byte) {i j : Nat} (hi : i < r) (hj : j < c) :
    elemAt ((List.range r).map fun i => (List.range c).map fun j => g i j) i j = g i j := by
  simp [elemAt, List.getD_eq_getElem?_getD, hi, hj]

/-! ### Sums -/

@[simp] theorem sumTo_zero (g : Nat → Byte) : sumTo 0 g = 0 := rfl

theorem sumTo_succ (n : Nat) (g : Nat → Byte) : sumTo (n + 1) g = sumTo n g ^^^ g n := by
  simp [sumTo, List.range_succ]

theorem sumTo_congr {n : Nat} {g h : Nat → Byte} (e : ∀ i, i < n → g i = h i) : sumTo n g = sumTo n h := by
  induction n with
  | zero => rfl
  | succ n ih =>
    rw [sumTo_succ, sumTo_succ, ih fun i hi => e i (Nat.lt_succ_of_lt hi), e n (Nat.lt_succ_self n)]

theorem sumTo_zero_fun (n : Nat) : sumTo n (fun _ => 0) = 0 := by
  induction n with
  | zero => rfl
  | succ n ih => rw [sumTo_succ, ih]; rfl

theorem sumTo_succ_left (n : Nat) (g : Nat → Byte) : sumTo (n + 1) g = g 0 ^^^ sumTo n fun i => g (i + 1) := by
  induction n with
  | zero => simp [sumTo_succ]
  | succ n ih => rw [sumTo_succ, ih, sumTo_succ n, BitVec.xor_assoc]

/-- A sum over a sequence is the sum over its positions. -/
theorem gfSum_eq_sumTo (l : List Byte) : gfSum l = sumTo l.length fun i => l.getD i 0 := by
  induction l with
  | nil => rfl
  | cons a l ih =>
    rw [List.length_cons, sumTo_succ_left]
    simp only [gfSum, gfAdd, ih, List.getD_cons_zero, List.getD_cons_succ]

theorem getD_polyTerms (x : Byte) (l : List Byte) (i j : Nat) (h : j < l.length) :
    (polyTerms x i l).getD j 0 = gfMul (l.getD j 0) (gfPow x (i + j)) := by
  induction l generalizing i j with
  | nil => simp at h
  | cons c l ih =>
    cases j with
    | zero => simp [polyTerms]
    | succ j =>
      simp only [polyTerms, List.getD_cons_succ]
      rw [ih (i + 1) j (by simpa using h)]
      congr 2; omega

@[simp] theorem length_polyTerms (x : Byte) (i : Nat) (l : List Byte) : (polyTerms x i l).length = l.length := by
  induction l generalizing i with
  | nil => rfl
  | cons c l ih => simp [polyTerms, ih]

/-- The value of a polynomial as the sum of its terms (42_vector_poly.md R102). -/
theorem polyeval_eq_sumTo (p : List Byte) (x : Byte) :
    polyeval p x = sumTo p.length fun i => gfMul (p.getD (p.length - 1 - i) 0) (gfPow x i) := by
  rw [polyeval, gfSum_eq_sumTo]
  simp only [length_polyTerms, List.length_reverse]
  refine sumTo_congr fun i hi => ?_
  rw [getD_polyTerms x _ 0 i (by simpa using hi), Nat.zero_add]
  simp [List.getD_eq_getElem?_getD, List.getElem?_reverse hi]

/-- Every element of a combination of blocks: the sum of the products (45_encode_rebuild.md R141). -/
theorem getD_combine (bs : Nat) (blocks : List (List Byte)) (coeffs : List Byte) (hb : ∀ b ∈ blocks, b.length = bs)
    (hl : blocks.length = coeffs.length) (p : Nat) (hp : p < bs) :
    (combine bs blocks coeffs).getD p 0 =
      sumTo blocks.length fun j => gfMul (coeffs.getD j 0) ((blocks.getD j []).getD p 0) := by
  suffices H : ∀ (bl : List (List Byte)) (co : List Byte) (F : List Byte), (∀ b ∈ bl, b.length = bs) →
      bl.length = co.length → F.length = bs →
      ((bl.zip co).foldl (fun F bc => addmul F bc.1 bc.2) F).getD p 0 =
        F.getD p 0 ^^^ sumTo bl.length fun j => gfMul (co.getD j 0) ((bl.getD j []).getD p 0) by
    rw [combine, H blocks coeffs (zeros bs) hb hl (length_zeros bs)]
    simp [zeros, List.getD_eq_getElem?_getD, hp]
  intro bl
  induction bl with
  | nil => intro co F _ _ _; simp
  | cons b bl ih =>
    intro co F hb hl hF
    cases co with
    | nil => simp at hl
    | cons f co =>
      have h1 := hb b List.mem_cons_self
      simp only [List.zip_cons_cons, List.foldl_cons, List.length_cons]
      rw [ih co _ (fun x hx => hb x (List.mem_cons_of_mem _ hx)) (by simpa using hl) (by simp [hF, h1]),
        getD_addmul f (by omega) (by omega), sumTo_succ_left]
      simp [BitVec.xor_assoc]

/-! ### Long division -/

theorem length_stripZeros_le (p : List Byte) : (stripZeros p).length ≤ p.length :=
  (List.dropWhile_suffix _).length_le

theorem stripZeros_head {p : List Byte} (h : (stripZeros p).length ≠ 0) : (stripZeros p).getD 0 0 ≠ 0 := by
  have hne : stripZeros p ≠ [] := fun e => h (by rw [e]; rfl)
  have := List.head_dropWhile_not (p := fun x : Byte => x == 0) (l := p) hne
  cases hs : stripZeros p with
  | nil => exact absurd hs hne
  | cons b l =>
    have e : (stripZeros p).head hne = b := by simp [hs]
    unfold stripZeros at e
    rw [e] at this
    simpa using this

/-- A nonzero element times the quotient by it (41_scalar_field.md R92). -/
theorem gfMul_gfDiv {b : Byte} (a : Byte) (hb : b ≠ 0) : gfMul b (gfDiv a b) = a := by
  by_cases ha : a = 0
  · simp [gfDiv, ha]
  · obtain ⟨i, rfl⟩ := exists_gfExp ha
    obtain ⟨j, rfl⟩ := exists_gfExp hb
    have hj := gfLog_le hb
    rw [gfDiv, if_neg ha, gfMul_gfExp]
    simp only [gfLog_gfExp] at hj ⊢
    rw [← gfExp_mod, ← gfExp_mod i]
    congr 1
    omega

/-- The loop of the division never meets its InternalInvariant; the lengths of what it gives (42_vector_poly.md R105
(a)). -/
theorem divLoop_ok (b : List Byte) (hb : b.getD 0 0 ≠ 0) (fuel : Nat) (q p : List Byte) (hf : p.length ≤ fuel) :
    ∃ q' r, divLoop b fuel q p = .ok (q', r) ∧
      (if p.length < b.length then q'.length = q.length ∧ r.length = p.length
       else q'.length = q.length + (p.length - b.length + 1) ∧ r.length = b.length - 1) := by
  have hb0 : 0 < b.length := by
    rcases b with _ | ⟨x, b⟩
    · exact absurd rfl hb
    · simp
  induction fuel generalizing q p with
  | zero => exact ⟨q, p, rfl, by rw [if_pos (by omega)]; exact ⟨rfl, rfl⟩⟩
  | succ fuel ih =>
    unfold divLoop
    by_cases h : b.length ≤ p.length
    · rw [if_pos h]
      have hlen : (seqAdd p (polyscale b (gfDiv (p.getD 0 0) (b.getD 0 0)) ++ zeros (p.length - b.length))).length =
          p.length := by simp; omega
      have hz : (seqAdd p (polyscale b (gfDiv (p.getD 0 0) (b.getD 0 0)) ++ zeros (p.length - b.length))).getD 0 0 =
          0 := by
        rw [seqAdd, getD_zipWith _ _ _ 0 (by omega) (by simp; omega)]
        have e : (polyscale b (gfDiv (p.getD 0 0) (b.getD 0 0)) ++ zeros (p.length - b.length)).getD 0 0 =
            (polyscale b (gfDiv (p.getD 0 0) (b.getD 0 0))).getD 0 0 := by
          simp only [List.getD_eq_getElem?_getD]
          rw [List.getElem?_append_left (by simpa using hb0)]
        rw [e, getD_polyscale, gfMul_gfDiv _ hb]
        simp [gfAdd]
      simp only [hz, if_true]
      obtain ⟨q', r, h1, h2⟩ := ih (q ++ [gfDiv (p.getD 0 0) (b.getD 0 0)])
        (seqAdd p (polyscale b (gfDiv (p.getD 0 0) (b.getD 0 0)) ++ zeros (p.length - b.length))).tail
        (by rw [List.length_tail, hlen]; omega)
      refine ⟨q', r, h1, ?_⟩
      rw [if_neg (by omega)]
      rw [List.length_tail, hlen] at h2
      simp only [List.length_append, List.length_singleton] at h2
      split at h2 <;> omega
    · rw [if_neg h]
      exact ⟨q, p, rfl, by rw [if_pos (by omega)]; exact ⟨rfl, rfl⟩⟩

/-- What a long division can answer (42_vector_poly.md R105). -/
theorem polydiv_cases (A B : List Byte) :
    ((stripZeros B).length = 0 ∧ polydiv A B = .error .divideByZero) ∨
    ((stripZeros B).length ≠ 0 ∧ ∃ q r, polydiv A B = .ok (q, r) ∧
      (if (stripZeros A).length < (stripZeros B).length then q.length = 0 ∧ r.length = (stripZeros A).length
       else q.length = (stripZeros A).length - (stripZeros B).length + 1 ∧
        r.length = (stripZeros B).length - 1)) := by
  unfold polydiv
  by_cases h : (stripZeros B).length = 0
  · exact .inl ⟨h, by rw [if_pos h]⟩
  · refine .inr ⟨h, ?_⟩
    rw [if_neg h]
    obtain ⟨q, r, h1, h2⟩ := divLoop_ok _ (stripZeros_head h) _ [] (stripZeros A) (Nat.le_refl _)
    exact ⟨q, r, h1, by simpa using h2⟩

end Sys2Proof.Machine
end

