-- ==== Sys2Proof/Laws/Elimination.lean ====
section
/-! SUPPORT. The elimination procedure (43_matrix.md R117): what the pivot search finds, one induction over the row
operations, the shape of the rows, and the matrices as lists of rows. -/

namespace Sys2Proof.Machine

/-! ### Rows -/

theorem rowAt_of_lt {rows : List PairRow} {i : Nat} (h : i < rows.length) : rowAt rows i = rows[i] := by
  simp [rowAt, List.getD_eq_getElem?_getD, h]

theorem rowAt_mem {rows : List PairRow} {i : Nat} (h : i < rows.length) : rowAt rows i ∈ rows := by
  rw [rowAt_of_lt h]; exact List.getElem_mem h

theorem gfInv_ne_zero {a : Byte} (h : a ≠ 0) : gfInv a ≠ 0 := by rw [gfInv_eq h]; exact gfExp_ne_zero _

theorem findPivot_some {rows : List PairRow} {i p : Nat} (h : findPivot rows i = some p) :
    i ≤ p ∧ p < rows.length ∧ pivotAt rows p i ≠ 0 := by
  have h1 := List.find?_some h
  have h2 := List.mem_of_find?_eq_some h
  simp only [Bool.and_eq_true, decide_eq_true_eq, bne_iff_ne, ne_eq] at h1
  exact ⟨h1.1, List.mem_range.mp h2, h1.2⟩

theorem findPivot_none {rows : List PairRow} {i : Nat} (h : findPivot rows i = none) :
    ∀ p, i ≤ p → p < rows.length → pivotAt rows p i = 0 := by
  intro p hp hl
  have := List.find?_eq_none.mp h p (List.mem_range.mpr hl)
  simpa [hp] using this

/-! ### One induction over the row operations -/

/-- A property of the rows that the three row operations keep: two rows exchanged, a row scaled by a nonzero factor,
multiples of one row added to other rows. -/
structure RowClosed (P : List PairRow → Prop) : Prop where
  swap : ∀ rows i j, i < rows.length → j < rows.length → P rows → P (swapRows rows i j)
  scale : ∀ rows i f, i < rows.length → f ≠ 0 → P rows → P (rows.set i (scalePair (rowAt rows i) f))
  add : ∀ rows i (on : Nat → Bool) (t : PairRow → Byte), i < rows.length → on i = false → P rows →
    P (rows.mapIdx fun j r => if on j then addmulPair r (rowAt rows i) (t r) else r)

@[simp] theorem length_swapRows (rows : List PairRow) (i j : Nat) : (swapRows rows i j).length = rows.length := by
  simp [swapRows]

@[simp] theorem length_scalePivot (rows : List PairRow) (i : Nat) : (scalePivot rows i).length = rows.length := by
  simp [scalePivot]

@[simp] theorem length_clearBelow (rows : List PairRow) (i : Nat) : (clearBelow rows i).length = rows.length := by
  simp [clearBelow]

@[simp] theorem length_clearAbove (rows : List PairRow) (i : Nat) : (clearAbove rows i).length = rows.length := by
  simp [clearAbove]

@[simp] theorem length_pivotStep (rows : List PairRow) (i p : Nat) : (pivotStep rows i p).length = rows.length := by
  unfold pivotStep; split <;> simp

/-- The pivot stands in row `i` after the exchange. -/
theorem pivotAt_swapped {rows : List PairRow} {i p : Nat} (hi : i < rows.length) :
    pivotAt (if p = i then rows else swapRows rows i p) i i = pivotAt rows p i := by
  split
  · next h => rw [h]
  · next h =>
    have h1 : rowAt (swapRows rows i p) i = rowAt rows p := by
      rw [rowAt_of_lt (by simpa using hi)]
      simp only [swapRows, List.getElem_set, if_neg h, if_true]
    rw [pivotAt, h1, pivotAt]

theorem pivotStep_closed {P : List PairRow → Prop} (hP : RowClosed P) {rows : List PairRow} {i p : Nat}
    (hi : i < rows.length) (hp : p < rows.length) (h0 : pivotAt rows p i ≠ 0) (h : P rows) : P (pivotStep rows i p) := by
  unfold pivotStep
  have hs : P (if p = i then rows else swapRows rows i p) := by
    split
    · exact h
    · exact hP.swap rows i p hi hp h
  have hl : (if p = i then rows else swapRows rows i p).length = rows.length := by split <;> simp
  have hc : P (scalePivot (if p = i then rows else swapRows rows i p) i) :=
    hP.scale _ i _ (by rw [hl]; exact hi) (gfInv_ne_zero (by rw [pivotAt_swapped hi]; exact h0)) hs
  have := hP.add _ i (fun j => decide (i < j)) (fun r => r.1.getD i 0)
    (by rw [length_scalePivot, hl]; exact hi) (by simp) hc
  simpa [clearBelow] using this

/-- What the forward pass leaves, with success or without, has every property that the row operations keep. -/
theorem forwardPass_closed {P : List PairRow → Prop} (hP : RowClosed P) (policy : Policy) (todo i : Nat)
    (rows : List PairRow) (hl : i + todo ≤ rows.length) (h : P rows) :
    (∀ rows', forwardPass policy todo i rows = .ok rows' → P rows' ∧ rows'.length = rows.length) ∧
    (∀ left, forwardPass policy todo i rows = .error left → P left ∧ left.length = rows.length) := by
  induction todo generalizing i rows with
  | zero =>
    refine ⟨fun rows' e => ?_, fun left e => ?_⟩
    · cases e; exact ⟨h, rfl⟩
    · cases e
  | succ todo ih =>
    unfold forwardPass
    cases hf : findPivot rows i with
    | some p =>
      obtain ⟨h1, h2, h3⟩ := findPivot_some hf
      have := ih (i + 1) (pivotStep rows i p) (by simp; omega) (pivotStep_closed hP (by omega) h2 h3 h)
      simpa using this
    | none =>
      cases policy with
      | strict =>
        refine ⟨fun rows' e => ?_, fun left e => ?_⟩
        · cases e
        · cases e; exact ⟨h, rfl⟩
      | skip => simpa using ih (i + 1) rows (by omega) h

theorem backwardPass_closed {P : List PairRow → Prop} (hP : RowClosed P) (rows : List PairRow) (h : P rows) :
    P (backwardPass rows) ∧ (backwardPass rows).length = rows.length := by
  unfold backwardPass
  have hr : ∀ i ∈ (List.range' 1 (rows.length - 1)).reverse, i < rows.length := by
    intro i hi
    simp only [List.mem_reverse, List.mem_range'_1] at hi
    omega
  suffices H : ∀ (l : List Nat) (rows' : List PairRow), (∀ i ∈ l, i < rows.length) → P rows' →
      rows'.length = rows.length → P (l.foldl clearAbove rows') ∧ (l.foldl clearAbove rows').length = rows.length from
    H _ rows hr h rfl
  intro l
  induction l with
  | nil => exact fun rows' _ h1 h2 => ⟨h1, h2⟩
  | cons i l ih =>
    intro rows' h1 h2 h3
    have hi := h1 i List.mem_cons_self
    have := hP.add rows' i (fun j => decide (j < i)) (fun r => r.1.getD i 0) (by omega) (by simp) h2
    exact ih (clearAbove rows' i) (fun j hj => h1 j (List.mem_cons_of_mem _ hj)) (by simpa [clearAbove] using this)
      (by simpa using h3)

/-- What an elimination leaves, with success or without, has every property of the rows that the row operations keep. -/
theorem eliminate_closed {P : List PairRow → Prop} (hP : RowClosed P) (policy : Policy) (rows : List PairRow)
    (h : P rows) :
    (∀ rows', eliminate policy rows = .ok rows' → P rows' ∧ rows'.length = rows.length) ∧
    (∀ left, eliminate policy rows = .error left → P left ∧ left.length = rows.length) := by
  obtain ⟨h1, h2⟩ := forwardPass_closed hP policy rows.length 0 rows (by simp) h
  unfold eliminate
  cases hf : forwardPass policy rows.length 0 rows with
  | ok rows1 =>
    obtain ⟨h3, h4⟩ := h1 _ hf
    obtain ⟨h5, h6⟩ := backwardPass_closed hP rows1 h3
    refine ⟨fun rows' e => ?_, fun left e => ?_⟩
    · cases e; exact ⟨h5, by rw [h6, h4]⟩
    · cases e
  | error left1 =>
    refine ⟨fun rows' e => ?_, fun left e => ?_⟩
    · cases e
    · cases e; exact h2 _ hf

/-- Under SKIP an elimination never fails (43_matrix.md R118). -/
theorem eliminate_skip_ok (rows : List PairRow) : ∃ rows', eliminate .skip rows = .ok rows' := by
  have H : ∀ todo i (rows : List PairRow), ∃ rows', forwardPass .skip todo i rows = .ok rows' := by
    intro todo
    induction todo with
    | zero => exact fun i rows => ⟨rows, rfl⟩
    | succ todo ih =>
      intro i rows
      unfold forwardPass
      cases findPivot rows i with
      | some p => exact ih _ _
      | none => exact ih _ _
  obtain ⟨rows', h⟩ := H rows.length 0 rows
  exact ⟨backwardPass rows', by rw [eliminate, h]⟩

/-! ### Shape -/

/-- Every row has `c` elements of the matrix and `a` of the companion. -/
def PairShape (c a : Nat) (rows : List PairRow) : Prop := ∀ r ∈ rows, r.1.length = c ∧ r.2.length = a

theorem pairShape_closed (c a : Nat) : RowClosed (PairShape c a) where
  swap rows i j hi hj h r hr := by
    rcases List.mem_or_eq_of_mem_set hr with h1 | h1
    · rcases List.mem_or_eq_of_mem_set h1 with h2 | h2
      · exact h r h2
      · rw [h2]; exact h _ (rowAt_mem hj)
    · rw [h1]; exact h _ (rowAt_mem hi)
  scale rows i f hi _ h r hr := by
    rcases List.mem_or_eq_of_mem_set hr with h1 | h1
    · exact h r h1
    · have := h _ (rowAt_mem hi)
      rw [h1]; simpa [scalePair] using this
  add rows i on t hi _ h r hr := by
    obtain ⟨j, hj, rfl⟩ := List.mem_mapIdx.mp hr
    have h1 := h _ (List.getElem_mem hj)
    have h2 := h _ (rowAt_mem hi)
    split
    · simp [addmulPair, h1.1, h1.2, h2.1, h2.2]
    · exact h1

/-- An elimination keeps the shape of the rows, with success or without. -/
theorem eliminate_shape {c a : Nat} {policy : Policy} {rows : List PairRow} (h : PairShape c a rows) :
    (∀ rows', eliminate policy rows = .ok rows' → PairShape c a rows' ∧ rows'.length = rows.length) ∧
    (∀ left, eliminate policy rows = .error left → PairShape c a left ∧ left.length = rows.length) :=
  eliminate_closed (pairShape_closed c a) policy rows h

theorem pairShape_soleRows {r c : Nat} {M : Rows} (h : IsMatrix r c M) : PairShape c 0 (soleRows M) := by
  intro x hx
  obtain ⟨row, hrow, rfl⟩ := List.mem_map.mp hx
  exact ⟨h.2 row hrow, rfl⟩

theorem pairShape_pairRows {r c r' a : Nat} {M A : Rows} (h : IsMatrix r c M) (h' : IsMatrix r' a A) :
    PairShape c a (pairRows M A) := fun _ hx => ⟨h.2 _ (List.of_mem_zip hx).1, h'.2 _ (List.of_mem_zip hx).2⟩

@[simp] theorem length_soleRows (M : Rows) : (soleRows M).length = M.length := by simp [soleRows]

@[simp] theorem length_pairRows (M A : Rows) : (pairRows M A).length = min M.length A.length := by simp [pairRows]

theorem fst_soleRows (M : Rows) : (soleRows M).map Prod.fst = M := by
  rw [soleRows, List.map_map]; exact List.map_id M

/-- Rows without a companion stay without one. -/
theorem soleRows_fst {c : Nat} {rows : List PairRow} (h : PairShape c 0 rows) :
    rows = soleRows (rows.map Prod.fst) := by
  simp only [soleRows, List.map_map]
  symm
  conv_rhs => rw [← List.map_id rows]
  refine List.map_congr_left fun r hr => ?_
  exact Prod.ext rfl (List.length_eq_zero_iff.mp (h r hr).2).symm

/-! ### Matrices as lists of rows -/

theorem isMatrix_rowsOf {r c : Nat} {bs : List Byte} (h : bs.length = r * c) : IsMatrix r c (rowsOf r c bs) := by
  refine ⟨by simp [rowsOf], fun row hrow => ?_⟩
  simp only [rowsOf, List.mem_map, List.mem_range] at hrow
  obtain ⟨i, hi, rfl⟩ := hrow
  have : i * c + c ≤ r * c := by
    calc i * c + c = (i + 1) * c := (Nat.succ_mul i c).symm
      _ ≤ r * c := Nat.mul_le_mul_right c hi
  simp [h]; omega

/-- Laying a matrix out row-major and cutting it again gives it back (20_memory.md R55). -/
theorem rowsOf_flatten {r c : Nat} {M : Rows} (h : IsMatrix r c M) : rowsOf r c M.flatten = M := by
  obtain ⟨hl, hr⟩ := h
  induction M generalizing r with
  | nil => subst hl; rfl
  | cons row M ih =>
    subst hl
    have h1 := hr row List.mem_cons_self
    have h2 := ih rfl fun x hx => hr x (List.mem_cons_of_mem _ hx)
    simp only [rowsOf, List.length_cons, List.flatten_cons, List.range_succ_eq_map, List.map_cons, List.map_map,
      List.cons.injEq] at h2 ⊢
    refine ⟨by simp [← h1], ?_⟩
    conv_rhs => rw [← h2]
    refine List.map_congr_left fun i _ => ?_
    have : (i + 1) * c = row.length + i * c := by rw [h1, Nat.succ_mul, Nat.add_comm]
    simp only [Function.comp_apply, Nat.succ_eq_add_one, this]
    rw [List.drop_append, List.drop_eq_nil_of_le (Nat.le_add_right _ _), Nat.add_sub_cancel_left, List.nil_append]

theorem length_flatten_matrix {r c : Nat} {M : Rows} (h : IsMatrix r c M) : M.flatten.length = r * c := by
  obtain ⟨hl, hr⟩ := h
  induction M generalizing r with
  | nil => subst hl; simp
  | cons row M ih =>
    subst hl
    rw [List.flatten_cons, List.length_append, hr row List.mem_cons_self,
      ih rfl fun x hx => hr x (List.mem_cons_of_mem _ hx), List.length_cons, Nat.succ_mul, Nat.add_comm]

/-- Byte `x` of a row-major matrix is element `[x / c][x % c]` (20_memory.md R55). -/
theorem getElem?_flatten_matrix {r c : Nat} {M : Rows} (h : IsMatrix r c M) {x : Nat} (hx : x < r * c) :
    M.flatten[x]? = some (elemAt M (x / c) (x % c)) := by
  have hc : 0 < c := by
    rcases Nat.eq_zero_or_pos c with h0 | h0
    · rw [h0] at hx; simp at hx
    · exact h0
  obtain ⟨hl, hr⟩ := h
  induction M generalizing r x with
  | nil => subst hl; simp at hx
  | cons row M ih =>
    subst hl
    have h1 := hr row List.mem_cons_self
    by_cases hxc : x < c
    · rw [List.flatten_cons, List.getElem?_append_left (by omega)]
      simp [elemAt, Nat.div_eq_of_lt hxc, Nat.mod_eq_of_lt hxc, List.getD_eq_getElem?_getD, h1, hxc]
    · rw [List.flatten_cons, List.getElem?_append_right (by omega), h1]
      have hx' : x - c < M.length * c := by
        rw [List.length_cons, Nat.succ_mul] at hx; omega
      rw [ih hx' rfl (fun y hy => hr y (List.mem_cons_of_mem _ hy))]
      have e1 : x / c = (x - c) / c + 1 := by
        conv_lhs => rw [← Nat.sub_add_cancel (Nat.le_of_not_lt hxc)]
        exact Nat.add_div_right _ hc
      have e2 : x % c = (x - c) % c := by
        conv_lhs => rw [← Nat.sub_add_cancel (Nat.le_of_not_lt hxc)]
        exact Nat.add_mod_right _ _
      rw [e1, e2]
      simp [elemAt]

theorem isMatrix_parityOf {r m : Nat} (P : Rows) (h : P.length = r) : IsMatrix m (r + m) (parityOf m P) := by
  refine ⟨by simp [parityOf], fun row hrow => ?_⟩
  simp only [parityOf, List.mem_map, List.mem_range] at hrow
  obtain ⟨i, _, rfl⟩ := hrow
  simp [h]

theorem isMatrix_encMatrix (k n : Nat) : IsMatrix n k (encMatrix k n) := by
  refine ⟨by simp [encMatrix], fun row hrow => ?_⟩
  simp only [encMatrix, List.mem_map] at hrow
  obtain ⟨i, _, rfl⟩ := hrow
  simp

theorem isMatrix_vandMatrix (k n : Nat) : IsMatrix k n (vandMatrix k n) := by
  refine ⟨by simp [vandMatrix], fun row hrow => ?_⟩
  simp only [vandMatrix, List.mem_map] at hrow
  obtain ⟨i, _, rfl⟩ := hrow
  simp

theorem isMatrix_identity (n : Nat) : IsMatrix n n (identity n) := by
  refine ⟨by simp [identity], fun row hrow => ?_⟩
  simp only [identity, List.mem_map] at hrow
  obtain ⟨i, _, rfl⟩ := hrow
  simp

end Sys2Proof.Machine
end

