-- ==== Sys2Proof/Laws/Memory.lean ====
section
/-! SUPPORT. The laws of BUF: a read after a write, the canonical form, and the bounds, for one byte and for byte
sequences. -/

namespace Sys2Proof.Machine

/-! ### One byte -/

theorem read_write_same (m : Memory) (a : Nat) (b : Byte) : (m.write a b).read a = some b := by
  induction m with
  | nil => simp [Memory.write, Memory.read]
  | cons c m ih =>
    obtain ⟨a', b'⟩ := c
    unfold Memory.write
    split
    · simp [Memory.read]
    · split
      · simp [Memory.read]
      · simp only [Memory.read, ih]
        simp [*]

theorem read_write_other (m : Memory) {a x : Nat} (h : x ≠ a) (b : Byte) : (m.write a b).read x = m.read x := by
  induction m with
  | nil => simp [Memory.write, Memory.read, h]
  | cons c m ih =>
    obtain ⟨a', b'⟩ := c
    unfold Memory.write
    split
    · simp [Memory.read, h]
    · split
      · rename_i h2
        subst h2
        simp [Memory.read, h]
      · simp only [Memory.read, ih]

theorem read_write (m : Memory) (a x : Nat) (b : Byte) :
    (m.write a b).read x = if x = a then some b else m.read x := by
  split
  · next h => subst h; exact read_write_same m x b
  · next h => exact read_write_other m h b

theorem mem_write_iff_le (m : Memory) (a : Nat) (b : Byte) (c : Host.Cell) (h : c ∈ m.write a b) :
    c = (a, b) ∨ c ∈ m := by
  induction m with
  | nil => simpa [Memory.write] using h
  | cons d m ih =>
    unfold Memory.write at h
    split at h
    · rcases List.mem_cons.mp h with h | h
      · exact .inl h
      · exact .inr h
    · split at h
      · rcases List.mem_cons.mp h with h | h
        · exact .inl h
        · exact .inr (List.mem_cons_of_mem _ h)
      · rcases List.mem_cons.mp h with h | h
        · exact .inr (h ▸ List.mem_cons_self)
        · exact (ih h).imp id (List.mem_cons_of_mem _)

/-- A write keeps the canonical form. -/
theorem wf_write (m : Memory) (a : Nat) (b : Byte) (h : m.wf = true) : (m.write a b).wf = true := by
  induction m with
  | nil => simp [Memory.write, Memory.wf]
  | cons c m ih =>
    obtain ⟨a', b'⟩ := c
    simp only [Memory.wf, Bool.and_eq_true, List.all_eq_true, decide_eq_true_eq] at h
    unfold Memory.write
    split
    · next h1 =>
      simp only [Memory.wf, Bool.and_eq_true, List.all_eq_true, decide_eq_true_eq, List.mem_cons]
      refine ⟨?_, h⟩
      rintro x (rfl | hx)
      · exact h1
      · exact Nat.lt_trans h1 (h.1 x hx)
    · split
      · next h2 =>
        subst h2
        simp only [Memory.wf, Bool.and_eq_true, List.all_eq_true, decide_eq_true_eq]
        exact h
      · next h1 h2 =>
        simp only [Memory.wf, Bool.and_eq_true, List.all_eq_true, decide_eq_true_eq]
        refine ⟨fun x hx => ?_, ih h.2⟩
        rcases mem_write_iff_le m a b x hx with rfl | hx
        · show a' < a
          omega
        · exact h.1 x hx

/-- A write inside the bounds keeps BUF inside them. -/
theorem within_write (m : Memory) {a n : Nat} (b : Byte) (h : m.within n = true) (ha : a < n) :
    (m.write a b).within n = true := by
  simp only [Memory.within, List.all_eq_true, decide_eq_true_eq] at h ⊢
  intro x hx
  rcases mem_write_iff_le m a b x hx with rfl | hx
  · exact ha
  · exact h x hx

/-! ### Byte sequences -/

@[simp] theorem writeBytes_nil (m : Memory) (a : Nat) : m.writeBytes a [] = m := rfl

theorem read_writeBytes (m : Memory) (a x : Nat) (bs : List Byte) :
    (m.writeBytes a bs).read x = storedInto m.read a bs x := by
  induction bs generalizing m a with
  | nil => simp [storedInto]
  | cons b bs ih =>
    simp only [Memory.writeBytes, ih, storedInto, List.length_cons, read_write]
    rcases Nat.lt_trichotomy x a with h | h | h
    · have h1 : ¬ (a + 1 ≤ x ∧ x < a + 1 + bs.length) := by omega
      have h2 : ¬ (a ≤ x ∧ x < a + (bs.length + 1)) := by omega
      have h3 : x ≠ a := by omega
      rw [if_neg h1, if_neg h2, if_neg h3]
    · subst h
      simp
    · have h3 : x ≠ a := by omega
      obtain ⟨k, rfl⟩ : ∃ k, x = a + 1 + k := ⟨x - (a + 1), by omega⟩
      have h4 : a + 1 + k - (a + 1) = k := by omega
      have h5 : a + 1 + k - a = k + 1 := by omega
      by_cases h1 : k < bs.length
      · have e1 : a + 1 ≤ a + 1 + k ∧ a + 1 + k < a + 1 + bs.length := by omega
        have e2 : a ≤ a + 1 + k ∧ a + 1 + k < a + (bs.length + 1) := by omega
        rw [if_pos e1, if_pos e2, h4, h5, List.getElem?_cons_succ]
      · have e1 : ¬ (a + 1 ≤ a + 1 + k ∧ a + 1 + k < a + 1 + bs.length) := by omega
        have e2 : ¬ (a ≤ a + 1 + k ∧ a + 1 + k < a + (bs.length + 1)) := by omega
        rw [if_neg e1, if_neg e2, if_neg h3]

theorem wf_writeBytes (m : Memory) (a : Nat) (bs : List Byte) (h : m.wf = true) :
    (m.writeBytes a bs).wf = true := by
  induction bs generalizing m a with
  | nil => exact h
  | cons b bs ih => exact ih _ _ (wf_write m a b h)

theorem within_writeBytes (m : Memory) (a n : Nat) (bs : List Byte) (h : m.within n = true)
    (hb : bs.length = 0 ∨ a + bs.length ≤ n) : (m.writeBytes a bs).within n = true := by
  induction bs generalizing m a with
  | nil => exact h
  | cons b bs ih =>
    simp only [List.length_cons] at hb
    exact ih _ _ (within_write m b h (by omega)) (by omega)

/-- `readBytes` gives exactly the sequence that BUF holds. -/
theorem readBytes_eq_some (m : Memory) (a n : Nat) (u : List Byte) :
    m.readBytes a n = some u ↔ u.length = n ∧ ∀ i (h : i < u.length), m.read (a + i) = some u[i] := by
  induction n generalizing a u with
  | zero =>
    simp only [Memory.readBytes, Option.some.injEq]
    constructor
    · rintro rfl; simp
    · rintro ⟨h, -⟩; exact (List.length_eq_zero_iff.mp h).symm
  | succ n ih =>
    simp only [Memory.readBytes]
    constructor
    · intro h
      split at h
      · next b bs hb hbs =>
        cases h
        obtain ⟨h1, h2⟩ := (ih _ _).mp hbs
        refine ⟨by simp [h1], fun i hi => ?_⟩
        cases i with
        | zero => simpa using hb
        | succ i =>
          have := h2 i (by simpa using hi)
          simpa [Nat.add_assoc, Nat.add_comm 1] using this
      · cases h
    · rintro ⟨h1, h2⟩
      cases u with
      | nil => simp at h1
      | cons b bs =>
        have hb : m.read a = some b := h2 0 (Nat.succ_pos _)
        have hbs : m.readBytes (a + 1) n = some bs := by
          refine (ih _ _).mpr ⟨by simpa using h1, fun i hi => ?_⟩
          have := h2 (i + 1) (by simpa using hi)
          simpa [Nat.add_assoc, Nat.add_comm 1] using this
        rw [hb, hbs]

theorem readBytes_length {m : Memory} {a n : Nat} {u : List Byte} (h : m.readBytes a n = some u) : u.length = n :=
  ((readBytes_eq_some m a n u).mp h).1

/-- Loading a region that BUF holds. -/
theorem load_of_holds {s : State} {a n : Nat} {u : List Byte} (hn : u.length = n) (h : Holds s a u) :
    s.mem.load ⟨a, n⟩ = .ok u := by
  unfold Memory.load
  rw [(readBytes_eq_some s.mem a n u).mpr ⟨hn, h⟩]

/-- What a load can do: the bytes BUF holds, or the refusal of an unwritten byte. -/
theorem load_cases (m : Memory) (r : Region) :
    (∃ u, m.load r = .ok u ∧ u.length = r.len ∧ ∀ i (h : i < u.length), m.read (r.start + i) = some u[i]) ∨
    m.load r = .error (.refuse .unwrittenByte) := by
  unfold Memory.load
  cases h : m.readBytes r.start r.len with
  | none => exact .inr rfl
  | some u => exact .inl ⟨u, rfl, (readBytes_eq_some _ _ _ _).mp h⟩

theorem load_ok {m : Memory} {r : Region} {u : List Byte} (h : m.load r = .ok u) :
    u.length = r.len ∧ ∀ i (h : i < u.length), m.read (r.start + i) = some u[i] := by
  rcases load_cases m r with ⟨v, hv, h1⟩ | hv
  · rw [hv] at h; cases h; exact h1
  · rw [hv] at h; cases h

theorem loadEach_ok {m : Memory} {rs : List Region} {us : List (List Byte)} (h : m.loadEach rs = .ok us) :
    us.map List.length = rs.map Region.len := by
  induction rs generalizing us with
  | nil => simp only [Memory.loadEach, Except.ok.injEq] at h; subst h; rfl
  | cons r rs ih =>
    simp only [Memory.loadEach] at h
    cases h1 : m.load r with
    | error e => rw [h1] at h; cases h
    | ok u =>
      cases h2 : m.loadEach rs with
      | error e => rw [h1, h2] at h; cases h
      | ok vs =>
        rw [h1, h2] at h
        cases h
        simp [ih h2, (load_ok h1).1]

/-- Loading a region with an unwritten byte is refused. -/
theorem load_unwritten {m : Memory} {r : Region} (h : ∃ i, i < r.len ∧ m.read (r.start + i) = none) :
    m.load r = .error (.refuse .unwrittenByte) := by
  rcases load_cases m r with ⟨u, -, h2, h3⟩ | h1
  · obtain ⟨i, hi, hn⟩ := h
    have := h3 i (by rw [h2]; exact hi)
    rw [hn] at this
    cases this
  · exact h1

theorem loadEach_unwritten {m : Memory} {rs : List Region}
    (h : ∃ r ∈ rs, ∃ i, i < r.len ∧ m.read (r.start + i) = none) :
    m.loadEach rs = .error (.refuse .unwrittenByte) := by
  induction rs with
  | nil => obtain ⟨r, hr, -⟩ := h; cases hr
  | cons r rs ih =>
    obtain ⟨r', hr, hi⟩ := h
    unfold Memory.loadEach
    rcases load_cases m r with ⟨u, h1, -⟩ | h1
    · rcases List.mem_cons.mp hr with rfl | hr
      · rw [load_unwritten hi] at h1; cases h1
      · rw [h1, ih ⟨r', hr, hi⟩]; rfl
    · rw [h1]; rfl

end Sys2Proof.Machine
end

