-- ==== Sys2Proof/Laws/Ops.lean ====
section
/-! SUPPORT. One lemma for each shared operation that says everything it can do: the checks, the loads, the `finish…`
operations with which a command ends, and the region tests. -/

namespace Sys2Proof.Machine

/-! ### Checks -/

@[simp] theorem demand_true (e : ErrorCode) : demand true e = .ok () := rfl
@[simp] theorem demand_false (e : ErrorCode) : demand false e = .error (.raised e) := rfl

theorem demand_cases (c : Bool) (e : ErrorCode) :
    (c = true ∧ demand c e = .ok ()) ∨ (c = false ∧ demand c e = .error (.raised e)) := by
  cases c <;> simp

@[simp] theorem inside_iff (r : Region) (n : Nat) : r.inside n = true ↔ r.len = 0 ∨ r.start + r.len ≤ n := by
  simp [Region.inside]

theorem demandInside_ok {s : State} {a n : Nat} (h : Inside s a n) : s.demandInside ⟨a, n⟩ = .ok () := by
  have : (Region.mk a n).inside s.memSize = true := (inside_iff _ _).mpr h
  simp [State.demandInside, this]

theorem demandInside_bus {s : State} {a n : Nat} (h : ¬ Inside s a n) :
    s.demandInside ⟨a, n⟩ = .error (.raised .busError) := by
  have : (Region.mk a n).inside s.memSize = false := by
    rw [Bool.eq_false_iff]; exact fun h' => h ((inside_iff _ _).mp h')
  simp [State.demandInside, this]

theorem demandInside_cases (s : State) (r : Region) :
    ((r.len = 0 ∨ r.start + r.len ≤ s.memSize) ∧ s.demandInside r = .ok ()) ∨
    (¬ (r.len = 0 ∨ r.start + r.len ≤ s.memSize) ∧ s.demandInside r = .error (.raised .busError)) := by
  rcases demand_cases (r.inside s.memSize) .busError with ⟨h, h'⟩ | ⟨h, h'⟩
  · exact .inl ⟨(inside_iff _ _).mp h, h'⟩
  · exact .inr ⟨fun h2 => absurd ((inside_iff _ _).mpr h2) (by simp [h]), h'⟩

theorem overlaps_eq_false_iff (a n b m : Nat) : (Region.mk a n).overlaps ⟨b, m⟩ = false ↔ Apart a n b m := by
  rw [Bool.eq_false_iff]
  simp only [Region.overlaps, Bool.and_eq_true, bne_iff_ne, ne_eq, decide_eq_true_eq, Apart]
  omega

/-- Two regions are apart exactly when they share no byte (20_memory.md R46). -/
theorem apart_iff_no_common_byte (a n b m : Nat) :
    Apart a n b m ↔ ∀ x, ¬ ((a ≤ x ∧ x < a + n) ∧ (b ≤ x ∧ x < b + m)) := by
  constructor
  · intro h x
    omega
  · intro h
    have := h (max a b)
    omega

theorem apartFrom_iff (rs ts : List Region) :
    apartFrom rs ts = true ↔ ∀ r ∈ rs, ∀ t ∈ ts, Apart r.start r.len t.start t.len := by
  simp only [apartFrom, List.all_eq_true, Bool.not_eq_eq_eq_not, Bool.not_true]
  exact ⟨fun h r hr t ht => (overlaps_eq_false_iff _ _ _ _).mp (h r hr t ht),
    fun h r hr t ht => (overlaps_eq_false_iff r.start r.len t.start t.len).mpr (h r hr t ht)⟩

theorem pairwiseApart_iff (rs : List Region) :
    pairwiseApart rs = true ↔ rs.Pairwise fun a b => Apart a.start a.len b.start b.len := by
  induction rs with
  | nil => simp [pairwiseApart]
  | cons r rs ih => simp [pairwiseApart, apartFrom_iff, ih]

theorem noClash_iff (ws rs : List Region) :
    noClash ws rs = true ↔ (ws.Pairwise fun a b => Apart a.start a.len b.start b.len) ∧
      ∀ w ∈ ws, ∀ r ∈ rs, Apart w.start w.len r.start r.len := by
  simp [noClash, pairwiseApart_iff, apartFrom_iff]

theorem demandNoClash_cases (ws rs : List Region) :
    (noClash ws rs = true ∧ demandNoClash ws rs = .ok ()) ∨
    (noClash ws rs = false ∧ demandNoClash ws rs = .error (.refuse .overlappingRegions)) := by
  unfold demandNoClash
  cases noClash ws rs <;> simp

theorem demandNoClash_ok {ws rs : List Region} (h : noClash ws rs = true) : demandNoClash ws rs = .ok () := by
  simp [demandNoClash, h]

theorem demandNoClash_refused {ws rs : List Region}
    (h : ¬ ((ws.Pairwise fun a b => Apart a.start a.len b.start b.len) ∧
      ∀ w ∈ ws, ∀ r ∈ rs, Apart w.start w.len r.start r.len)) :
    demandNoClash ws rs = .error (.refuse .overlappingRegions) := by
  rcases demandNoClash_cases ws rs with ⟨h1, -⟩ | ⟨-, h1⟩
  · exact absurd ((noClash_iff ws rs).mp h1) h
  · exact h1

theorem needCodec_cases (s : State) :
    (∃ c, s.codec = some c ∧ s.needCodec = .ok c) ∨ (s.codec = none ∧ s.needCodec = .error (.raised .noCodec)) := by
  unfold State.needCodec
  cases s.codec <;> simp

/-! ### Sequencing -/

@[simp] theorem ok_bind {α β : Type} (v : α) (f : α → Except Halt β) : (Except.ok v >>= f) = f v := rfl
@[simp] theorem error_bind {α β : Type} (h : Halt) (f : α → Except Halt β) :
    ((Except.error h : Except Halt α) >>= f) = .error h := rfl

/-- A sequence succeeds exactly when its first part does and the rest then does. -/
theorem bind_eq_ok {α β : Type} (r : Except Halt α) (f : α → Except Halt β) (v : β) :
    (r >>= f) = .ok v ↔ ∃ u, r = .ok u ∧ f u = .ok v := by
  cases r <;> simp

theorem demand_eq_ok (c : Bool) (e : ErrorCode) (u : Unit) : demand c e = .ok u ↔ c = true := by
  cases c <;> simp

theorem demandInside_eq_ok (s : State) (r : Region) (u : Unit) :
    s.demandInside r = .ok u ↔ r.len = 0 ∨ r.start + r.len ≤ s.memSize := by
  rw [State.demandInside, demand_eq_ok, inside_iff]

theorem demandAllInside_eq_ok (s : State) (rs : List Region) (u : Unit) :
    s.demandAllInside rs = .ok u ↔ ∀ r ∈ rs, r.len = 0 ∨ r.start + r.len ≤ s.memSize := by
  rw [State.demandAllInside, demand_eq_ok]
  simp

theorem needCodec_eq_ok (s : State) (c : Codec) : s.needCodec = .ok c ↔ s.codec = some c := by
  rcases needCodec_cases s with ⟨d, h1, h2⟩ | ⟨h1, h2⟩ <;> simp [h1, h2]

/-! ### How a command ends -/

theorem halt_cases (s : State) (i : Instr) (h : Halt) :
    (∃ e, h = .raised e ∧ s.halt i h = .next (s.raise (encode i) e)) ∨
    (∃ r, h = .refuse r ∧ s.halt i h = .refused r) := by
  cases h <;> simp [State.halt]

/-- Everything `finishReg` can answer as a next state. -/
theorem finishReg_next {s t : State} {i : Instr} {rd : Reg} {r : Except Halt Word}
    (h : s.finishReg i rd r = .next t) :
    (∃ v, r = .ok v ∧ t = (s.setReg rd v).complete) ∨
    (∃ e, r = .error (.raised e) ∧ t = s.raise (encode i) e) := by
  cases r with
  | ok v => exact .inl ⟨v, rfl, by simpa [State.finishReg] using h.symm⟩
  | error e => cases e <;> simp [State.finishReg, State.halt] at h ⊢; exact h.symm

theorem finishMem_next {s t : State} {i : Instr} {r : Except Halt Memory} (h : s.finishMem i r = .next t) :
    (∃ m, r = .ok m ∧ t = { s with mem := m }.complete) ∨
    (∃ e, r = .error (.raised e) ∧ t = s.raise (encode i) e) := by
  cases r with
  | ok m => exact .inl ⟨m, rfl, by simpa [State.finishMem] using h.symm⟩
  | error e => cases e <;> simp [State.finishMem, State.halt] at h ⊢; exact h.symm

theorem finishPart_next {s t : State} {i : Instr} {r : Except Halt (Memory × Option ErrorCode)}
    (h : s.finishPart i r = .next t) :
    (∃ m, r = .ok (m, none) ∧ t = { s with mem := m }.complete) ∨
    (∃ m e, r = .ok (m, some e) ∧ t = { s with mem := m }.raise (encode i) e) ∨
    (∃ e, r = .error (.raised e) ∧ t = s.raise (encode i) e) := by
  cases r with
  | ok p =>
    obtain ⟨m, o⟩ := p
    cases o with
    | none => exact .inl ⟨m, rfl, by simpa [State.finishPart] using h.symm⟩
    | some e => exact .inr (.inl ⟨m, e, rfl, by simpa [State.finishPart] using h.symm⟩)
  | error e => cases e <;> simp [State.finishPart, State.halt] at h ⊢; exact h.symm

theorem finishDiv_next {s t : State} {i : Instr} {r : Except Halt (Memory × Nat × Nat)}
    (h : s.finishDiv i r = .next t) :
    (∃ m l0 l1, r = .ok (m, l0, l1) ∧
      t = { s with mem := m, len0 := BitVec.ofNat 32 l0, len1 := BitVec.ofNat 32 l1 }.complete) ∨
    (∃ e, r = .error (.raised e) ∧ t = s.raise (encode i) e) := by
  cases r with
  | ok p => exact .inl ⟨p.1, p.2.1, p.2.2, rfl, by simpa [State.finishDiv] using h.symm⟩
  | error e => cases e <;> simp [State.finishDiv, State.halt] at h ⊢; exact h.symm

theorem finishCodec_next {s t : State} {i : Instr} {r : Except Halt Codec} (h : s.finishCodec i r = .next t) :
    (∃ c, r = .ok c ∧ t = { s with codec := some c }.complete) ∨
    (∃ e, r = .error (.raised e) ∧ t = s.raise (encode i) e) := by
  cases r with
  | ok c => exact .inl ⟨c, rfl, by simpa [State.finishCodec] using h.symm⟩
  | error e => cases e <;> simp [State.finishCodec, State.halt] at h ⊢; exact h.symm

/-! ### The ends in the terms of the claims -/

theorem complete_endsOk (s : State) : EndsOk s s.complete := ⟨⟨rfl, rfl, rfl⟩, rfl, rfl⟩

theorem regDone_of (s : State) (rd : Reg) (v : Word) : RegDone s (s.setReg rd v).complete rd v where
  toEndsOk := ⟨⟨rfl, rfl, rfl⟩, rfl, rfl⟩
  toLatchKept := ⟨rfl, rfl, rfl, rfl⟩
  value := reg_setReg_same s rd v
  others := fun _ h => reg_setReg_other s h v
  codec := rfl
  mem := rfl
  len0 := rfl
  len1 := rfl

theorem memDone_of (s : State) (m : Memory) (w : Nat → Option Byte) (h : ∀ a, m.read a = w a) :
    MemDone s { s with mem := m }.complete w where
  toEndsOk := ⟨⟨rfl, rfl, rfl⟩, rfl, rfl⟩
  toLatchKept := ⟨rfl, rfl, rfl, rfl⟩
  regs := fun _ => rfl
  codec := rfl
  len0 := rfl
  len1 := rfl
  bytes := h

theorem raised_of (s : State) (m : Memory) (w : Word) (e : ErrorCode) : Raised s ({ s with mem := m }.raise w e) w e where
  toPortsKept := ⟨rfl, rfl, rfl⟩
  response := rfl
  err := rfl
  ecmd := rfl
  eseq := rfl
  errs := rfl
  cseq := rfl
  regs := fun _ => rfl
  codec := rfl
  len0 := rfl
  len1 := rfl

theorem raised_clean (s : State) (w : Word) (e : ErrorCode) : Raised s (s.raise w e) w e := raised_of s s.mem w e

theorem code_ne_ok (e : ErrorCode) : e.code ≠ codeOk := by cases e <;> decide

theorem code_mem_errorCodes (e : ErrorCode) : e.code ∈ errorCodes := by cases e <;> decide

end Sys2Proof.Machine
end

