-- ==== Sys2Proof/Laws/ShareList.lean ====
section
/-! SUPPORT. Share lists and the front end of the share-list commands (45_encode_rebuild.md R143): an entry and its
bytes, the sort, what the front end can answer, and the fragments that are read and stored. -/

namespace Sys2Proof.Machine

/-! ### Entries and their bytes -/

@[simp] theorem length_leBytes (n v : Nat) : (leBytes n v).length = n := by
  induction n generalizing v with
  | zero => rfl
  | succ n ih => simp [leBytes, ih]

theorem leValue_leBytes (n v : Nat) : leValue (leBytes n v) = v % 256 ^ n := by
  induction n generalizing v with
  | zero => simp [leBytes, leValue, Nat.mod_one]
  | succ n ih =>
    simp only [leBytes, leValue, ih, BitVec.toNat_ofNat]
    rw [Nat.pow_succ 256 n, Nat.mul_comm (256 ^ n) 256, Nat.mod_mul]

theorem leValue_lt (bs : List Byte) : leValue bs < 256 ^ bs.length := by
  induction bs with
  | nil => simp [leValue]
  | cons b bs ih =>
    have := b.isLt
    simp only [leValue, List.length_cons, Nat.pow_succ]
    omega

theorem length_toBytes {e : Share} (h : e.Fits) : e.toBytes.length = 8 := by
  simp [Share.toBytes, h.2.1]

/-- The bytes of an entry stand for it (20_memory.md R56). -/
theorem ofBytes_toBytes {e : Share} (h : e.Fits) : Share.ofBytes e.toBytes = e := by
  obtain ⟨h1, h2, h3⟩ := h
  have e1 : e.toBytes.take 2 = leBytes 2 e.num := by
    rw [Share.toBytes, List.append_assoc, List.take_left' (by simp)]
  have e2 : (e.toBytes.drop 2).take 2 = e.reserved := by
    rw [Share.toBytes, List.append_assoc, List.drop_left' (by simp), List.take_left' h2]
  have e3 : e.toBytes.drop 4 = leBytes 4 e.addr := by
    rw [Share.toBytes, List.drop_left' (by simp [h2])]
  rw [Share.ofBytes, e1, e2, e3, leValue_leBytes, leValue_leBytes, Nat.mod_eq_of_lt (by simpa using h1),
    Nat.mod_eq_of_lt (by simpa using h3)]

theorem ofBytes_fits {bs : List Byte} (h : bs.length = 8) : (Share.ofBytes bs).Fits := by
  refine ⟨?_, ?_, ?_⟩
  · have := leValue_lt (bs.take 2)
    simpa [h, Share.ofBytes] using this
  · simp [Share.ofBytes, h]
  · have := leValue_lt (bs.drop 4)
    simpa [h, Share.ofBytes] using this

theorem length_listBytes {es : List Share} (h : ∀ e ∈ es, e.Fits) : (listBytes es).length = 8 * es.length := by
  induction es with
  | nil => rfl
  | cons e es ih =>
    have h1 := length_toBytes (h e List.mem_cons_self)
    have h2 := ih fun x hx => h x (List.mem_cons_of_mem _ hx)
    simp only [listBytes, List.map_cons, List.flatten_cons, List.length_append, List.length_cons] at h2 ⊢
    omega

@[simp] theorem length_parseShares (cnt : Nat) (bs : List Byte) : (parseShares cnt bs).length = cnt := by
  simp [parseShares]

theorem parseShares_fits {cnt : Nat} {bs : List Byte} (h : bs.length = 8 * cnt) : ∀ e ∈ parseShares cnt bs, e.Fits := by
  intro e he
  simp only [parseShares, List.mem_map, List.mem_range] at he
  obtain ⟨t, ht, rfl⟩ := he
  refine ofBytes_fits ?_
  simp [h]; omega

/-- A list read back from its bytes. -/
theorem parseShares_listBytes {es : List Share} (h : ∀ e ∈ es, e.Fits) : parseShares es.length (listBytes es) = es := by
  induction es with
  | nil => rfl
  | cons e es ih =>
    have h1 := length_toBytes (h e List.mem_cons_self)
    have h2 := ih fun x hx => h x (List.mem_cons_of_mem _ hx)
    simp only [parseShares, listBytes, List.length_cons, List.map_cons, List.flatten_cons, List.range_succ_eq_map,
      List.map_map, List.cons.injEq] at h2 ⊢
    refine ⟨?_, ?_⟩
    · rw [Nat.mul_zero, List.drop_zero, List.take_left' h1]
      exact ofBytes_toBytes (h e List.mem_cons_self)
    · conv_rhs => rw [← h2]
      refine List.map_congr_left fun t _ => ?_
      have : 8 * (t + 1) = e.toBytes.length + 8 * t := by rw [h1]; omega
      simp only [Function.comp_apply, Nat.succ_eq_add_one, this]
      rw [List.drop_append, List.drop_eq_nil_of_le (Nat.le_add_right _ _), Nat.add_sub_cancel_left, List.nil_append]

/-! ### The sort -/

theorem insertShare_perm (e : Share) (ts : List Share) : (insertShare e ts).Perm (e :: ts) := by
  induction ts with
  | nil => exact List.Perm.refl _
  | cons t ts ih =>
    unfold insertShare
    split
    · exact List.Perm.refl _
    · exact (ih.cons t).trans (List.Perm.swap e t ts)

theorem sortShares_perm (es : List Share) : (sortShares es).Perm es := by
  induction es with
  | nil => exact List.Perm.refl _
  | cons e es ih => exact (insertShare_perm e _).trans (ih.cons e)

theorem insertShare_sorted (e : Share) (ts : List Share) (h : ts.Pairwise fun a b => a.num ≤ b.num) :
    (insertShare e ts).Pairwise fun a b => a.num ≤ b.num := by
  induction ts with
  | nil => simp [insertShare]
  | cons t ts ih =>
    rw [List.pairwise_cons] at h
    unfold insertShare
    split
    · next h1 =>
      refine List.pairwise_cons.mpr ⟨fun x hx => ?_, List.pairwise_cons.mpr h⟩
      rcases List.mem_cons.mp hx with rfl | hx
      · exact h1
      · exact Nat.le_trans h1 (h.1 x hx)
    · next h1 =>
      refine List.pairwise_cons.mpr ⟨fun x hx => ?_, ih h.2⟩
      rcases List.mem_cons.mp ((insertShare_perm e ts).mem_iff.mp hx) with rfl | hx
      · omega
      · exact h.1 x hx

theorem sortShares_sorted (es : List Share) : (sortShares es).Pairwise fun a b => a.num ≤ b.num := by
  induction es with
  | nil => exact List.Pairwise.nil
  | cons e es ih => exact insertShare_sorted e _ ih

theorem distinctNumbers_iff (es : List Share) : distinctNumbers es = true ↔ (es.map (·.num)).Nodup := by
  induction es with
  | nil => simp [distinctNumbers]
  | cons e es ih =>
    simp only [distinctNumbers, Bool.and_eq_true, List.all_eq_true, bne_iff_ne, ne_eq, ih, List.map_cons,
      List.nodup_cons, List.mem_map, not_exists, not_and]

theorem ascending_nodup {es : List Share} (h : es.Pairwise fun a b => a.num < b.num) : (es.map (·.num)).Nodup := by
  rw [List.Nodup, List.pairwise_map]
  exact h.imp fun h => Nat.ne_of_lt h

/-- The sort of a list with distinct numbers is ascending. -/
theorem sortShares_ascending {es : List Share} (h : distinctNumbers es = true) :
    (sortShares es).Pairwise fun a b => a.num < b.num := by
  have h1 : ((sortShares es).map (·.num)).Nodup :=
    ((sortShares_perm es).map _).nodup_iff.mpr ((distinctNumbers_iff es).mp h)
  rw [List.Nodup, List.pairwise_map] at h1
  exact ((sortShares_sorted es).and h1).imp fun h => Nat.lt_of_le_of_ne h.1 h.2

/-- The result of the sort is unique (R143 note (b)). -/
theorem sortShares_eq {es sorted : List Share} (h : sorted.Perm es) (h' : sorted.Pairwise fun a b => a.num < b.num) :
    sortShares es = sorted := by
  have hd : distinctNumbers es = true :=
    (distinctNumbers_iff es).mpr ((h.map _).nodup_iff.mp (ascending_nodup h'))
  exact List.Perm.eq_of_pairwise (fun a b _ _ h1 h2 => absurd h1 (Nat.lt_asymm h2))
    (sortShares_ascending hd) h' ((sortShares_perm es).trans h.symm)

/-! ### The front end -/

/-- Everything the checks and the sort give when they pass (R143, F1 to F7). -/
theorem sortList_ok {s : State} {a : ListOperands} {outs : Codec → List Region} {L : Listed}
    (h : sortList s a outs = .ok L) :
    s.codec = some L.codec ∧ L.codec.k ≤ a.cnt ∧ (8 * a.cnt = 0 ∨ a.sl + 8 * a.cnt ≤ s.memSize) ∧
    (∀ r ∈ outs L.codec, r.len = 0 ∨ r.start + r.len ≤ s.memSize) ∧ L.shares.length = a.cnt ∧
    (∀ e ∈ L.shares, e.Fits) ∧ (L.shares.Pairwise fun a b => a.num < b.num) ∧
    L.mem = s.mem.writeBytes a.sl (listBytes L.shares) := by
  simp only [sortList, bind_eq_ok, needCodec_eq_ok, demand_eq_ok, demandInside_eq_ok, demandAllInside_eq_ok,
    decide_eq_true_eq] at h
  obtain ⟨c, hc, -, hk, -, -, -, hi, -, ho, bytes, hb, h⟩ := h
  split at h
  · next hd =>
    cases h
    have hl := (load_ok hb).1
    exact ⟨hc, hk, hi, ho, by rw [(sortShares_perm _).length_eq]; simp,
      fun e he => parseShares_fits hl e ((sortShares_perm _).mem_iff.mp he), sortShares_ascending hd, rfl⟩
  · cases h

/-- The checks and the sort pass on a good list. -/
theorem sortList_good {s : State} {c : Codec} {es sorted : List Share} {a : ListOperands} {outs : Codec → List Region}
    (h : GoodList s c a.sl a.cnt es sorted (outs c)) (hp : positionLegal a.bs a.pos = true) :
    sortList s a outs = .ok ⟨c, sorted, s.mem.writeBytes a.sl (listBytes sorted)⟩ := by
  have h1 : s.needCodec = .ok c := (needCodec_eq_ok s c).mpr h.codec
  have h2 : s.demandInside (listRegion a.sl a.cnt) = .ok () := demandInside_ok h.inside
  have h3 : s.demandAllInside (outs c) = .ok () := (demandAllInside_eq_ok s _ _).mpr h.outsInside
  have h4 : s.mem.load (listRegion a.sl a.cnt) = .ok (listBytes es) :=
    load_of_holds (by rw [length_listBytes h.fits, h.count]) h.held
  have h5 : parseShares a.cnt (listBytes es) = es := by
    rw [← h.count]; exact parseShares_listBytes h.fits
  have h6 : sortShares es = sorted := sortShares_eq h.sameEntries h.ascending
  have h7 : distinctNumbers es = true :=
    (distinctNumbers_iff es).mpr ((h.sameEntries.map _).nodup_iff.mp (ascending_nodup h.ascending))
  simp only [sortList, h1, ok_bind, h.enough, decide_true, demand_true, hp, h2, h3, h4, h5, h7, if_true, h6]
  rfl

/-- The errors with which the checks before the sort can end (R143, F1 to F5). -/
theorem sortList_raised {s : State} {a : ListOperands} {outs : Codec → List Region} {e : ErrorCode}
    (h : sortList s a outs = .error (.raised e)) :
    e = .noCodec ∨ e = .insufficientShares ∨ e = .operandRange ∨ e = .busError := by
  unfold sortList at h
  rcases needCodec_cases s with ⟨c, -, h1⟩ | ⟨-, h1⟩ <;> rw [h1] at h
  · simp only [ok_bind] at h
    rcases demand_cases (decide (c.k ≤ a.cnt)) .insufficientShares with ⟨-, h2⟩ | ⟨-, h2⟩ <;> rw [h2] at h
    · rcases demand_cases (positionLegal a.bs a.pos) .operandRange with ⟨-, h3⟩ | ⟨-, h3⟩ <;>
        simp only [ok_bind, h3] at h
      · rcases demandInside_cases s (listRegion a.sl a.cnt) with ⟨-, h4⟩ | ⟨-, h4⟩ <;> simp only [ok_bind, h4] at h
        · rcases demand_cases ((outs c).all (·.inside s.memSize)) .busError with ⟨-, h5⟩ | ⟨-, h5⟩ <;>
            simp only [State.demandAllInside, ok_bind, h5] at h
          · rcases load_cases s.mem (listRegion a.sl a.cnt) with ⟨u, h6, -⟩ | h6 <;> simp only [ok_bind, h6] at h
            · split at h <;> cases h
            · cases h
          · cases h; simp
        · cases h; simp
      · cases h; simp
    · cases h; simp
  · cases h; simp

theorem listError_eq (s : State) (a : ListOperands) (L : Listed) (e : ErrorCode) (h : listError s a L = some e) :
    e = .invalidShareId ∨ e = .busError := by
  unfold listError at h
  split at h
  · cases h; exact .inl rfl
  · split at h
    · cases h
    · cases h; exact .inr rfl

/-- Everything a share-list command can do before its own work (R143): a check fails before the sort; one fails after it,
the list sorted; or the work begins, on disjoint regions. -/
theorem withList_cases (s : State) (a : ListOperands) (outs : Codec → List Region)
    (work : Listed → Except Halt (Memory × Option ErrorCode)) :
    (∃ h, sortList s a outs = .error h ∧ withList s a outs work = .error h) ∨
    ∃ L, sortList s a outs = .ok L ∧
      ((∃ e, listError s a L = some e ∧ withList s a outs work = .ok (L.mem, some e)) ∨
       (listError s a L = none ∧ listApart a outs L = false ∧
        withList s a outs work = .error (.refuse .overlappingRegions)) ∨
       (listError s a L = none ∧ listApart a outs L = true ∧ withList s a outs work = work L)) := by
  unfold withList
  cases hs : sortList s a outs with
  | error h => exact .inl ⟨h, rfl, rfl⟩
  | ok L =>
    refine .inr ⟨L, rfl, ?_⟩
    simp only [ok_bind]
    cases hl : listError s a L with
    | some e => exact .inl ⟨e, rfl, rfl⟩
    | none =>
      cases ha : listApart a outs L with
      | false => exact .inr (.inl ⟨rfl, rfl, by simp⟩)
      | true => exact .inr (.inr ⟨rfl, rfl, by simp⟩)

theorem listError_none {s : State} {a : ListOperands} {L : Listed} (h : listError s a L = none) :
    (∀ e ∈ L.shares, e.num < L.codec.n) ∧
    ∀ r ∈ dataRegions a.bs L.shares, r.len = 0 ∨ r.start + r.len ≤ s.memSize := by
  unfold listError at h
  split at h
  · cases h
  · next h1 =>
    split at h
    · next h2 =>
      refine ⟨fun e he => ?_, fun r hr => ?_⟩
      · simp only [List.any_eq_true, decide_eq_true_eq, not_exists, not_and, Nat.not_le] at h1
        exact h1 e he
      · simp only [List.all_eq_true] at h2
        exact (inside_iff _ _).mp (h2 r hr)
    · cases h

/-! ### Fragments -/

/-- What the fragments of the sorted list are when they are read (R143 note (g)). -/
theorem loadFragments_ok {L : Listed} {bs : Nat} {S : List Fragment} (h : loadFragments L bs = .ok S) :
    S.map (fun f => (f.num, f.addr)) = L.shares.map (fun e => (e.num, e.addr)) ∧ ∀ f ∈ S, f.data.length = bs := by
  obtain ⟨c, es, m⟩ := L
  simp only [loadFragments, bind_eq_ok] at h
  obtain ⟨datas, hd, h⟩ := h
  cases h
  have hl := loadEach_ok hd
  clear hd
  simp only [List.map_map] at hl ⊢
  induction es generalizing datas with
  | nil => simp
  | cons e es ih =>
    cases datas with
    | nil => simp at hl
    | cons d ds =>
      simp only [List.map_cons, List.cons.injEq] at hl
      obtain ⟨h1, h2⟩ := ih ds hl.2
      refine ⟨by simp only [List.zipWith_cons_cons, List.map_cons, h1], fun f hf => ?_⟩
      simp only [List.zipWith_cons_cons, List.mem_cons] at hf
      rcases hf with rfl | hf
      · exact hl.1
      · exact h2 f hf

theorem read_storeFragments (m : Memory) (S : List Fragment) (x : Nat) :
    (storeFragments m S).read x = dataStored m.read S x := by
  induction S generalizing m with
  | nil => rfl
  | cons f S ih =>
    have : (m.writeBytes f.addr f.data).read = storedInto m.read f.addr f.data :=
      funext fun y => read_writeBytes m f.addr y f.data
    rw [storeFragments, ih, this, dataStored]

theorem wf_storeFragments (m : Memory) (S : List Fragment) (h : m.wf = true) : (storeFragments m S).wf = true := by
  induction S generalizing m with
  | nil => exact h
  | cons f S ih => exact ih _ (wf_writeBytes m _ _ h)

theorem within_storeFragments (m : Memory) (n : Nat) (S : List Fragment) (h : m.within n = true)
    (hS : ∀ f ∈ S, f.data.length = 0 ∨ f.addr + f.data.length ≤ n) : (storeFragments m S).within n = true := by
  induction S generalizing m with
  | nil => exact h
  | cons f S ih =>
    exact ih _ (within_writeBytes m _ n _ h (hS f List.mem_cons_self)) fun g hg => hS g (List.mem_cons_of_mem _ hg)

/-! ### Good lists -/

/-- The front end hands a good list with good numbers and disjoint regions to the command's work. -/
theorem withList_work {s : State} {c : Codec} {es sorted : List Share} {a : ListOperands} {outs : Codec → List Region}
    (work : Listed → Except Halt (Memory × Option ErrorCode)) (h : GoodList s c a.sl a.cnt es sorted (outs c))
    (hp : positionLegal a.bs a.pos = true) (hn : GoodNumbers c sorted)
    (hi : ∀ r ∈ dataRegions a.bs sorted, r.len = 0 ∨ r.start + r.len ≤ s.memSize)
    (ha : (dataRegions a.bs sorted ++ outs c ++ [listRegion a.sl a.cnt]).Pairwise fun a b =>
      Apart a.start a.len b.start b.len) :
    withList s a outs work = work ⟨c, sorted, s.mem.writeBytes a.sl (listBytes sorted)⟩ := by
  have h1 : (sorted.any fun e => decide (c.n ≤ e.num)) = false := by
    simp only [List.any_eq_false, decide_eq_true_eq, Nat.not_le]
    exact hn
  have h2 : (dataRegions a.bs sorted).all (·.inside s.memSize) = true := by
    simp only [List.all_eq_true, inside_iff]
    exact hi
  have h3 : listError s a ⟨c, sorted, s.mem.writeBytes a.sl (listBytes sorted)⟩ = none := by
    simp only [listError, h1, h2, if_true]
    rfl
  have h4 : listApart a outs ⟨c, sorted, s.mem.writeBytes a.sl (listBytes sorted)⟩ = true :=
    (pairwiseApart_iff _).mpr ha
  simp only [withList, sortList_good h hp, ok_bind, h3, h4, if_true]

/-- The front end ends a good list with a number of N or above in InvalidShareId, the list sorted (R143, F8). -/
theorem withList_badNumbers {s : State} {c : Codec} {es sorted : List Share} {a : ListOperands}
    {outs : Codec → List Region} (work : Listed → Except Halt (Memory × Option ErrorCode))
    (h : GoodList s c a.sl a.cnt es sorted (outs c)) (hp : positionLegal a.bs a.pos = true)
    (hn : ¬ GoodNumbers c sorted) :
    withList s a outs work = .ok (s.mem.writeBytes a.sl (listBytes sorted), some .invalidShareId) := by
  have h1 : (sorted.any fun e => decide (c.n ≤ e.num)) = true := by
    by_contra h0
    rw [Bool.not_eq_true, List.any_eq_false] at h0
    exact hn fun e he => by simpa using h0 e he
  have h3 : listError s a ⟨c, sorted, s.mem.writeBytes a.sl (listBytes sorted)⟩ = some .invalidShareId := by
    simp only [listError, h1, if_true]
  simp only [withList, sortList_good h hp, ok_bind, h3]

/-- Reading BUF after the sorted list is written back. -/
theorem read_sortedList (s : State) (sl : Nat) (sorted : List Share) (x : Nat) :
    (s.mem.writeBytes sl (listBytes sorted)).read x = sortedList s sl sorted x := read_writeBytes _ _ _ _

theorem GoodData.dataRegions_eq {s : State} {sl cnt bs : Nat} {sorted : List Share} {outs : List Region}
    {S : List Fragment} (h : GoodData s sl cnt bs sorted outs S) :
    dataRegions (some bs) sorted = S.map fun f => ⟨f.addr, bs⟩ := by
  have h1 := congrArg (List.map fun p : Nat × Nat => Region.mk p.2 bs) h.shares
  rw [List.map_map, List.map_map] at h1
  exact h1.symm

/-- The fragments that are read are the good data's: the sorted list lies apart from them. -/
theorem loadFragments_good {s : State} {c : Codec} {sl cnt bs : Nat} {sorted : List Share} {outs : List Region}
    {S : List Fragment} (h : GoodData s sl cnt bs sorted outs S) (hl : (listBytes sorted).length = 8 * cnt) :
    loadFragments ⟨c, sorted, s.mem.writeBytes sl (listBytes sorted)⟩ bs = .ok S := by
  have hd := h.dataRegions_eq
  simp only [dataRegions] at hd
  have ha : ∀ f ∈ S, Apart f.addr bs sl (8 * cnt) := by
    intro f hf
    have h2 := (List.pairwise_append.mp h.apart).2.2 ⟨f.addr, bs⟩
      (List.mem_append_left _ (List.mem_map.mpr ⟨f, hf, rfl⟩)) _ (List.mem_singleton.mpr rfl)
    exact h2
  have hr : ∀ f ∈ S, (s.mem.writeBytes sl (listBytes sorted)).load ⟨f.addr, bs⟩ = .ok f.data := by
    intro f hf
    have h3 := h.length f hf
    have h4 : ∀ i (hi : i < f.data.length),
        (s.mem.writeBytes sl (listBytes sorted)).read (f.addr + i) = some f.data[i] := by
      intro i hi
      rw [read_writeBytes, storedInto, if_neg, h.held f hf i hi]
      have := ha f hf
      simp only [Apart] at this
      omega
    unfold Memory.load
    rw [(readBytes_eq_some _ _ _ _).mpr ⟨h3, h4⟩]
  have he : (s.mem.writeBytes sl (listBytes sorted)).loadEach (S.map fun f => ⟨f.addr, bs⟩) = .ok (S.map (·.data)) := by
    clear hd ha h
    induction S with
    | nil => rfl
    | cons f S ih =>
      simp only [List.map_cons, Memory.loadEach, hr f List.mem_cons_self, ok_bind,
        ih fun g hg => hr g (List.mem_cons_of_mem _ hg)]
  simp only [loadFragments, hd, he, ok_bind]
  have hz := h.shares
  clear hd ha hr he h hl
  congr 1
  induction sorted generalizing S with
  | nil => cases S <;> simp at hz ⊢
  | cons e es ih =>
    cases S with
    | nil => simp at hz
    | cons f S =>
      simp only [List.map_cons, List.cons.injEq, Prod.mk.injEq] at hz
      simp only [List.map_cons, List.zipWith_cons_cons, List.cons.injEq]
      exact ⟨by rw [← hz.1.1, ← hz.1.2], ih hz.2⟩

/-- The six share-list commands have one shape: the front end, then the command's own work, which begins with reading the
fragments (except SYND's). -/
theorem isListCommand_form {i : Instr} {s : State} {c : Codec} {sl cnt : Nat} {outs : List Region}
    (h : IsListCommand i s c sl cnt outs) :
    ∃ (bs pos : Option Nat) (outs' : Codec → List Region) (work : Listed → Except Halt (Memory × Option ErrorCode)),
      exec i s = s.finishPart i (withList s ⟨sl, cnt, bs, pos⟩ outs' work) ∧ outs' c = outs ∧
      positionLegal bs pos = true ∧ (∀ sorted, dataRegions bs sorted = dataOf i s sorted) ∧
      ∀ L n x, bs = some n → loadFragments L n = .error x → work L = .error x := by
  obtain ⟨ro, re, rl, rn, rb, rp, rfl, rfl, h⟩ := h
  rcases h with ⟨rfl, rfl⟩ | ⟨rfl, rfl⟩ | ⟨rfl, rfl, hp⟩ | ⟨rfl, rfl⟩ | ⟨rfl, rfl⟩ | ⟨rfl, rfl⟩
  · refine ⟨_, none, _, _, rfl, rfl, rfl, fun _ => rfl, fun L n x hn hx => ?_⟩
    cases hn; simp only [hx, error_bind]
  · exact ⟨_, none, _, _, rfl, rfl, rfl, fun _ => rfl, nofun⟩
  · refine ⟨_, _, _, _, rfl, rfl, by simpa [positionLegal] using hp, fun _ => rfl, fun L n x hn hx => ?_⟩
    cases hn; simp only [hx, error_bind]
  · refine ⟨_, none, _, _, rfl, rfl, rfl, fun _ => rfl, fun L n x hn hx => ?_⟩
    cases hn; simp only [hx, error_bind]
  · refine ⟨_, none, _, _, rfl, rfl, rfl, fun _ => rfl, fun L n x hn hx => ?_⟩
    cases hn; simp only [decodeWith, hx, error_bind]
  · refine ⟨_, none, _, _, rfl, rfl, rfl, fun _ => rfl, fun L n x hn hx => ?_⟩
    cases hn; simp only [decodeWith, hx, error_bind]

end Sys2Proof.Machine
end

