-- ==== Sys2Proof/Laws/Keeps.lean ====
section
/-! SUPPORT. One lemma for each command that writes BUF: what it leaves there is in canonical form and inside BUF, if
what it found was. -/

namespace Sys2Proof.Machine

/-- BUF in canonical form and inside its `n` bytes. -/
structure GoodMem (n : Nat) (m : Memory) : Prop where
  wf : m.wf = true
  within : m.within n = true

theorem GoodMem.writeBytes {n : Nat} {m : Memory} (h : GoodMem n m) {a : Nat} {bs : List Byte}
    (hb : bs.length = 0 ∨ a + bs.length ≤ n) : GoodMem n (m.writeBytes a bs) :=
  ⟨wf_writeBytes m a bs h.wf, within_writeBytes m a n bs h.within hb⟩

theorem GoodMem.write {n : Nat} {m : Memory} (h : GoodMem n m) {a : Nat} {b : Byte} (ha : a < n) :
    GoodMem n (m.write a b) :=
  ⟨wf_write m a b h.wf, within_write m b h.within ha⟩

theorem GoodMem.storeFragments {n : Nat} {m : Memory} (h : GoodMem n m) {S : List Fragment}
    (hS : ∀ f ∈ S, f.data.length = 0 ∨ f.addr + f.data.length ≤ n) : GoodMem n (storeFragments m S) :=
  ⟨wf_storeFragments m S h.wf, within_storeFragments m n S h.within hS⟩

/-- Row `i` of a matrix lies inside BUF when the matrix does (43_matrix.md R110). -/
theorem row_inside {n m r c i : Nat} (hi : i < r) (h : r * c = 0 ∨ m + r * c ≤ n) : c = 0 ∨ m + i * c + c ≤ n := by
  have h1 : i * c + c ≤ r * c := by
    calc i * c + c = (i + 1) * c := (Nat.succ_mul i c).symm
      _ ≤ r * c := Nat.mul_le_mul_right c hi
  omega

/-- Element `[i][j]` lies inside BUF when the matrix does. -/
theorem element_inside {n m r c i j : Nat} (hi : i < r) (hj : j < c) (h : r * c = 0 ∨ m + r * c ≤ n) :
    m + i * c + j < n := by
  have := row_inside hi h
  omega

section
variable {s : State} (h : GoodMem s.memSize s.mem)
include h

theorem stbMem_good {ra rb m} (e : stbMem ra rb s = .ok m) : GoodMem s.memSize m := by
  simp only [stbMem, bind_eq_ok, demandInside_eq_ok] at e
  obtain ⟨_, h1, e⟩ := e
  cases e
  exact h.write (by omega)

theorem vaddmulMem_good {rdst rsrc rl rf m} (e : vaddmulMem rdst rsrc rl rf s = .ok m) : GoodMem s.memSize m := by
  simp only [vaddmulMem, bind_eq_ok, demandInside_eq_ok] at e
  obtain ⟨_, h1, _, h2, _, -, u, hu, v, hv, e⟩ := e
  cases e
  have l1 := (load_ok hu).1
  have l2 := (load_ok hv).1
  refine h.writeBytes ?_
  simp only [length_addmul, l1, l2, Nat.min_self]
  exact h1

theorem pscaleMem_good {rdst rp rl rf m} (e : pscaleMem rdst rp rl rf s = .ok m) : GoodMem s.memSize m := by
  simp only [pscaleMem, bind_eq_ok, demandInside_eq_ok] at e
  obtain ⟨_, h1, _, h2, _, -, u, hu, e⟩ := e
  cases e
  refine h.writeBytes ?_
  rw [length_polyscale, (load_ok hu).1]
  exact h1

theorem paddMem_good {rdst ra rla rb rlb m} (e : paddMem rdst ra rla rb rlb s = .ok m) : GoodMem s.memSize m := by
  simp only [paddMem, bind_eq_ok, demandInside_eq_ok] at e
  obtain ⟨_, h1, _, h2, _, h3, _, -, u, hu, v, hv, e⟩ := e
  cases e
  refine h.writeBytes ?_
  rw [length_polyadd, (load_ok hu).1, (load_ok hv).1]
  exact h1

theorem pdivResult_good {rq rr ra rla rb rlb m l0 l1} (e : pdivResult rq rr ra rla rb rlb s = .ok (m, l0, l1)) :
    GoodMem s.memSize m := by
  simp only [pdivResult, bind_eq_ok, demandInside_eq_ok] at e
  obtain ⟨_, -, _, -, u, -, v, -, d, -, _, h1, _, h2, _, -, e⟩ := e
  cases e
  exact (h.writeBytes h1).writeBytes h2

theorem msetMem_good {rm rr rc ri rj rv m} (e : msetMem rm rr rc ri rj rv s = .ok m) : GoodMem s.memSize m := by
  simp only [msetMem, State.demandMatrix, bind_eq_ok, demand_eq_ok, demandInside_eq_ok, Bool.and_eq_true,
    decide_eq_true_eq] at e
  obtain ⟨_, ⟨h1, h2⟩, _, h3, e⟩ := e
  cases e
  exact h.write (element_inside h1 h2 h3)

theorem mswapMem_good {rm rr rc ri rj m} (e : mswapMem rm rr rc ri rj s = .ok m) : GoodMem s.memSize m := by
  simp only [mswapMem, State.demandMatrix, bind_eq_ok, demand_eq_ok, demandInside_eq_ok, Bool.and_eq_true,
    decide_eq_true_eq] at e
  obtain ⟨_, ⟨h1, h2⟩, _, h3, u, hu, v, hv, e⟩ := e
  cases e
  refine (h.writeBytes ?_).writeBytes ?_
  · rw [(load_ok hv).1]; exact row_inside h1 h3
  · rw [(load_ok hu).1]; exact row_inside h2 h3

theorem mscaleMem_good {rm rr rc ri rf m} (e : mscaleMem rm rr rc ri rf s = .ok m) : GoodMem s.memSize m := by
  simp only [mscaleMem, State.demandMatrix, bind_eq_ok, demand_eq_ok, demandInside_eq_ok, decide_eq_true_eq] at e
  obtain ⟨_, h1, _, h3, u, hu, e⟩ := e
  cases e
  refine h.writeBytes ?_
  rw [length_polyscale, (load_ok hu).1]; exact row_inside h1 h3

theorem maddmulMem_good {rm rr rc rs rt rf m} (e : maddmulMem rm rr rc rs rt rf s = .ok m) : GoodMem s.memSize m := by
  simp only [maddmulMem, State.demandMatrix, bind_eq_ok, demand_eq_ok, demandInside_eq_ok, Bool.and_eq_true,
    decide_eq_true_eq] at e
  obtain ⟨_, ⟨h1, h2⟩, _, h3, u, hu, v, hv, e⟩ := e
  cases e
  refine h.writeBytes ?_
  simp only [length_addmul, (load_ok hu).1, (load_ok hv).1, MatOp.row, Nat.min_self]
  exact row_inside h2 h3

/-- The rows of an elimination stored back where the matrices lie. -/
theorem storePairs_good {c a ma aa : Nat} {rows : List PairRow} (hs : PairShape c a rows)
    (hm : rows.length * c = 0 ∨ ma + rows.length * c ≤ s.memSize)
    (ha : rows.length * a = 0 ∨ aa + rows.length * a ≤ s.memSize) :
    GoodMem s.memSize (storePairs s.mem ma aa rows) := by
  have h1 : IsMatrix rows.length c (rows.map Prod.fst) := by
    refine ⟨by simp, fun x hx => ?_⟩
    obtain ⟨r, hr, rfl⟩ := List.mem_map.mp hx
    exact (hs r hr).1
  have h2 : IsMatrix rows.length a (rows.map Prod.snd) := by
    refine ⟨by simp, fun x hx => ?_⟩
    obtain ⟨r, hr, rfl⟩ := List.mem_map.mp hx
    exact (hs r hr).2
  refine (h.writeBytes ?_).writeBytes ?_
  · rw [length_flatten_matrix h1]; exact hm
  · rw [length_flatten_matrix h2]; exact ha

theorem eliminateInBuf_good {c a ma aa : Nat} {policy : Policy} {rows : List PairRow} (hs : PairShape c a rows)
    (hm : rows.length * c = 0 ∨ ma + rows.length * c ≤ s.memSize)
    (ha : rows.length * a = 0 ∨ aa + rows.length * a ≤ s.memSize) :
    GoodMem s.memSize (eliminateInBuf s.mem ma aa policy rows).1 := by
  obtain ⟨h1, h2⟩ := eliminate_shape (policy := policy) hs
  unfold eliminateInBuf
  cases he : eliminate policy rows with
  | ok rows' =>
    obtain ⟨h3, h4⟩ := h1 _ he
    exact storePairs_good h h3 (by rw [h4]; exact hm) (by rw [h4]; exact ha)
  | error left =>
    obtain ⟨h3, h4⟩ := h2 _ he
    exact storePairs_good h h3 (by rw [h4]; exact hm) (by rw [h4]; exact ha)

theorem mstdResult_good {rm rr rc pol p} (e : mstdResult rm rr rc pol s = .ok p) : GoodMem s.memSize p.1 := by
  simp only [mstdResult, State.demandMatrix, bind_eq_ok, demand_eq_ok, demandInside_eq_ok] at e
  obtain ⟨policy, -, _, -, _, h1, bs, hb, e⟩ := e
  cases e
  have hM : IsMatrix (s.num rr) (s.num rc) _ := isMatrix_rowsOf (load_ok hb).1
  exact eliminateInBuf_good h (pairShape_soleRows hM) (by rw [length_soleRows, hM.1]; exact h1) (by simp)

theorem minvResult_good {rm rr rc ra rca pol p} (e : minvResult rm rr rc ra rca pol s = .ok p) :
    GoodMem s.memSize p.1 := by
  simp only [minvResult, State.demandMatrix, bind_eq_ok, demand_eq_ok, demandInside_eq_ok] at e
  obtain ⟨policy, -, _, -, _, h1, _, h2, _, -, bm, hm, ba, ha, e⟩ := e
  cases e
  have hM : IsMatrix (s.num rr) (s.num rc) _ := isMatrix_rowsOf (load_ok hm).1
  have hA : IsMatrix (s.num rr) (s.num rca) _ := isMatrix_rowsOf (load_ok ha).1
  exact eliminateInBuf_good h (pairShape_pairRows hM hA) (by rw [length_pairRows, hM.1, hA.1, Nat.min_self]; exact h1)
    (by rw [length_pairRows, hM.1, hA.1, Nat.min_self]; exact h2)

theorem mparMem_good {rdst rm rr rc m} (e : mparMem rdst rm rr rc s = .ok m) : GoodMem s.memSize m := by
  simp only [mparMem, State.demandMatrix, bind_eq_ok, demand_eq_ok, demandInside_eq_ok, decide_eq_true_eq] at e
  obtain ⟨_, h0, _, -, _, h1, _, -, P, hP, e⟩ := e
  cases e
  have hl : P.length = s.num rr := by
    have := congrArg List.length (loadEach_ok hP)
    simpa [blockP, State.matOp] using this
  refine h.writeBytes ?_
  rw [length_flatten_matrix (isMatrix_parityOf P hl)]
  have : s.num rr + (s.num rc - s.num rr) = s.num rc := by omega
  rw [this]; exact h1

variable (hc : ∀ c, s.codec = some c → c.Legal)
include hc

theorem encdumpMem_good {ra m} (e : encdumpMem ra s = .ok m) : GoodMem s.memSize m := by
  simp only [encdumpMem, bind_eq_ok, needCodec_eq_ok, demandInside_eq_ok] at e
  obtain ⟨c, h1, _, h2, e⟩ := e
  cases e
  refine h.writeBytes ?_
  rw [(hc c h1).enc, length_flatten_matrix (isMatrix_encMatrix _ _)]
  exact h2

theorem vanddumpMem_good {ra m} (e : vanddumpMem ra s = .ok m) : GoodMem s.memSize m := by
  simp only [vanddumpMem, bind_eq_ok, needCodec_eq_ok, demandInside_eq_ok] at e
  obtain ⟨c, h1, _, h2, e⟩ := e
  cases e
  refine h.writeBytes ?_
  rw [(hc c h1).vand, length_flatten_matrix (isMatrix_vandMatrix _ _)]
  exact h2

omit h hc in
/-- A fragment has the length of a block (45_encode_rebuild.md R141). -/
theorem length_fragmentOf {c : Codec} {bs : Nat} {D : List Byte} (hD : D.length = c.k * bs) (i : Nat) :
    (fragmentOf c bs D i).length = bs := by
  have hb : ∀ j, j < c.k → (blockAt bs D j).length = bs := by
    intro j hj
    have : j * bs + bs ≤ c.k * bs := by
      calc j * bs + bs = (j + 1) * bs := (Nat.succ_mul j bs).symm
        _ ≤ c.k * bs := Nat.mul_le_mul_right bs hj
    simp [blockAt, hD]; omega
  unfold fragmentOf
  split
  · next hi => exact hb i hi
  · refine length_combine bs _ _ fun b hb' => ?_
    obtain ⟨j, hj, rfl⟩ := List.mem_map.mp hb'
    exact hb j (List.mem_range.mp hj)

omit hc in
theorem encodeMem_good {rout rin rlen m} (e : encodeMem rout rin rlen s = .ok m) : GoodMem s.memSize m := by
  simp only [encodeMem, bind_eq_ok, needCodec_eq_ok, demand_eq_ok, demandInside_eq_ok, beq_iff_eq] at e
  obtain ⟨c, h1, _, h2, _, -, _, h3, _, -, D, hD, e⟩ := e
  cases e
  have hl : D.length = c.k * (s.num rlen / c.k) := by
    rw [(load_ok hD).1, Nat.mul_div_cancel' (Nat.dvd_of_mod_eq_zero h2)]
  have hM : IsMatrix c.n (s.num rlen / c.k) ((List.range c.n).map (fragmentOf c (s.num rlen / c.k) D)) := by
    refine ⟨by simp, fun row hrow => ?_⟩
    obtain ⟨i, -, rfl⟩ := List.mem_map.mp hrow
    exact length_fragmentOf hl i
  refine h.writeBytes ?_
  rw [length_flatten_matrix hM]
  exact h3

omit hc in
theorem encsingleMem_good {rout rin rlen ridx m} (e : encsingleMem rout rin rlen ridx s = .ok m) :
    GoodMem s.memSize m := by
  simp only [encsingleMem, bind_eq_ok, needCodec_eq_ok, demand_eq_ok, demandInside_eq_ok, beq_iff_eq] at e
  obtain ⟨c, h1, _, -, _, h2, _, -, _, h3, _, -, D, hD, e⟩ := e
  cases e
  have hl : D.length = c.k * (s.num rlen / c.k) := by
    rw [(load_ok hD).1, Nat.mul_div_cancel' (Nat.dvd_of_mod_eq_zero h2)]
  refine h.writeBytes ?_
  rw [length_fragmentOf hl]
  exact h3

end

/-! ### Share-list commands -/

/-- The sorted list written back is inside BUF. -/
theorem sortList_good_mem {s : State} (h : GoodMem s.memSize s.mem) {a : ListOperands} {outs : Codec → List Region}
    {L : Listed} (e : sortList s a outs = .ok L) : GoodMem s.memSize L.mem := by
  obtain ⟨-, -, h1, -, h2, h3, -, h4⟩ := sortList_ok e
  rw [h4]
  refine h.writeBytes ?_
  rw [length_listBytes h3, h2]
  exact h1

/-- A share-list command keeps BUF good if its own work does. -/
theorem withList_good {s : State} (h : GoodMem s.memSize s.mem) {a : ListOperands} {outs : Codec → List Region}
    {work : Listed → Except Halt (Memory × Option ErrorCode)} {p : Memory × Option ErrorCode}
    (hw : ∀ L, sortList s a outs = .ok L → listError s a L = none → GoodMem s.memSize L.mem →
      work L = .ok p → GoodMem s.memSize p.1)
    (e : withList s a outs work = .ok p) : GoodMem s.memSize p.1 := by
  rcases withList_cases s a outs work with ⟨x, -, h1⟩ | ⟨L, hL, ⟨x, -, h1⟩ | ⟨-, -, h1⟩ | ⟨h2, -, h1⟩⟩ <;> rw [h1] at e
  · cases e
  · cases e; exact sortList_good_mem h hL
  · cases e
  · exact hw L hL h2 (sortList_good_mem h hL) e

theorem length_selectFrom (todo i : Nat) (S : List Fragment) : (selectFrom todo i S).length = min todo S.length := by
  induction todo generalizing i S with
  | zero => simp [selectFrom]
  | succ todo ih =>
    cases S with
    | nil => simp [selectFrom]
    | cons f S =>
      unfold selectFrom
      split <;> simp [ih]

theorem mem_selectFrom (todo i : Nat) (S : List Fragment) : ∀ f ∈ selectFrom todo i S, f ∈ S := by
  induction todo generalizing i S with
  | zero => simp [selectFrom]
  | succ todo ih =>
    cases S with
    | nil => simp [selectFrom]
    | cons g S =>
      intro f hf
      unfold selectFrom at hf
      split at hf
      · rcases List.mem_cons.mp hf with rfl | hf
        · exact List.mem_cons_self
        · exact List.mem_cons_of_mem _ (ih _ _ f hf)
      · rcases List.mem_cons.mp hf with rfl | hf
        · rw [List.getLastD_eq_getLast?, List.getLast?_eq_some_getLast (by simp), Option.getD_some]
          exact List.getLast_mem _
        · exact List.mem_of_mem_dropLast (ih _ _ f hf)

/-- The blocks of a rebuild have the block size (45_encode_rebuild.md R145). -/
theorem rebuildBlocks_matrix {c : Codec} {bs : Nat} {S : List Fragment} {blocks : Rows} (hk : c.k ≤ S.length)
    (hS : ∀ f ∈ S, f.data.length = bs) (e : rebuildBlocks c bs S = .ok blocks) : IsMatrix c.k bs blocks := by
  unfold rebuildBlocks at e
  split at e
  · cases e
  · cases e
    refine ⟨by simp, fun row hrow => ?_⟩
    obtain ⟨i, hi, rfl⟩ := List.mem_map.mp hrow
    have hi := List.mem_range.mp hi
    split
    · have hl : i < (selectFragments c.k S).length := by
        rw [selectFragments, length_selectFrom]; omega
      have : selectedAt c S i = (selectFragments c.k S)[i] := by
        simp [selectedAt, List.getD_eq_getElem?_getD, hl]
      rw [this]
      exact hS _ (mem_selectFrom _ _ _ _ (List.getElem_mem hl))
    · refine length_combine bs _ _ fun b hb => ?_
      obtain ⟨f, hf, rfl⟩ := List.mem_map.mp hb
      exact hS f (mem_selectFrom _ _ _ f hf)

/-- The syndrome matrix has `r - k` rows of `r` elements (46_berlekamp_welch.md R150). -/
theorem syndrome_matrix {c : Codec} {nums : List Nat} {H : Rows} (hc : c.Legal) (hk : c.k ≤ nums.length)
    (e : syndrome c nums = .ok H) : IsMatrix (nums.length - c.k) nums.length H := by
  unfold syndrome at e
  split at e
  · next rows he =>
    cases e
    have hM : IsMatrix c.k nums.length (c.vand.map fun row => nums.map fun t => row.getD t 0) := by
      refine ⟨by rw [List.length_map, hc.vand]; exact (isMatrix_vandMatrix _ _).1, fun row hrow => ?_⟩
      obtain ⟨v, -, rfl⟩ := List.mem_map.mp hrow
      simp
    have hl := ((eliminate_shape (pairShape_soleRows hM)).1 _ he).2
    have := isMatrix_parityOf (r := c.k) (m := nums.length - c.k) (rows.map fun r => r.1.drop c.k)
      (by rw [List.length_map, hl, length_soleRows, hM.1])
    rwa [Nat.add_sub_cancel' hk] at this
  · cases e

/-- What Berlekamp-Welch answers has `n` bytes (R155). -/
theorem length_bw {c : Codec} {S : List Fragment} {p : Nat} {bytes : List Byte} (e : bw c S p = .ok bytes) :
    bytes.length = c.n := by
  unfold bw at e
  simp only at e
  split at e
  · cases e
  · unfold bytesFromSolution at e
    split at e
    · cases e
    · split at e
      · cases e; simp
      · cases e

/-- What correction keeps of every fragment: its number, its place and the length of its data. -/
abbrev frames (S : List Fragment) : List (Nat × Nat × Nat) := S.map fun f => (f.num, f.addr, f.data.length)

theorem frames_rewriteAt (S : List Fragment) (p : Nat) (bytes : List Byte) : frames (rewriteAt S p bytes) = frames S := by
  simp [frames, rewriteAt, Function.comp_def]

theorem repairEach_frames (c : Codec) (ps : List Nat) (S : List Fragment) :
    (∀ S', repairEach c ps S = .ok S' → frames S' = frames S) ∧
    (∀ e S', repairEach c ps S = .error (e, S') → frames S' = frames S) := by
  induction ps generalizing S with
  | nil =>
    refine ⟨fun S' e => ?_, fun e S' h => ?_⟩
    · cases e; rfl
    · cases h
  | cons p ps ih =>
    unfold repairEach repairAt
    cases hb : bw c S p with
    | ok bytes => simpa [frames_rewriteAt] using ih (rewriteAt S p bytes)
    | error e =>
      refine ⟨fun S' e => ?_, fun e S' h => ?_⟩
      · cases e
      · cases h; rfl

theorem correctRows_frames (c : Codec) (bs : Nat) (H : Rows) (S : List Fragment) :
    (∀ S', correctRows c bs H S = .ok S' → frames S' = frames S) ∧
    (∀ e S', correctRows c bs H S = .error (e, S') → frames S' = frames S) := by
  induction H generalizing S with
  | nil =>
    refine ⟨fun S' e => ?_, fun e S' h => ?_⟩
    · cases e; rfl
    · cases h
  | cons row H ih =>
    unfold correctRows
    obtain ⟨h1, h2⟩ := repairEach_frames c (flagged bs (checkVector bs S row)) S
    cases hr : repairEach c (flagged bs (checkVector bs S row)) S with
    | ok S1 => simpa [h1 S1 hr] using ih S1
    | error p =>
      refine ⟨fun S' e => ?_, fun e S' h => ?_⟩
      · cases e
      · cases h; exact h2 _ _ hr

/-- Correction changes nothing of a fragment but the bytes of its data, with success or without (R157). -/
theorem correctFragments_frames (c : Codec) (bs : Nat) (S : List Fragment) :
    (∀ S', correctFragments c bs S = .ok S' → frames S' = frames S) ∧
    (∀ e S', correctFragments c bs S = .error (e, S') → frames S' = frames S) := by
  unfold correctFragments
  cases syndrome c (S.map (·.num)) with
  | ok H => exact correctRows_frames c bs H S
  | error e =>
    refine ⟨fun S' e => ?_, fun e S' h => ?_⟩
    · cases e
    · cases h; rfl

theorem length_eq_of_frames {S S' : List Fragment} (h : frames S' = frames S) : S'.length = S.length := by
  simpa using congrArg List.length h

theorem data_length_of_frames {S S' : List Fragment} {bs : Nat} (h : frames S' = frames S)
    (hS : ∀ f ∈ S, f.data.length = bs) : ∀ f ∈ S', f.data.length = bs := by
  intro f hf
  have : (f.num, f.addr, f.data.length) ∈ frames S := h ▸ List.mem_map_of_mem (f := fun f : Fragment => (f.num, f.addr, f.data.length)) hf
  obtain ⟨g, hg, e⟩ := List.mem_map.mp this
  simp only [Prod.mk.injEq] at e
  rw [← e.2.2]; exact hS g hg

/-- The data of the fragments stays inside BUF (R143, F9). -/
theorem data_inside {s : State} {a : ListOperands} {L : Listed} {bs : Nat} {S S' : List Fragment}
    (hb : a.bs = some bs) (hl : listError s a L = none) (hS : loadFragments L bs = .ok S) (hf : frames S' = frames S) :
    ∀ f ∈ S', f.data.length = 0 ∨ f.addr + f.data.length ≤ s.memSize := by
  obtain ⟨h1, h2⟩ := loadFragments_ok hS
  intro f hf'
  have h3 := data_length_of_frames hf h2 f hf'
  have : (f.num, f.addr, f.data.length) ∈ frames S := hf ▸ List.mem_map_of_mem (f := fun f : Fragment => (f.num, f.addr, f.data.length)) hf'
  obtain ⟨g, hg, e⟩ := List.mem_map.mp this
  have h4 : (g.num, g.addr) ∈ L.shares.map (fun e => (e.num, e.addr)) :=
    h1 ▸ List.mem_map_of_mem (f := fun f : Fragment => (f.num, f.addr)) hg
  obtain ⟨x, hx, e'⟩ := List.mem_map.mp h4
  have h5 := (listError_none hl).2 ⟨x.addr, bs⟩ (by rw [hb]; exact List.mem_map.mpr ⟨x, hx, rfl⟩)
  simp only [Prod.mk.injEq] at e e'
  rw [h3, ← e.2.1, ← e'.2]
  exact h5

section
variable {s : State} (h : GoodMem s.memSize s.mem)
include h

theorem rebuildResult_good {rout rsl rcnt rbs p} (e : rebuildResult rout rsl rcnt rbs s = .ok p) :
    GoodMem s.memSize p.1 := by
  refine withList_good h (fun L hL _ hm hw => ?_) e
  obtain ⟨-, h1, -, h2, h3, -, -, -⟩ := sortList_ok hL
  simp only [bind_eq_ok] at hw
  obtain ⟨S, hS, hw⟩ := hw
  obtain ⟨h4, h5⟩ := loadFragments_ok hS
  have hl : S.length = s.num rcnt := by
    have := congrArg List.length h4
    simp only [List.length_map] at this
    rw [this, h3]
  cases hb : rebuildBlocks L.codec (s.num rbs) S with
  | ok blocks =>
    rw [hb] at hw
    cases hw
    refine hm.writeBytes ?_
    rw [length_flatten_matrix (rebuildBlocks_matrix (by rw [hl]; exact h1) h5 hb)]
    exact h2 _ (List.mem_singleton.mpr rfl)
  | error x => rw [hb] at hw; cases hw; exact hm

theorem syndResult_good {rout rsl rcnt p} (hc : ∀ c, s.codec = some c → c.Legal)
    (e : syndResult rout rsl rcnt s = .ok p) : GoodMem s.memSize p.1 := by
  refine withList_good h (fun L hL _ hm hw => ?_) e
  obtain ⟨h0, h1, -, h2, h3, -, -, -⟩ := sortList_ok hL
  cases hb : syndrome L.codec (L.shares.map (·.num)) with
  | ok H =>
    rw [hb] at hw
    cases hw
    have hM := syndrome_matrix (hc _ h0) (by rw [List.length_map, h3]; exact h1) hb
    rw [List.length_map, h3] at hM
    refine hm.writeBytes ?_
    rw [length_flatten_matrix hM]
    exact h2 _ (List.mem_singleton.mpr rfl)
  | error x => rw [hb] at hw; cases hw; exact hm

theorem bwbResult_good {rout rsl rcnt rbs rp p} (e : bwbResult rout rsl rcnt rbs rp s = .ok p) :
    GoodMem s.memSize p.1 := by
  refine withList_good h (fun L hL _ hm hw => ?_) e
  obtain ⟨-, -, -, h2, -, -, -, -⟩ := sortList_ok hL
  simp only [bind_eq_ok] at hw
  obtain ⟨S, hS, hw⟩ := hw
  cases hb : bw L.codec S (s.num rp) with
  | ok bytes =>
    rw [hb] at hw
    cases hw
    refine hm.writeBytes ?_
    rw [length_bw hb]
    exact h2 _ (List.mem_singleton.mpr rfl)
  | error x => rw [hb] at hw; cases hw; exact hm

theorem correctResult_good {rsl rcnt rbs p} (e : correctResult rsl rcnt rbs s = .ok p) : GoodMem s.memSize p.1 := by
  refine withList_good h (fun L hL hl hm hw => ?_) e
  simp only [bind_eq_ok] at hw
  obtain ⟨S, hS, hw⟩ := hw
  obtain ⟨h1, h2⟩ := correctFragments_frames L.codec (s.num rbs) S
  cases hb : correctFragments L.codec (s.num rbs) S with
  | ok S' =>
    rw [hb] at hw
    cases hw
    exact hm.storeFragments (data_inside rfl hl hS (h1 _ hb))
  | error x =>
    obtain ⟨x, S'⟩ := x
    rw [hb] at hw
    cases hw
    exact hm.storeFragments (data_inside rfl hl hS (h2 _ _ hb))

omit h in
theorem decodeWith_good {L : Listed} {a : ListOperands} {bs : Nat}
    {emit : Memory → List Fragment → List (List Byte) → Memory} {p : Memory × Option ErrorCode}
    (hb : a.bs = some bs) (hl : listError s a L = none) (hk : L.codec.k ≤ L.shares.length)
    (hm : GoodMem s.memSize L.mem)
    (he : ∀ m S blocks, GoodMem s.memSize m → IsMatrix L.codec.k bs blocks → GoodMem s.memSize (emit m S blocks))
    (e : decodeWith L bs emit = .ok p) : GoodMem s.memSize p.1 := by
  simp only [decodeWith, bind_eq_ok] at e
  obtain ⟨S, hS, e⟩ := e
  obtain ⟨h1, h2⟩ := correctFragments_frames L.codec bs S
  cases hc : correctFragments L.codec bs S with
  | error x =>
    obtain ⟨x, S'⟩ := x
    rw [hc] at e
    cases e
    exact hm.storeFragments (data_inside hb hl hS (h2 _ _ hc))
  | ok S' =>
    rw [hc] at e
    have h3 := hm.storeFragments (data_inside hb hl hS (h1 _ hc))
    cases hr : rebuildBlocks L.codec bs S' with
    | error x => simp only [hr] at e; cases e; exact h3
    | ok blocks =>
      simp only [hr] at e
      cases e
      obtain ⟨h4, h5⟩ := loadFragments_ok hS
      refine he _ _ _ h3 (rebuildBlocks_matrix ?_ (data_length_of_frames (h1 _ hc) h5) hr)
      rw [length_eq_of_frames (h1 _ hc)]
      have := congrArg List.length h4
      simp only [List.length_map] at this
      rw [this]; exact hk

theorem decodeResult_good {rout rsl rcnt rbs p} (e : decodeResult rout rsl rcnt rbs s = .ok p) :
    GoodMem s.memSize p.1 := by
  refine withList_good h (fun L hL hl hm hw => ?_) e
  obtain ⟨-, h1, -, h2, h3, -, -, -⟩ := sortList_ok hL
  refine decodeWith_good rfl hl (by rw [h3]; exact h1) hm (fun m S blocks h4 h5 => h4.writeBytes ?_) hw
  rw [length_flatten_matrix h5]
  exact h2 _ (List.mem_singleton.mpr rfl)

omit h in
theorem length_emissionOrder (c : Codec) (S : List Fragment) : (emissionOrder c S).length = c.k := by
  have := List.length_eq_length_filter_add (l := List.range c.k) (received c S)
  rw [List.length_range] at this
  rw [emissionOrder, List.length_append, ← this]

omit h in
theorem length_emissions (out bs : Nat) (js : List Nat) :
    (js.map (emissionRecord out bs)).flatten.length = 8 * js.length := by
  induction js with
  | nil => rfl
  | cons j js ih =>
    have : (emissionRecord out bs j).length = 8 := by simp [emissionRecord, Share.toBytes]
    simp only [List.map_cons, List.flatten_cons, List.length_append, this, ih, List.length_cons]
    omega

theorem decncResult_good {rout rol rsl rcnt rbs p} (e : decncResult rout rol rsl rcnt rbs s = .ok p) :
    GoodMem s.memSize p.1 := by
  refine withList_good h (fun L hL hl hm hw => ?_) e
  obtain ⟨-, h1, -, h2, h3, -, -, -⟩ := sortList_ok hL
  refine decodeWith_good rfl hl (by rw [h3]; exact h1) hm
    (fun m S blocks h4 h5 => (h4.writeBytes ?_).writeBytes ?_) hw
  · rw [length_flatten_matrix h5]
    exact h2 ⟨s.num rout, L.codec.k * s.num rbs⟩ (by simp)
  · rw [length_emissions, length_emissionOrder]
    exact h2 ⟨s.num rol, 8 * L.codec.k⟩ (by simp)

end

end Sys2Proof.Machine
end

