-- ==== Sys2Proof/Laws/PerInstr.lean ====
section
/-! SUPPORT. Facts about a command as syntax, one lemma per constructor. -/

namespace Sys2Proof.Laws.OpcodeByte

open Sys2Proof

/-- The opcode byte that 30_encoding.md R65 gives a command. -/
def byteOf : Instr → Nat
  | .nop => 0x00
  | .li _ _ => 0x01
  | .lih _ _ => 0x02
  | .mov _ _ => 0x03
  | .mfs _ _ => 0x04
  | .clrerr => 0x05
  | .ldb _ _ => 0x06
  | .stb _ _ => 0x07
  | .gfadd _ _ _ => 0x10
  | .gfmul _ _ _ => 0x11
  | .gfdiv _ _ _ => 0x12
  | .gfpow _ _ _ => 0x13
  | .gfinv _ _ => 0x14
  | .gfexp _ _ => 0x15
  | .gflog _ _ => 0x16
  | .vdot _ _ _ _ => 0x20
  | .vaddmul _ _ _ _ => 0x21
  | .peval _ _ _ _ => 0x22
  | .pscale _ _ _ _ => 0x23
  | .padd _ _ _ _ _ => 0x24
  | .pdiv _ _ _ _ _ _ => 0x25
  | .mget _ _ _ _ _ _ => 0x30
  | .mset _ _ _ _ _ _ => 0x31
  | .mrow _ _ _ _ _ => 0x32
  | .mswap _ _ _ _ _ => 0x33
  | .mscale _ _ _ _ _ => 0x34
  | .maddmul _ _ _ _ _ _ => 0x35
  | .mstd _ _ _ _ => 0x36
  | .minv _ _ _ _ _ _ => 0x37
  | .mpar _ _ _ _ => 0x38
  | .fecnew _ _ => 0x40
  | .required _ => 0x41
  | .total _ => 0x42
  | .encget _ _ _ => 0x43
  | .vandget _ _ _ => 0x44
  | .encdump _ => 0x45
  | .vanddump _ => 0x46
  | .encode _ _ _ => 0x50
  | .encsingle _ _ _ _ => 0x51
  | .rebuild _ _ _ _ => 0x52
  | .synd _ _ _ => 0x60
  | .bwb _ _ _ _ _ => 0x61
  | .correct _ _ _ => 0x62
  | .decode _ _ _ _ => 0x63
  | .decnc _ _ _ _ _ => 0x64

/-- The word of a command carries its opcode in bits 31:24, whatever its operands are (R61, R62). -/
def Statement (i : Instr) : Prop := opcodeOf (encode i) = byteOf i

theorem nop : Statement (.nop) := opcodeOf_packR _ _ _ _ _ _ _ (by decide)
theorem li (rd : Nibble) (imm16 : BitVec 16) : Statement (.li rd imm16) := opcodeOf_packI _ _ _ (by decide)
theorem lih (rd : Nibble) (imm16 : BitVec 16) : Statement (.lih rd imm16) := opcodeOf_packI _ _ _ (by decide)
theorem mov (rd : Nibble) (ra : Nibble) : Statement (.mov rd ra) := opcodeOf_packR _ _ _ _ _ _ _ (by decide)
theorem mfs (rd : Nibble) (sreg : Nibble) : Statement (.mfs rd sreg) := opcodeOf_packR _ _ _ _ _ _ _ (by decide)
theorem clrerr : Statement (.clrerr) := opcodeOf_packR _ _ _ _ _ _ _ (by decide)
theorem ldb (rd : Nibble) (ra : Nibble) : Statement (.ldb rd ra) := opcodeOf_packR _ _ _ _ _ _ _ (by decide)
theorem stb (ra : Nibble) (rb : Nibble) : Statement (.stb ra rb) := opcodeOf_packR _ _ _ _ _ _ _ (by decide)
theorem gfadd (rd : Nibble) (ra : Nibble) (rb : Nibble) : Statement (.gfadd rd ra rb) := opcodeOf_packR _ _ _ _ _ _ _ (by decide)
theorem gfmul (rd : Nibble) (ra : Nibble) (rb : Nibble) : Statement (.gfmul rd ra rb) := opcodeOf_packR _ _ _ _ _ _ _ (by decide)
theorem gfdiv (rd : Nibble) (ra : Nibble) (rb : Nibble) : Statement (.gfdiv rd ra rb) := opcodeOf_packR _ _ _ _ _ _ _ (by decide)
theorem gfpow (rd : Nibble) (ra : Nibble) (re : Nibble) : Statement (.gfpow rd ra re) := opcodeOf_packR _ _ _ _ _ _ _ (by decide)
theorem gfinv (rd : Nibble) (ra : Nibble) : Statement (.gfinv rd ra) := opcodeOf_packR _ _ _ _ _ _ _ (by decide)
theorem gfexp (rd : Nibble) (ra : Nibble) : Statement (.gfexp rd ra) := opcodeOf_packR _ _ _ _ _ _ _ (by decide)
theorem gflog (rd : Nibble) (ra : Nibble) : Statement (.gflog rd ra) := opcodeOf_packR _ _ _ _ _ _ _ (by decide)
theorem vdot (rd : Nibble) (ra : Nibble) (rb : Nibble) (rl : Nibble) : Statement (.vdot rd ra rb rl) := opcodeOf_packR _ _ _ _ _ _ _ (by decide)
theorem vaddmul (rdst : Nibble) (rsrc : Nibble) (rl : Nibble) (rf : Nibble) : Statement (.vaddmul rdst rsrc rl rf) := opcodeOf_packR _ _ _ _ _ _ _ (by decide)
theorem peval (rd : Nibble) (rp : Nibble) (rl : Nibble) (rx : Nibble) : Statement (.peval rd rp rl rx) := opcodeOf_packR _ _ _ _ _ _ _ (by decide)
theorem pscale (rdst : Nibble) (rp : Nibble) (rl : Nibble) (rf : Nibble) : Statement (.pscale rdst rp rl rf) := opcodeOf_packR _ _ _ _ _ _ _ (by decide)
theorem padd (rdst : Nibble) (ra : Nibble) (rla : Nibble) (rb : Nibble) (rlb : Nibble) : Statement (.padd rdst ra rla rb rlb) := opcodeOf_packR _ _ _ _ _ _ _ (by decide)
theorem pdiv (rq : Nibble) (rr : Nibble) (ra : Nibble) (rla : Nibble) (rb : Nibble) (rlb : Nibble) : Statement (.pdiv rq rr ra rla rb rlb) := opcodeOf_packR _ _ _ _ _ _ _ (by decide)
theorem mget (rd : Nibble) (rm : Nibble) (rr : Nibble) (rc : Nibble) (ri : Nibble) (rj : Nibble) : Statement (.mget rd rm rr rc ri rj) := opcodeOf_packR _ _ _ _ _ _ _ (by decide)
theorem mset (rm : Nibble) (rr : Nibble) (rc : Nibble) (ri : Nibble) (rj : Nibble) (rv : Nibble) : Statement (.mset rm rr rc ri rj rv) := opcodeOf_packR _ _ _ _ _ _ _ (by decide)
theorem mrow (rd : Nibble) (rm : Nibble) (rr : Nibble) (rc : Nibble) (ri : Nibble) : Statement (.mrow rd rm rr rc ri) := opcodeOf_packR _ _ _ _ _ _ _ (by decide)
theorem mswap (rm : Nibble) (rr : Nibble) (rc : Nibble) (ri : Nibble) (rj : Nibble) : Statement (.mswap rm rr rc ri rj) := opcodeOf_packR _ _ _ _ _ _ _ (by decide)
theorem mscale (rm : Nibble) (rr : Nibble) (rc : Nibble) (ri : Nibble) (rf : Nibble) : Statement (.mscale rm rr rc ri rf) := opcodeOf_packR _ _ _ _ _ _ _ (by decide)
theorem maddmul (rm : Nibble) (rr : Nibble) (rc : Nibble) (rs : Nibble) (rt : Nibble) (rf : Nibble) : Statement (.maddmul rm rr rc rs rt rf) := opcodeOf_packR _ _ _ _ _ _ _ (by decide)
theorem mstd (rm : Nibble) (rr : Nibble) (rc : Nibble) (pol : Nibble) : Statement (.mstd rm rr rc pol) := opcodeOf_packR _ _ _ _ _ _ _ (by decide)
theorem minv (rm : Nibble) (rr : Nibble) (rc : Nibble) (ra : Nibble) (rca : Nibble) (pol : Nibble) : Statement (.minv rm rr rc ra rca pol) := opcodeOf_packR _ _ _ _ _ _ _ (by decide)
theorem mpar (rdst : Nibble) (rm : Nibble) (rr : Nibble) (rc : Nibble) : Statement (.mpar rdst rm rr rc) := opcodeOf_packR _ _ _ _ _ _ _ (by decide)
theorem fecnew (rk : Nibble) (rn : Nibble) : Statement (.fecnew rk rn) := opcodeOf_packR _ _ _ _ _ _ _ (by decide)
theorem required (rd : Nibble) : Statement (.required rd) := opcodeOf_packR _ _ _ _ _ _ _ (by decide)
theorem total (rd : Nibble) : Statement (.total rd) := opcodeOf_packR _ _ _ _ _ _ _ (by decide)
theorem encget (rd : Nibble) (ri : Nibble) (rj : Nibble) : Statement (.encget rd ri rj) := opcodeOf_packR _ _ _ _ _ _ _ (by decide)
theorem vandget (rd : Nibble) (ri : Nibble) (rj : Nibble) : Statement (.vandget rd ri rj) := opcodeOf_packR _ _ _ _ _ _ _ (by decide)
theorem encdump (ra : Nibble) : Statement (.encdump ra) := opcodeOf_packR _ _ _ _ _ _ _ (by decide)
theorem vanddump (ra : Nibble) : Statement (.vanddump ra) := opcodeOf_packR _ _ _ _ _ _ _ (by decide)
theorem encode (rout : Nibble) (rin : Nibble) (rlen : Nibble) : Statement (.encode rout rin rlen) := opcodeOf_packR _ _ _ _ _ _ _ (by decide)
theorem encsingle (rout : Nibble) (rin : Nibble) (rlen : Nibble) (ridx : Nibble) : Statement (.encsingle rout rin rlen ridx) := opcodeOf_packR _ _ _ _ _ _ _ (by decide)
theorem rebuild (rout : Nibble) (rsl : Nibble) (rcnt : Nibble) (rbs : Nibble) : Statement (.rebuild rout rsl rcnt rbs) := opcodeOf_packR _ _ _ _ _ _ _ (by decide)
theorem synd (rout : Nibble) (rsl : Nibble) (rcnt : Nibble) : Statement (.synd rout rsl rcnt) := opcodeOf_packR _ _ _ _ _ _ _ (by decide)
theorem bwb (rout : Nibble) (rsl : Nibble) (rcnt : Nibble) (rbs : Nibble) (rp : Nibble) : Statement (.bwb rout rsl rcnt rbs rp) := opcodeOf_packR _ _ _ _ _ _ _ (by decide)
theorem correct (rsl : Nibble) (rcnt : Nibble) (rbs : Nibble) : Statement (.correct rsl rcnt rbs) := opcodeOf_packR _ _ _ _ _ _ _ (by decide)
theorem decode (rout : Nibble) (rsl : Nibble) (rcnt : Nibble) (rbs : Nibble) : Statement (.decode rout rsl rcnt rbs) := opcodeOf_packR _ _ _ _ _ _ _ (by decide)
theorem decnc (rout : Nibble) (rol : Nibble) (rsl : Nibble) (rcnt : Nibble) (rbs : Nibble) : Statement (.decnc rout rol rsl rcnt rbs) := opcodeOf_packR _ _ _ _ _ _ _ (by decide)

end Sys2Proof.Laws.OpcodeByte
end

