-- ==== Sys2Proof/Tests/Slice0.lean ====
section
/-! SUPPORT. The model's own tests: words written out from 30_encoding.md R65, single steps with the results that the
examples of the rules and 95_test_vectors.md (V1 to V50) give, and, for every obligation with hypotheses, inputs that meet
them at the edges of their ranges. -/

namespace Sys2Proof.Tests

open Sys2Proof Sys2Proof.Machine

-- One theorem after another: each of them is a kernel evaluation, and too many at once run out of threads.
set_option Elab.async false

/-! ### States to start from, and what a step is asked -/

/-- The bytes `l` from address `a` on. -/
def at' (a : Nat) (l : List Nat) : Memory := l.mapIdx fun i v => (a + i, BitVec.ofNat 8 v)

/-- The reset state with some registers set and some bytes of BUF written. -/
def start (regs : List (Nat × Nat)) (mem : Memory) : State :=
  regs.foldl (fun s rv => s.setReg (Fin.ofNat 16 rv.1) (BitVec.ofNat 32 rv.2)) { State.reset with mem := mem }

/-- The same with the codec slot filled. -/
def startCodec (k n : Nat) (regs : List (Nat × Nat)) (mem : Memory) : State :=
  { start regs mem with codec := some (codecFor k n) }

/-- The step that runs command word `w`. -/
def run (w : Nat) (s : State) : Answer := step (s.withFetchWord 32 w)

/-- The step ends in a next state that passes the test. -/
def ends (a : Answer) (test : State → Bool) : Bool := match a with
  | .next t => test t
  | _ => false

/-- The command succeeds and leaves `v` in register `r`. -/
def leaves (w : Nat) (s : State) (r v : Nat) : Bool :=
  ends (run w s) fun t => t.response == some 0x00 && (t.reg (Fin.ofNat 16 r)).toNat == v

/-- The command succeeds and leaves the bytes `l` at `a`. -/
def stores (w : Nat) (s : State) (a : Nat) (l : List Nat) : Bool :=
  ends (run w s) fun t => t.response == some 0x00 && t.mem.readBytes a l.length == some (l.map (BitVec.ofNat 8))

/-- The command fails with the given code: latch and response hold it, no register and no byte of BUF has changed. -/
def fails (w : Nat) (s : State) (code : Nat) : Bool :=
  ends (run w s) fun t => t.response == some (BitVec.ofNat 8 code) && t.err == BitVec.ofNat 8 code && t.errs &&
    t.ecmd == BitVec.ofNat 32 w && t.eseq == s.cseq && t.cseq == s.cseq + 1 && t.x == s.x && t.mem == s.mem &&
    t.codec == s.codec

/-- The command fails with the given code and leaves the bytes `l` at `a`. -/
def failsLeaving (w : Nat) (s : State) (code a : Nat) (l : List Nat) : Bool :=
  ends (run w s) fun t => t.response == some (BitVec.ofNat 8 code) && t.x == s.x &&
    t.mem.readBytes a l.length == some (l.map (BitVec.ofNat 8))

/-- The model refuses, for the given reason. -/
def refusedAs (a : Answer) (r : Refusal) : Bool := match a with
  | .refused r' => r' == r
  | _ => false

/-- A step that passes a test has a next state. -/
theorem next_of_ends {a : Answer} {test : State → Bool} (h : ends a test = true) :
    ∃ t, a = .next t ∧ test t = true := by
  cases a with
  | next t => exact ⟨t, rfl, h⟩
  | fault f => cases h
  | refused r => cases h

/-! ### Well-formedness: the ill-formed terms, refused -/

theorem test_mfs_number_9_is_ill_formed : (Instr.mfs 1 9).wellFormed = false := by decide
theorem test_mfs_number_8_is_well_formed : (Instr.mfs 1 8).wellFormed = true := by decide
theorem test_mstd_policy_2_is_ill_formed : (Instr.mstd 1 2 3 2).wellFormed = false := by decide
theorem test_minv_policy_15_is_ill_formed : (Instr.minv 1 2 2 4 2 15).wellFormed = false := by decide

/-! ### Decoding: every constructor, by a word of R65; every reason to reject a word -/

theorem test_decode_system :
    decode 0x00000000 = .ok .nop ∧ decode 0x0150BEEF = .ok (.li 5 0xBEEF) ∧ decode 0x0250DEAD = .ok (.lih 5 0xDEAD) ∧
    decode 0x03250000 = .ok (.mov 2 5) ∧ decode 0x04480000 = .ok (.mfs 4 8) ∧ decode 0x05000000 = .ok .clrerr ∧
    decode 0x06460000 = .ok (.ldb 4 6) ∧ decode 0x07670000 = .ok (.stb 6 7) := by decide +kernel

theorem test_decode_scalar :
    decode 0x10312000 = .ok (.gfadd 3 1 2) ∧ decode 0x11312000 = .ok (.gfmul 3 1 2) ∧
    decode 0x12432000 = .ok (.gfdiv 4 3 2) ∧ decode 0x13B1A000 = .ok (.gfpow 11 1 10) ∧
    decode 0x14510000 = .ok (.gfinv 5 1) ∧ decode 0x15DC0000 = .ok (.gfexp 13 12) ∧
    decode 0x16C10000 = .ok (.gflog 12 1) := by decide +kernel

theorem test_decode_vector :
    decode 0x20F23000 = .ok (.vdot 15 2 3 0) ∧ decode 0x21567800 = .ok (.vaddmul 5 6 7 8) ∧
    decode 0x22A67900 = .ok (.peval 10 6 7 9) ∧ decode 0x23CB4800 = .ok (.pscale 12 11 4 8) ∧
    decode 0x24C67DE0 = .ok (.padd 12 6 7 13 14) ∧ decode 0x25123456 = .ok (.pdiv 1 2 3 4 5 6) := by decide +kernel

theorem test_decode_matrix :
    decode 0x30712354 = .ok (.mget 7 1 2 3 5 4) ∧ decode 0x31123526 = .ok (.mset 1 2 3 5 2 6) ∧
    decode 0x32BA6950 = .ok (.mrow 11 10 6 9 5) ∧ decode 0x33123450 = .ok (.mswap 1 2 3 4 5) ∧
    decode 0x34123420 = .ok (.mscale 1 2 3 4 2) ∧ decode 0x35123453 = .ok (.maddmul 1 2 3 4 5 3) ∧
    decode 0x36123001 = .ok (.mstd 1 2 3 1) ∧ decode 0x37122421 = .ok (.minv 1 2 2 4 2 1) ∧
    decode 0x38A86900 = .ok (.mpar 10 8 6 9) := by decide +kernel

theorem test_decode_codec :
    decode 0x40210000 = .ok (.fecnew 2 1) ∧ decode 0x41B00000 = .ok (.required 11) ∧
    decode 0x42C00000 = .ok (.total 12) ∧ decode 0x43FDE000 = .ok (.encget 15 13 14) ∧
    decode 0x441EF000 = .ok (.vandget 1 14 15) ∧ decode 0x45C00000 = .ok (.encdump 12) ∧
    decode 0x46D00000 = .ok (.vanddump 13) := by decide +kernel

theorem test_decode_shares :
    decode 0x50345000 = .ok (.encode 3 4 5) ∧ decode 0x51345B00 = .ok (.encsingle 3 4 5 11) ∧
    decode 0x52678900 = .ok (.rebuild 6 7 8 9) ∧ decode 0x60967000 = .ok (.synd 9 6 7) ∧
    decode 0x619678A0 = .ok (.bwb 9 6 7 8 10) ∧ decode 0x62789000 = .ok (.correct 7 8 9) ∧
    decode 0x63967800 = .ok (.decode 9 6 7 8) ∧ decode 0x649A6780 = .ok (.decnc 9 10 6 7 8) := by decide +kernel

/-- V1 to V6, and the 46th value of the opcode byte next to a legal one in each gap of the table. -/
theorem test_decode_rejects_by_name :
    decode 0xFF000000 = .error .unknownOpcode ∧ decode 0x08000000 = .error .unknownOpcode ∧
    decode 0x17000000 = .error .unknownOpcode ∧ decode 0x26000000 = .error .unknownOpcode ∧
    decode 0x39000000 = .error .unknownOpcode ∧ decode 0x47000000 = .error .unknownOpcode ∧
    decode 0x53000000 = .error .unknownOpcode ∧ decode 0x65000000 = .error .unknownOpcode ∧
    decode 0x00000001 = .error .unusedField ∧ decode 0x01110004 = .error .unusedField ∧
    decode 0x04190000 = .error .systemRegister ∧ decode 0x36123002 = .error .pivotPolicy ∧
    decode 0x3712242F = .error .pivotPolicy := by decide +kernel

/-! ### Encoding: the encoder gives the words of the examples back -/

theorem test_encode_words :
    encode (.li 5 0xBEEF) = 0x0150BEEF ∧ encode (.mfs 4 8) = 0x04480000 ∧ encode (.pdiv 1 2 3 4 5 6) = 0x25123456 ∧
    encode (.minv 1 2 2 4 2 1) = 0x37122421 ∧ encode (.decnc 9 10 6 7 8) = 0x649A6780 := by decide +kernel

/-! ### System, moves, single bytes (V1 to V17) -/

theorem test_illegal_word : fails 0xFF000000 State.reset 0x10 = true := by decide +kernel
theorem test_nop : ends (run 0x00000000 State.reset) (fun t => t == { State.reset with cseq := 1, response := some 0 }) =
    true := by decide +kernel
theorem test_li : leaves 0x0150BEEF State.reset 5 0xBEEF = true := by decide +kernel
theorem test_lih : leaves 0x0250DEAD (start [(5, 0x1234BEEF)] []) 5 0xDEADBEEF = true := by decide +kernel
theorem test_mov : leaves 0x03250000 (start [(5, 0xDEADBEEF)] []) 2 0xDEADBEEF = true := by decide +kernel
theorem test_mfs_cseq : leaves 0x04340000 { State.reset with cseq := 7 } 3 7 = true := by decide +kernel
theorem test_mfs_cfg : leaves 0x04B50000 (startCodec 4 8 [] []) 11 0x00080004 = true := by decide +kernel
theorem test_clrerr : ends (run 0x05000000 { State.reset with err := 6, errs := true, ecmd := 0x14100000, eseq := 3 })
    (fun t => t.err == 0 && t.errs == false && t.ecmd == 0 && t.eseq == 0 && t.cseq == 1) = true := by decide +kernel
theorem test_ldb : leaves 0x06460000 (start [(6, 0x100)] (at' 0x100 [0x8F])) 4 0x8F = true := by decide +kernel
theorem test_ldb_outside : fails 0x06210000 (start [(1, 0x1000)] []) 0x12 = true := by decide +kernel
theorem test_stb : stores 0x07670000 (start [(6, 0x100), (7, 0x1234ABCD)] []) 0x100 [0xCD] = true := by decide +kernel
theorem test_stb_last_byte : stores 0x07120000 (start [(1, 0xFFF)] []) 0xFFF [0x00] = true := by decide +kernel

/-! ### Scalar field (V18 to V32) -/

theorem test_gfadd : leaves 0x10312000 (start [(1, 0x53), (2, 0xCA)] []) 3 0x99 = true := by decide +kernel
theorem test_gfmul : leaves 0x11312000 (start [(1, 0xFFFF0053), (2, 0xCA)] []) 3 0x8F = true := by decide +kernel
theorem test_gfdiv : leaves 0x12312000 (start [(1, 0x8F), (2, 0xCA)] []) 3 0x53 = true := by decide +kernel
theorem test_gfdiv_zero_by_zero : fails 0x12100000 State.reset 0x05 = true := by decide +kernel
theorem test_gfpow : leaves 0x13312000 (start [(1, 0x53), (2, 3)] []) 3 0xD0 = true := by decide +kernel
theorem test_gfpow_zero_zero : leaves 0x13E00000 State.reset 14 1 = true := by decide +kernel
theorem test_gfinv : leaves 0x14310000 (start [(1, 0x53)] []) 3 0x8C = true := by decide +kernel
theorem test_gfinv_zero : fails 0x14100000 State.reset 0x06 = true := by decide +kernel
theorem test_gfexp : leaves 0x15210000 (start [(1, 509)] []) 2 0x8E = true := by decide +kernel
theorem test_gfexp_510 : fails 0x15210000 (start [(1, 510)] []) 0x11 = true := by decide +kernel
theorem test_gflog : leaves 0x16C10000 (start [(1, 0x53)] []) 12 0xCE = true := by decide +kernel
theorem test_gflog_zero : leaves 0x16100000 State.reset 1 0xFF = true := by decide +kernel

/-! ### Vectors and polynomials (V33, V34) -/

theorem test_vdot : leaves 0x20123400 (start [(2, 0x10), (3, 0x18), (4, 4)] (at' 0x10 [1, 2, 3, 4] ++ at' 0x18 [5, 6, 7, 8]))
    1 0x20 = true := by decide +kernel
theorem test_vdot_empty : leaves 0x20F23000 (start [(2, 0x10), (3, 0xFFFFFFFF), (15, 9)] []) 15 0 = true := by
  decide +kernel
theorem test_vaddmul : stores 0x21567800 (start [(5, 0x20), (6, 0x28), (7, 3), (8, 2)]
    (at' 0x20 [0x10, 0x20, 0x30] ++ at' 0x28 [1, 2, 3])) 0x20 [0x12, 0x24, 0x36] = true := by decide +kernel
theorem test_peval : leaves 0x22A67900 (start [(6, 0x28), (7, 3), (9, 0x53)] (at' 0x28 [1, 2, 3])) 10 0x70 = true := by
  decide +kernel
theorem test_pscale : stores 0x23CB4800 (start [(12, 0x48), (11, 0x30), (4, 4), (8, 2)] (at' 0x30 [1, 2, 0x80, 0]))
    0x48 [2, 4, 0x1D, 0] = true := by decide +kernel
theorem test_padd : stores 0x24C67DE0 (start [(12, 0x40), (6, 0x28), (7, 3), (13, 0x38), (14, 1)]
    (at' 0x28 [1, 2, 3] ++ at' 0x38 [0xFF])) 0x40 [1, 2, 0xFC] = true := by decide +kernel

/-- V34c: the quotient, at 0x510. -/
theorem test_pdiv : stores 0x25123456 (start [(1, 0x510), (2, 0x518), (3, 0x500), (4, 6), (5, 0x508), (6, 3)]
    (at' 0x500 [0, 0, 1, 2, 3, 4] ++ at' 0x508 [0, 2, 1])) 0x510 [0x8E, 0x46, 0xAC] = true := by decide +kernel

/-- V34d: a dividend shorter than the divisor; the lengths. -/
theorem test_pdiv_short : ends (run 0x25123456 (start [(1, 0x510), (2, 0x518), (3, 0x500), (4, 2), (5, 0x508), (6, 3)]
    (at' 0x500 [1, 2] ++ at' 0x508 [1, 2, 3]))) (fun t => t.len0 == 0 && t.len1 == 2 &&
      t.mem.readBytes 0x518 2 == some [1, 2]) = true := by decide +kernel

/-! ### Matrices (V35, V36) -/

/-- The 2 by 3 matrix of V35. -/
def small (m : List Nat) : State :=
  start [(1, 0x60), (2, 2), (3, 3), (4, 0), (5, 1), (6, 0x7F)] (at' 0x60 m)

theorem test_mswap : stores 0x33123450 (small [1, 2, 3, 4, 5, 6]) 0x60 [4, 5, 6, 1, 2, 3] = true := by decide +kernel
theorem test_mscale : stores 0x34123420 (small [4, 5, 6, 1, 2, 3]) 0x60 [8, 0xA, 0xC, 1, 2, 3] = true := by
  decide +kernel
theorem test_maddmul : stores 0x35123453 (small [8, 0xA, 0xC, 1, 2, 3]) 0x60 [8, 0xA, 0xC, 0x19, 0x1C, 0x17] = true := by
  decide +kernel
theorem test_mset : stores 0x31123526 (small [8, 0xA, 0xC, 0x19, 0x1C, 0x17]) 0x60 [8, 0xA, 0xC, 0x19, 0x1C, 0x7F] = true := by
  decide +kernel
theorem test_mget : leaves 0x30712354 (small [8, 0xA, 0xC, 0x19, 0x1C, 0x7F]) 7 0x19 = true := by decide +kernel
theorem test_mget_row_outside : fails 0x30102340 (start [(2, 2), (3, 3), (4, 2)] []) 0x11 = true := by decide +kernel
theorem test_mrow : leaves 0x32123450 (start [(2, 0x200), (3, 2), (4, 3), (5, 1)] []) 1 0x203 = true := by decide +kernel
theorem test_mstd_swap : stores 0x36123000 (start [(1, 0x60), (2, 2), (3, 4)] (at' 0x60 [0, 1, 2, 3, 1, 2, 4, 8]))
    0x60 [1, 0, 0, 0xE, 0, 1, 2, 3] = true := by decide +kernel
theorem test_mstd_strict_fails : failsLeaving 0x36123000 (start [(1, 0x60), (2, 3), (3, 3)]
    (at' 0x60 [1, 2, 3, 2, 4, 6, 0, 0, 5])) 0x07 0x60 [1, 2, 3, 0, 0, 0, 0, 0, 5] = true := by decide +kernel
theorem test_minv : stores 0x37122420 (start [(1, 0x60), (2, 3), (4, 0x69)]
    (at' 0x60 [1, 2, 3, 4, 5, 6, 7, 8, 0xA, 1, 0, 0, 0, 1, 0, 0, 0, 1])) 0x69
    [0x40, 0x5F, 0xDE, 0x9F, 0xDE, 0xFE, 0xD5, 0xA1, 0x15] = true := by decide +kernel
theorem test_minv_skip : stores 0x37122421 (start [(1, 0x60), (2, 3), (4, 0x69)]
    (at' 0x60 [1, 2, 3, 2, 4, 6, 0, 0, 5, 1, 0, 0, 0, 1, 0, 0, 0, 1])) 0x60
    [1, 2, 0, 0, 0, 0, 0, 0, 1, 5, 2, 0xF4, 2, 1, 0, 0, 0, 0xA7] = true := by decide +kernel
theorem test_mpar : stores 0x38123400 (start [(1, 0x80), (2, 0x60), (3, 2), (4, 4)]
    (at' 0x60 [1, 0, 2, 6, 0, 1, 3, 7])) 0x80 [2, 3, 1, 0, 6, 7, 0, 1] = true := by decide +kernel

/-! ### Codec construction (V37) -/

theorem test_fecnew : ends (run 0x40120000 (start [(1, 4), (2, 8)] [])) (fun t => t.valid && t.cfg == 0x00080004 &&
    (t.codec.map fun c => (c.enc.getD 4 [], c.vand.getD 3 [])) ==
      some ([0x77, 0x40, 0x38, 0x0E], [0x00, 0x01, 0x08, 0x40, 0x3A, 0xCD, 0x26, 0x2D])) = true := by decide +kernel
theorem test_fecnew_257 : fails 0x40120000 (start [(1, 4), (2, 257)] []) 0x01 = true := by decide +kernel
theorem test_required : leaves 0x41B00000 (startCodec 4 8 [] []) 11 4 = true := by decide +kernel
theorem test_total : leaves 0x42C00000 (startCodec 4 8 [] []) 12 8 = true := by decide +kernel
theorem test_encget : leaves 0x43FDE000 (startCodec 4 8 [(13, 5), (14, 2)] []) 15 0x0D = true := by decide +kernel
theorem test_encget_no_codec : fails 0x43123000 State.reset 0x13 = true := by decide +kernel
theorem test_vandget : leaves 0x441EF000 (startCodec 4 8 [(14, 3), (15, 7)] []) 1 0x2D = true := by decide +kernel
theorem test_encdump : stores 0x45C00000 (startCodec 2 4 [(12, 0x500)] []) 0x500 [1, 0, 0, 1, 3, 2, 5, 4] = true := by
  decide +kernel
theorem test_vanddump : stores 0x46D00000 (startCodec 2 4 [(13, 0x540)] []) 0x540 [1, 1, 1, 1, 0, 1, 2, 4] = true := by
  decide +kernel

/-! ### Encoding and rebuilding (V38 to V44) -/

/-- "hello, world! __". -/
def hello : List Nat := [0x68, 0x65, 0x6C, 0x6C, 0x6F, 0x2C, 0x20, 0x77, 0x6F, 0x72, 0x6C, 0x64, 0x21, 0x20, 0x5F, 0x5F]

/-- The four parity fragments of R141. -/
def parity : List Nat := [0xC4, 0x4C, 0xA9, 0x10, 0x30, 0x11, 0x12, 0x38, 0xD7, 0xE1, 0xD1, 0x20, 0xC8, 0x2E, 0x4C, 0x14]

theorem test_encode : stores 0x50345000 (startCodec 4 8 [(3, 0x100), (4, 0), (5, 16)] (at' 0 hello)) 0x110 parity = true := by
  decide +kernel
theorem test_encode_length : fails 0x50345000 (startCodec 4 8 [(3, 0x100), (4, 0), (5, 15)] (at' 0 hello)) 0x02 = true := by
  decide +kernel
theorem test_encsingle : stores 0x51345B00 (startCodec 4 8 [(3, 0x180), (4, 0), (5, 16), (11, 6)] (at' 0 hello)) 0x180
    [0xD7, 0xE1, 0xD1, 0x20] = true := by decide +kernel
theorem test_encsingle_index : fails 0x51345B00 (startCodec 4 8 [(3, 0x180), (4, 0), (5, 15), (11, 8)] (at' 0 hello)) 0x04 =
    true := by decide +kernel

/-- The bytes of a share list whose entries lie where R141 puts the fragments. -/
def listAt (nums : List Nat) : List Nat := nums.flatMap fun n => [n, 0, 0, 0, 4 * n, 1, 0, 0]

/-- The fragments of R141 at 0x100 with some bytes changed, a list of the given numbers at 0x200, the codec (4,8). -/
def shares (frags nums : List Nat) (regs : List (Nat × Nat)) : State :=
  startCodec 4 8 ([(6, 0x200), (7, nums.length), (8, 4), (9, 0x300), (10, 0x380)] ++ regs)
    (at' 0x100 frags ++ at' 0x200 (listAt nums))

/-- The fragments of R141. -/
def clean : List Nat := hello ++ parity

/-- The same with byte 1 of fragment 2 changed (R156). -/
def oneWrong : List Nat := clean.set 9 0x8D

theorem test_rebuild : stores 0x52967800 (shares clean [7, 1, 4, 2] []) 0x300 hello = true := by decide +kernel
theorem test_rebuild_bad_number : failsLeaving 0x52967800 (shares clean [7, 1, 9, 2] []) 0x04 0x200 (listAt [1, 2, 7, 9]) =
    true := by decide +kernel

/-! ### Berlekamp-Welch (V45 to V50) -/

theorem test_synd : stores 0x60967000 (shares clean [0, 1, 2, 3, 4, 5, 6, 7] []) 0x300
    [0x77, 0x40, 0x38, 0x0E, 1, 0, 0, 0, 0xC7, 0xA7, 0x0D, 0x6C, 0, 1, 0, 0, 0x53, 0x02, 0x6F, 0x3F, 0, 0, 1, 0, 0xF1, 0x7B,
      0x83, 0x08, 0, 0, 0, 1] = true := by decide +kernel
theorem test_bwb : stores 0x619678A0 (shares oneWrong [0, 1, 2, 3, 4, 5, 6, 7] [(10, 1)]) 0x300
    [0x65, 0x2C, 0x72, 0x20, 0x4C, 0x11, 0xE1, 0x2E] = true := by decide +kernel
theorem test_correct : stores 0x62678000 (shares oneWrong [0, 1, 2, 3, 4, 5, 6, 7] []) 0x100 clean = true := by
  decide +kernel

/-- V47: position 0 repaired, position 2 left wrong. -/
theorem test_correct_partial : failsLeaving 0x62678000
    (shares ((((clean.set 4 0xAA).set 2 1).set 10 2).set 18 3) [0, 1, 2, 3, 4, 5, 6, 7] []) 0x08 0x100
    (((clean.set 2 1).set 10 2).set 18 3) = true := by decide +kernel
theorem test_decode : stores 0x63967800 (shares oneWrong [5, 0, 7, 2, 1, 6, 3, 4] []) 0x300 hello = true := by decide +kernel
theorem test_decode_not_enough : failsLeaving 0x63967800 (shares (clean.set 4 0xAA) [0, 1, 2, 3, 4] []) 0x09 0x100
    (clean.set 4 0xAA) = true := by decide +kernel

/-- V50: the emission records. -/
theorem test_decnc : stores 0x649A6780 (shares (clean.set 19 0x11) [7, 1, 4, 2, 5, 6] []) 0x380
    [1, 0, 0, 0, 4, 3, 0, 0, 2, 0, 0, 0, 8, 3, 0, 0, 0, 0, 0, 0, 0, 3, 0, 0, 3, 0, 0, 0, 12, 3, 0, 0] = true := by
  decide +kernel

/-! ### The host -/

theorem test_unwritten_byte : refusedAs (run 0x06460000 (start [(6, 0x100)] [])) .unwrittenByte = true := by decide +kernel
theorem test_overlap : refusedAs (run 0x21567800 (start [(5, 0x20), (6, 0x22), (7, 3), (8, 2)] (at' 0x20 [1, 2, 3, 4, 5])))
    .overlappingRegions = true := by decide +kernel
theorem test_duplicate_numbers : refusedAs (run 0x52967800 (shares clean [7, 1, 7, 2] [])) .duplicateNumbers = true := by
  decide +kernel
theorem test_host_write_read : ends (step { State.reset with mem := at' 5 [9], inbox := [.read 5] })
    (fun t => t.hostData == some 9) = true := by decide +kernel
theorem test_reset_event : ends (step { startCodec 4 8 [(1, 7)] (at' 0 hello) with inbox := [.reset] })
    (fun t => t == State.reset) = true := by decide +kernel

/-! ### Witnesses: inputs that meet the hypotheses of the obligations, one clause after another -/

/-- A state about to take one action of the host. -/
def about (a : HostAction) (s : State) : State := { s with inbox := [a] }

theorem witness_DecodeInvertsEncode :
    (Instr.mfs 15 8).wellFormed = true ∧ (Instr.mstd 1 2 3 1).wellFormed = true ∧
    (Instr.minv 0 15 0 15 0 0).wellFormed = true ∧ (Instr.li 15 0xFFFF).wellFormed = true := by decide

theorem witness_EncodeInvertsDecode :
    decode 0x37122421 = .ok (.minv 1 2 2 4 2 1) ∧ decode 0x01F0FFFF = .ok (.li 15 0xFFFF) := by decide +kernel

theorem witness_IllegalWords : (about (.command 0x36123002) State.reset).inbox = .command 0x36123002 :: [] ∧
    ¬ WordLegal 0x36123002 ∧ ¬ WordLegal 0x04190000 ∧ ¬ WordLegal 0x65000000 ∧ WordLegal 0x36123001 := by
  unfold WordLegal; decide +kernel

theorem witness_ShareEntryLayout :
    (Share.mk 65535 [0xAA, 0xBB] 4294967295).Fits ∧ (Share.mk 0 [0, 0] 0).Fits := by decide

theorem witness_StepRunsTheDecodedCommand :
    (about (.command 0x0150BEEF) State.reset).inbox = .command 0x0150BEEF :: [] ∧
    decode 0x0150BEEF = .ok (.li 5 0xBEEF) := by decide +kernel

/-- Idle; a write and a read at the last address and past it; a read of a written byte. -/
theorem witness_HostReachesBuf :
    State.reset.inbox = [] ∧ (about (.write 4096 7) State.reset).inbox = .write 4096 7 :: [] ∧
    State.reset.memSize ≤ 4096 ∧ (about (.write 4095 7) State.reset).inbox = .write 4095 7 :: [] ∧
    4095 < State.reset.memSize ∧ (about (.read 4096) State.reset).inbox = .read 4096 :: [] ∧
    (about (.read 4095) State.reset).inbox = .read 4095 :: [] ∧ State.reset.mem.read 4095 = none ∧
    (about (.read 4095) (start [] (at' 4095 [7]))).mem.read 4095 = some 7 := by decide +kernel

theorem witness_ResetStateValues : (about .reset (startCodec 4 8 [(1, 7)] (at' 0 hello))).inbox = .reset :: [] := rfl

/-- A command that succeeds, one that fails and changes nothing, one that fails and leaves BUF changed. -/
theorem witness_FailureOnlyLatchesTheError :
    (∃ t, exec .nop State.reset = .next t) ∧ (∃ t, exec (.gfinv 1 0) State.reset = .next t) ∧
    ∃ t, exec (.mstd 1 2 2 0) (start [(1, 0x60), (2, 3)] (at' 0x60 [1, 2, 3, 2, 4, 6, 0, 0, 5])) = .next t := by
  refine ⟨⟨_, rfl⟩, ?_, ?_⟩ <;>
    exact (next_of_ends (test := fun _ => true) (by decide +kernel)).imp fun _ h => h.1

theorem witness_EveryCommandEndsWithACode :
    (∃ t, exec .clrerr State.reset = .next t) ∧
    refusedAs (exec (.ldb 4 6) (start [(6, 0x100)] [])) .unwrittenByte = true := ⟨⟨_, rfl⟩, by decide +kernel⟩

theorem witness_CseqCountsEveryCommand :
    (∃ t, accept 0xFF000000 State.reset = .next t) ∧ ∃ t, accept 0x00000000 State.reset = .next t := by
  refine ⟨?_, ?_⟩ <;> exact (next_of_ends (test := fun _ => true) (by decide +kernel)).imp fun _ h => h.1

theorem witness_OnlyFecnewWritesTheCodecSlot :
    ∃ t, exec (.fecnew 1 2) (start [(1, 1), (2, 1)] []) = .next t ∧ t.codec ≠ (start [(1, 1), (2, 1)] []).codec ∧
      t.response = some 0x00 :=
  (next_of_ends (a := exec (.fecnew 1 2) (start [(1, 1), (2, 1)] []))
    (test := fun t => t.codec != none && t.response == some 0x00) (by decide +kernel)).imp fun _ h => by
      simp only [Bool.and_eq_true, bne_iff_ne, beq_iff_eq] at h
      exact ⟨h.1, h.2.1, h.2.2⟩

/-- A PDIV that changes LEN0. -/
theorem witness_CommandsWriteOnlyTheirDestination :
    ∃ t, exec (.pdiv 1 2 3 4 5 6) (start [(1, 0), (2, 8), (3, 16), (4, 1), (5, 17), (6, 1)] (at' 16 [6, 3])) = .next t ∧
      t.len0 ≠ 0 :=
  (next_of_ends (test := fun t => t.len0 != 0) (by decide +kernel)).imp fun _ h => ⟨h.1, by simpa using h.2⟩

theorem witness_CodecCommandsNeedACodec : usesCodec (.required 1) = true ∧ usesCodec (.decnc 1 2 3 4 5) = true ∧
    State.reset.codec = none := by decide

theorem witness_CheckPriorityExamples :
    (startCodec 4 8 [(1, 8)] []).codec = some (codecFor 4 8) ∧ (codecFor 4 8).n ≤ (startCodec 4 8 [(1, 8)] []).num 1 ∧
    (start [] []).num 2 ≤ (start [] []).num 4 ∧ (startCodec 4 8 [(1, 3)] []).num 1 < (codecFor 4 8).k ∧
    (codecFor 4 8).k ≤ (startCodec 4 8 [(1, 4)] []).num 1 ∧
    (startCodec 4 8 [(1, 4)] []).num 1 ≤ (startCodec 4 8 [(1, 4)] []).num 1 := by decide +kernel

theorem legal_codecFor {k n : Nat} (h1 : 1 ≤ k) (h2 : k ≤ n) (h3 : n ≤ 256) : (codecFor k n).Legal :=
  ⟨h1, h2, h3, rfl, rfl⟩

/-- A good state with a codec, a written BUF and a full latch, about to run a command; it has a next state. -/
theorem witness_StepKeepsTheInvariant :
    ∃ s t : State, s.Inv ∧ s.codec ≠ none ∧ s.mem ≠ [] ∧ step s = .next t := by
  refine ⟨about (.command 0x0150BEEF) { startCodec 2 3 [] (at' 4095 [7]) with errs := true, err := 0x05 }, ?_⟩
  obtain ⟨t, h, -⟩ := next_of_ends (test := fun _ => true)
    (a := step (about (.command 0x0150BEEF) { startCodec 2 3 [] (at' 4095 [7]) with errs := true, err := 0x05 }))
    (by decide +kernel)
  refine ⟨t, ⟨by decide +kernel, by decide +kernel, ?_, .inl ⟨rfl, by decide⟩, nofun, by decide +kernel⟩, nofun, nofun, h⟩
  rintro c hc
  cases hc
  exact legal_codecFor (by decide) (by decide) (by decide)

theorem witness_MfsReadsSystemRegisters : (0 : Nibble).val < 9 ∧ (8 : Nibble).val < 9 := by decide

/-- BUF written at its very top, addresses and lengths that just fit and that do not. -/
def top : State :=
  start [(1, 4088), (2, 4), (3, 4092), (4, 4093), (6, 3), (8, 4095), (9, 4096), (10, 1)] (at' 4088 [1, 2, 3, 4, 5, 6, 7, 8])

theorem witness_SingleByteLoadAndStore :
    top.memSize ≤ top.num 9 ∧ top.num 8 < top.memSize ∧ top.mem.read (top.num 8) = some 8 ∧
    top.num 0 < top.memSize ∧ top.mem.read (top.num 0) = none := by decide +kernel

theorem witness_GfdivAndGfinv :
    (State.reset.reg 0).setWidth 8 = (0 : Byte) ∧ ((start [(1, 0xFFFFFF00)] []).reg 1).setWidth 8 = (0 : Byte) ∧
    ((start [(1, 0xFFFFFF01)] []).reg 1).setWidth 8 ≠ (0 : Byte) := by decide +kernel

theorem witness_GfexpAndGflog :
    509 < (start [(1, 510)] []).num 1 ∧ (start [(1, 509)] []).num 1 ≤ 509 := by decide +kernel

theorem witness_FieldLawsHold : (255 : Byte) ≠ 0 ∧ 0 < 254 ∧ 254 ≤ 254 := by decide

theorem witness_VdotSumsProducts :
    ¬ (Inside top (top.num 1) (top.num 2) ∧ Inside top (top.num 4) (top.num 2)) ∧
    [1, 2, 3, 4].length = top.num 2 ∧ Inside top (top.num 1) (top.num 2) ∧ Inside top (top.num 3) (top.num 2) ∧
    Holds top (top.num 1) [1, 2, 3, 4] ∧ Holds top (top.num 3) [5, 6, 7, 8] ∧
    Inside top (top.num 9) (top.num 0) ∧ Holds top (top.num 9) [] := by decide +kernel

theorem witness_VaddmulAccumulates :
    ¬ (Inside top (top.num 4) (top.num 2) ∧ Inside top (top.num 1) (top.num 2)) ∧
    Inside top (top.num 1) (top.num 2) ∧ Inside top (top.num 3) (top.num 2) ∧
    Apart (top.num 1) (top.num 2) (top.num 3) (top.num 2) ∧ Holds top (top.num 1) [1, 2, 3, 4] ∧
    Holds top (top.num 3) [5, 6, 7, 8] := by decide +kernel

theorem witness_PevalSumsTerms : ¬ Inside top (top.num 4) (top.num 2) ∧ [5, 6, 7, 8].length = top.num 2 ∧
    Inside top (top.num 3) (top.num 2) ∧ Holds top (top.num 3) [5, 6, 7, 8] := by decide +kernel

theorem witness_Pscale :
    ¬ (Inside top (top.num 4) (top.num 2) ∧ Inside top (top.num 3) (top.num 2)) ∧ [5, 6, 7, 8].length = top.num 2 ∧
    Inside top (top.num 1) (top.num 2) ∧ Inside top (top.num 3) (top.num 2) ∧
    Apart (top.num 1) (top.num 2) (top.num 3) (top.num 2) ∧ Holds top (top.num 3) [5, 6, 7, 8] := by decide +kernel

/-- Destination at 0, operands of 4 and 3 coefficients. -/
theorem witness_Padd :
    ¬ (Inside top (top.num 4) (max (top.num 2) (top.num 6)) ∧ Inside top (top.num 1) (top.num 2) ∧
      Inside top (top.num 3) (top.num 6)) ∧
    Inside top (top.num 0) (max (top.num 2) (top.num 6)) ∧ Inside top (top.num 1) (top.num 2) ∧
    Inside top (top.num 3) (top.num 6) ∧ Apart (top.num 0) (max (top.num 2) (top.num 6)) (top.num 1) (top.num 2) ∧
    Apart (top.num 0) (max (top.num 2) (top.num 6)) (top.num 3) (top.num 6) ∧ Holds top (top.num 1) [1, 2, 3, 4] ∧
    Holds top (top.num 3) [5, 6, 7] := by decide +kernel

/-- Dividend `01 00 01`, divisor `01 01` (V34a): quotient of 2 and remainder of 1 element, at 0x510 and 0x518; and a
divisor of zeros. -/
def division : State := start [(1, 0x510), (2, 0x518), (3, 0x500), (4, 3), (5, 0x508), (6, 2), (7, 0x50A), (9, 4096)]
  (at' 0x500 [1, 0, 1] ++ at' 0x508 [1, 1, 0, 0])

theorem witness_PdivDividesWithRemainder :
    ¬ (Inside division (division.num 9) (division.num 4) ∧ Inside division (division.num 5) (division.num 6)) ∧
    Inside division (division.num 3) (division.num 4) ∧ Inside division (division.num 5) (division.num 6) ∧
    Holds division (division.num 3) [1, 0, 1] ∧ Holds division (division.num 5) [1, 1] ∧ (∃ b ∈ [1, (1 : Byte)], b ≠ 0) ∧
    Holds division (division.num 7) [0, 0] ∧ (∀ b ∈ [0, (0 : Byte)], b = 0) ∧
    ¬ (Inside division (division.num 9) [1, (1 : Byte)].length ∧ Inside division (division.num 2) [(0 : Byte)].length) ∧
    Inside division (division.num 1) [1, (1 : Byte)].length ∧ Inside division (division.num 2) [(0 : Byte)].length ∧
    Apart (division.num 1) 2 (division.num 2) 1 ∧ Apart (division.num 1) 2 (division.num 3) (division.num 4) ∧
    Apart (division.num 1) 2 (division.num 5) (division.num 6) ∧ Apart (division.num 2) 1 (division.num 3) (division.num 4) ∧
    Apart (division.num 2) 1 (division.num 5) (division.num 6) := by decide +kernel

/-- A 2 by 4 matrix in the last eight bytes of BUF; the same one byte further lies outside. -/
def matrix : State := start [(1, 4088), (2, 2), (3, 4), (4, 1), (5, 3), (6, 2), (7, 4089), (9, 0x100)]
  (at' 4088 [1, 1, 1, 1, 1, 2, 4, 8])

theorem witness_MatrixElementsAndRowAddress :
    ¬ (matrix.num 6 < matrix.num 2 ∧ matrix.num 5 < matrix.num 3) ∧ matrix.num 4 < matrix.num 2 ∧
    matrix.num 5 < matrix.num 3 ∧ ¬ Inside matrix (matrix.num 7) (matrix.num 2 * matrix.num 3) ∧
    Inside matrix (matrix.num 1) (matrix.num 2 * matrix.num 3) ∧
    matrix.mem.read (matrix.num 1 + matrix.num 4 * matrix.num 3 + matrix.num 5) = some 8 ∧
    matrix.num 2 ≤ matrix.num 6 := by decide +kernel

theorem witness_RowOperations :
    ¬ (matrix.num 0 < matrix.num 2 ∧ matrix.num 6 < matrix.num 2) ∧ matrix.num 2 ≤ matrix.num 6 ∧
    matrix.num 0 < matrix.num 2 ∧ ¬ Inside matrix (matrix.num 7) (matrix.num 2 * matrix.num 3) ∧
    matrix.num 4 < matrix.num 2 ∧ Inside matrix (matrix.num 1) (matrix.num 2 * matrix.num 3) ∧
    [1, 1, 1, 1].length = matrix.num 3 ∧ Holds matrix (matrix.num 1 + matrix.num 0 * matrix.num 3) [1, 1, 1, 1] ∧
    Holds matrix (matrix.num 1 + matrix.num 4 * matrix.num 3) [1, 2, 4, 8] := by decide +kernel

/-- V36a, V36c, V36d: a matrix STRICT reduces, one it fails on, and what SKIP makes of that. -/
theorem witness_MstdReducesInPlace :
    (1 : Nibble).val ≤ 1 ∧ matrix.num 2 < matrix.num 3 ∧
    matrix.num 2 ≤ matrix.num 3 ∧ ¬ Inside matrix (matrix.num 7) (matrix.num 2 * matrix.num 3) ∧
    Inside matrix (matrix.num 1) (matrix.num 2 * matrix.num 3) ∧
    (IsMatrix (matrix.num 2) (matrix.num 3) [[1, 1, 1, 1], [1, 2, 4, 8]] ∧
      Holds matrix (matrix.num 1) [[1, 1, 1, 1], [1, 2, 4, 8]].flatten) ∧
    eliminate .strict (soleRows [[1, 1, 1, 1], [1, 2, 4, 8]]) = .ok (soleRows [[1, 0, 2, 6], [0, 1, 3, 7]]) ∧
    eliminate .strict (soleRows [[1, 2, 3], [2, 4, 6], [0, 0, 5]]) =
      .error (soleRows [[1, 2, 3], [0, 0, 0], [0, 0, 5]]) ∧
    eliminate .skip (soleRows [[1, 2, 3], [2, 4, 6], [0, 0, 5]]) =
      .ok (soleRows [[1, 2, 0], [0, 0, 0], [0, 0, 1]]) := by
  unfold IsMatrix; decide +kernel

/-- The 3 by 3 matrices of V36e to V36g with the identity beside them. -/
def inversion (m : List Nat) : State :=
  start [(1, 0x60), (2, 3), (4, 0x69), (5, 2), (7, 4090)] (at' 0x60 (m ++ [1, 0, 0, 0, 1, 0, 0, 0, 1]))

theorem witness_MinvEliminatesBothMatrices :
    policyOf 0 = some .strict ∧ policyOf 1 = some .skip ∧
    (let s := inversion [1, 2, 3, 4, 5, 6, 7, 8, 10]
     s.num 5 < s.num 2 ∧ s.num 2 ≤ s.num 2 ∧
     ¬ (Inside s (s.num 1) (s.num 2 * s.num 2) ∧ Inside s (s.num 7) (s.num 2 * s.num 2)) ∧
     Inside s (s.num 1) (s.num 2 * s.num 2) ∧ Inside s (s.num 4) (s.num 2 * s.num 2) ∧
     Apart (s.num 1) (s.num 2 * s.num 2) (s.num 4) (s.num 2 * s.num 2) ∧
     IsMatrix (s.num 2) (s.num 2) [[1, 2, 3], [4, 5, 6], [7, 8, 10]] ∧ IsMatrix (s.num 2) (s.num 2) (identity 3) ∧
     Holds s (s.num 1) [[1, 2, 3], [4, 5, 6], [7, 8, 10]].flatten ∧ Holds s (s.num 4) (identity 3).flatten) ∧
    eliminate .strict (pairRows [[1, 2, 3], [4, 5, 6], [7, 8, 10]] (identity 3)) =
      .ok (pairRows (identity 3) [[0x40, 0x5F, 0xDE], [0x9F, 0xDE, 0xFE], [0xD5, 0xA1, 0x15]]) ∧
    eliminate .strict (pairRows [[1, 2, 3], [2, 4, 6], [0, 0, 5]] (identity 3)) =
      .error (pairRows [[1, 2, 3], [0, 0, 0], [0, 0, 5]] [[1, 0, 0], [2, 1, 0], [0, 0, 1]]) := by
  unfold IsMatrix; decide +kernel

theorem witness_CompanionRecordsRowOperations :
    IsMatrix 2 4 [[0, 1, 2, 3], [1, 2, 4, 8]] ∧ 2 ≤ 4 ∧
    eliminate .strict (pairRows [[0, 1, 2, 3], [1, 2, 4, 8]] (identity 2)) =
      .ok (pairRows [[1, 0, 0, 14], [0, 1, 2, 3]] [[2, 1], [1, 0]]) := by
  unfold IsMatrix; decide +kernel

theorem witness_MparWritesTheParityMatrix :
    matrix.num 2 < matrix.num 3 ∧ matrix.num 2 ≤ matrix.num 3 ∧
    ¬ (Inside matrix (matrix.num 7) (matrix.num 2 * matrix.num 3) ∧
      Inside matrix (matrix.num 9) ((matrix.num 3 - matrix.num 2) * matrix.num 3)) ∧
    Inside matrix (matrix.num 1) (matrix.num 2 * matrix.num 3) ∧
    Inside matrix (matrix.num 9) ((matrix.num 3 - matrix.num 2) * matrix.num 3) ∧
    Apart (matrix.num 9) ((matrix.num 3 - matrix.num 2) * matrix.num 3) (matrix.num 1) (matrix.num 2 * matrix.num 3) ∧
    ∀ j, j < matrix.num 2 → ∀ k, k < matrix.num 3 → matrix.num 2 ≤ k →
      matrix.mem.read (matrix.num 1 + j * matrix.num 3 + k) =
        some (if j = 0 then 1 else if k = 2 then 4 else 8) := by decide +kernel

theorem witness_FecnewFillsTheSlot :
    (let s := start [(1, 0), (2, 257), (3, 256), (4, 1)] []
     ¬ (1 ≤ s.num 1 ∧ s.num 1 ≤ s.num 3 ∧ s.num 3 ≤ 256) ∧ ¬ (1 ≤ s.num 4 ∧ s.num 4 ≤ s.num 2 ∧ s.num 2 ≤ 256) ∧
     ¬ (1 ≤ s.num 3 ∧ s.num 3 ≤ s.num 4 ∧ s.num 4 ≤ 256) ∧ (1 ≤ s.num 4 ∧ s.num 4 ≤ s.num 4 ∧ s.num 4 ≤ 256) ∧
     (1 ≤ s.num 3 ∧ s.num 3 ≤ s.num 3 ∧ s.num 3 ≤ 256)) := by decide +kernel

/-- The bounds of EncIsTheInterpolationMatrix and VandHoldsPowersOfThePoints, and a polynomial. -/
theorem witness_codecMatrices : 1 ≤ 1 ∧ 1 ≤ 256 ∧ 256 ≤ 256 ∧ [(7 : Byte)].length = 1 := by decide

theorem witness_CodecReads :
    (let s := startCodec 4 8 [(1, 7), (2, 3), (3, 8), (4, 4)] []
     s.codec = some (codecFor 4 8) ∧ ¬ (s.num 3 < 8 ∧ s.num 2 < 4) ∧ (s.num 1 < 8 ∧ s.num 2 < 4) ∧
     ¬ (s.num 4 < 4 ∧ s.num 1 < 8) ∧ (s.num 2 < 4 ∧ s.num 1 < 8)) := by decide +kernel

theorem witness_CodecDumps :
    (let s := startCodec 2 4 [(1, 4088), (2, 4089)] []
     s.codec = some (codecFor 2 4) ∧ (codecFor 2 4).Legal ∧ ¬ Inside s (s.num 2) (4 * 2) ∧ Inside s (s.num 1) (4 * 2)) :=
  ⟨rfl, legal_codecFor (by decide) (by decide) (by decide), by decide +kernel, by decide +kernel⟩

/-- Setting S of 95_test_vectors.md, and lengths and places at the edges. -/
def data : State :=
  startCodec 4 8 [(3, 0x100), (4, 0), (5, 16), (6, 15), (7, 7), (8, 8), (9, 4065), (10, 4064)] (at' 0 hello)

/-- The input of `data` as bytes. -/
def helloBytes : List Byte := hello.map (BitVec.ofNat 8)

theorem witness_EncodeWritesAllFragments :
    data.codec = some (codecFor 4 8) ∧ data.num 6 % 4 ≠ 0 ∧ data.num 5 % 4 = 0 ∧
    ¬ (Inside data (data.num 4) (data.num 5) ∧ Inside data (data.num 9) (8 * (data.num 5 / 4))) ∧
    helloBytes.length = data.num 5 ∧ Inside data (data.num 4) (data.num 5) ∧
    Inside data (data.num 10) (8 * (data.num 5 / 4)) ∧
    Apart (data.num 10) (8 * (data.num 5 / 4)) (data.num 4) (data.num 5) ∧ Holds data (data.num 4) helloBytes := by
  decide +kernel

theorem witness_EncsingleWritesOneFragment :
    8 ≤ data.num 8 ∧ data.num 7 < 8 ∧ data.num 6 % 4 ≠ 0 ∧ data.num 5 % 4 = 0 ∧
    (let s := data.setReg 9 4093
     ¬ (Inside s (s.num 4) (s.num 5) ∧ Inside s (s.num 9) (s.num 5 / 4))) ∧
    (let s := data.setReg 9 4092
     Inside s (s.num 4) (s.num 5) ∧ Inside s (s.num 9) (s.num 5 / 4) ∧
     Apart (s.num 9) (s.num 5 / 4) (s.num 4) (s.num 5) ∧ Holds s (s.num 4) helloBytes) := by decide +kernel

/-! ### Witnesses about share lists -/

/-- The entries of `listAt`. -/
def entries (nums : List Nat) : List Share := nums.map fun n => ⟨n, [0, 0], 0x100 + 4 * n⟩

/-- The fragments of `shares`. -/
def fragments (frags nums : List Nat) : List Fragment :=
  nums.map fun n => ⟨n, 0x100 + 4 * n, ((frags.drop (4 * n)).take 4).map (BitVec.ofNat 8)⟩

/-- The list 7, 1, 4, 2 of R146 passes the front end, with the output of REBUILD. -/
theorem goodList_4 : GoodList (shares clean [7, 1, 4, 2] []) (codecFor 4 8) 0x200 4 (entries [7, 1, 4, 2])
    (entries [1, 2, 4, 7]) [⟨0x300, 16⟩] where
  codec := rfl
  enough := by decide
  count := rfl
  fits := by decide +kernel
  held := by decide +kernel
  inside := by decide +kernel
  outsInside := by decide +kernel
  sameEntries := by decide +kernel
  ascending := by decide +kernel

theorem goodData_4 : GoodData (shares clean [7, 1, 4, 2] []) 0x200 4 4 (entries [1, 2, 4, 7]) [⟨0x300, 16⟩]
    (fragments clean [1, 2, 4, 7]) where
  shares := by decide +kernel
  length := by decide +kernel
  held := by decide +kernel
  inside := by decide +kernel
  apart := by decide +kernel

theorem goodNumbers_4 : GoodNumbers (codecFor 4 8) (entries [1, 2, 4, 7]) := by decide +kernel

/-- The list 5, 0, 7, 2, 1, 6, 3, 4 of R159 passes the front end, whatever the output region is that lies inside BUF. -/
theorem goodList_8 (frags : List Nat) (h : frags = clean ∨ frags = oneWrong) (outs : List Region)
    (ho : ∀ r ∈ outs, Inside (shares frags [5, 0, 7, 2, 1, 6, 3, 4] [(11, 1)]) r.start r.len) :
    GoodList (shares frags [5, 0, 7, 2, 1, 6, 3, 4] [(11, 1)]) (codecFor 4 8) 0x200 8 (entries [5, 0, 7, 2, 1, 6, 3, 4])
      (entries [0, 1, 2, 3, 4, 5, 6, 7]) outs where
  codec := rfl
  enough := by decide
  count := rfl
  fits := by decide +kernel
  held := by rcases h with rfl | rfl <;> decide +kernel
  inside := by rcases h with rfl | rfl <;> decide +kernel
  outsInside := ho
  sameEntries := by decide +kernel
  ascending := by decide +kernel

theorem goodNumbers_8 : GoodNumbers (codecFor 4 8) (entries [0, 1, 2, 3, 4, 5, 6, 7]) := by decide +kernel

theorem goodData_8 (outs : List Region)
    (ho : ((fragments oneWrong [0, 1, 2, 3, 4, 5, 6, 7]).map (fun f => Region.mk f.addr 4) ++ outs ++
      [Region.mk 0x200 64]).Pairwise fun a b => Apart a.start a.len b.start b.len) :
    GoodData (shares oneWrong [5, 0, 7, 2, 1, 6, 3, 4] [(11, 1)]) 0x200 8 4 (entries [0, 1, 2, 3, 4, 5, 6, 7]) outs
      (fragments oneWrong [0, 1, 2, 3, 4, 5, 6, 7]) where
  shares := by decide +kernel
  length := by decide +kernel
  held := by decide +kernel
  inside := by decide +kernel
  apart := ho

theorem witness_ShareListChecks :
    IsListCommand (.rebuild 9 6 7 8) (shares clean [7, 1, 9, 2] []) (codecFor 4 8) 0x200 4 [⟨0x300, 16⟩] ∧
    GoodList (shares clean [7, 1, 9, 2] []) (codecFor 4 8) 0x200 4 (entries [7, 1, 9, 2]) (entries [1, 2, 7, 9])
      [⟨0x300, 16⟩] ∧ ¬ GoodNumbers (codecFor 4 8) (entries [1, 2, 7, 9]) ∧
    ¬ ((entries [7, 1, 7, 2]).map (·.num)).Nodup ∧ Holds (shares clean [7, 1, 7, 2] []) 0x200 (listBytes (entries [7, 1, 7, 2])) ∧
    ¬ Inside (shares clean [7, 1, 4, 2] [(6, 4065)]) 4065 (8 * 4) ∧
    ¬ (∀ r ∈ dataOf (.rebuild 9 6 7 8) (shares clean [7, 1, 4, 2] [(8, 4000)]) (entries [1, 2, 4, 7]),
      Inside (shares clean [7, 1, 4, 2] [(8, 4000)]) r.start r.len) := by
  refine ⟨⟨9, 0, 6, 7, 8, 0, by decide +kernel, by decide +kernel, .inl ⟨rfl, by decide +kernel⟩⟩,
    ⟨rfl, by decide, rfl, by decide +kernel, by decide +kernel, by decide +kernel, by decide +kernel, by decide +kernel,
      by decide +kernel⟩, by decide +kernel, by decide +kernel, by decide +kernel, by decide +kernel, by decide +kernel⟩

theorem witness_RebuildStoresTheBlocks :
    ((shares clean [7, 1, 4, 2] []).num 6 = 0x200 ∧ (shares clean [7, 1, 4, 2] []).num 7 = 4 ∧
      (shares clean [7, 1, 4, 2] []).num 8 = 4 ∧ (shares clean [7, 1, 4, 2] []).num 9 = 0x300) ∧
    rebuildBlocks (codecFor 4 8) 4 (fragments clean [1, 2, 4, 7]) =
      .ok [[0x68, 0x65, 0x6C, 0x6C], [0x6F, 0x2C, 0x20, 0x77], [0x6F, 0x72, 0x6C, 0x64], [0x21, 0x20, 0x5F, 0x5F]] := by
  decide +kernel

theorem sortedFragments_4 : SortedFragments (codecFor 4 8) (fragments clean [1, 2, 4, 7]) :=
  ⟨by decide +kernel, by decide +kernel, by decide +kernel⟩

theorem witness_RebuildRecoversTheData :
    (codecFor 4 8).Legal ∧ helloBytes.length = (codecFor 4 8).k * 4 ∧
    AreEncodedFrom (codecFor 4 8) 4 helloBytes (fragments clean [1, 2, 4, 7]) := by
  refine ⟨legal_codecFor (by decide) (by decide) (by decide), by decide +kernel, ?_⟩
  unfold AreEncodedFrom; decide +kernel

theorem witness_SyndStoresTheSyndromeMatrix :
    GoodList (shares clean [5, 0, 7, 2, 1, 6, 3, 4] [(11, 1)]) (codecFor 4 8) 0x200 8 (entries [5, 0, 7, 2, 1, 6, 3, 4])
      (entries [0, 1, 2, 3, 4, 5, 6, 7]) [⟨0x300, 32⟩] ∧ Apart 0x300 ((8 - 4) * 8) 0x200 (8 * 8) ∧
    syndrome (codecFor 4 8) ((entries [0, 1, 2, 3, 4, 5, 6, 7]).map (·.num)) =
      .ok [[0x77, 0x40, 0x38, 0x0E, 1, 0, 0, 0], [0xC7, 0xA7, 0x0D, 0x6C, 0, 1, 0, 0],
        [0x53, 0x02, 0x6F, 0x3F, 0, 0, 1, 0], [0xF1, 0x7B, 0x83, 0x08, 0, 0, 0, 1]] :=
  ⟨goodList_8 _ (.inl rfl) _ (by decide +kernel), by decide, by decide +kernel⟩

theorem witness_SyndromeAnnihilatesCodewords :
    SortedFragments (codecFor 4 8) (fragments clean [0, 1, 2, 3, 4, 5, 6, 7]) ∧
    AreEncodedFrom (codecFor 4 8) 4 helloBytes (fragments clean [0, 1, 2, 3, 4, 5, 6, 7]) ∧ 3 < 4 := by
  refine ⟨⟨by decide +kernel, by decide +kernel, by decide +kernel⟩, ?_, by decide⟩
  unfold AreEncodedFrom; decide +kernel

theorem witness_BwbStoresCorrectedBytes :
    GoodList (shares oneWrong [5, 0, 7, 2, 1, 6, 3, 4] [(11, 1)]) (codecFor 4 8) 0x200 8 (entries [5, 0, 7, 2, 1, 6, 3, 4])
      (entries [0, 1, 2, 3, 4, 5, 6, 7]) [⟨0x300, 8⟩] ∧
    GoodData (shares oneWrong [5, 0, 7, 2, 1, 6, 3, 4] [(11, 1)]) 0x200 8 4 (entries [0, 1, 2, 3, 4, 5, 6, 7])
      [⟨0x300, 8⟩] (fragments oneWrong [0, 1, 2, 3, 4, 5, 6, 7]) ∧
    (shares oneWrong [5, 0, 7, 2, 1, 6, 3, 4] [(11, 1)]).num 11 = 1 ∧
    bw (codecFor 4 8) (fragments oneWrong [0, 1, 2, 3, 4, 5, 6, 7]) 1 =
      .ok [0x65, 0x2C, 0x72, 0x20, 0x4C, 0x11, 0xE1, 0x2E] ∧
    bw (codecFor 4 8) (fragments (((clean.set 2 1).set 10 2).set 18 3) [0, 1, 2, 3, 4, 5, 6, 7]) 2 =
      .error .uncorrectableErrors :=
  ⟨goodList_8 _ (.inr rfl) _ (by decide +kernel), goodData_8 _ (by decide +kernel), by decide +kernel, by decide +kernel,
    by decide +kernel⟩

/-- CORRECT has no output; a repair that works and one that ends at byte position 2. -/
theorem witness_CorrectRepairsInPlace :
    GoodList (shares oneWrong [5, 0, 7, 2, 1, 6, 3, 4] [(11, 1)]) (codecFor 4 8) 0x200 8 (entries [5, 0, 7, 2, 1, 6, 3, 4])
      (entries [0, 1, 2, 3, 4, 5, 6, 7]) [] ∧
    GoodData (shares oneWrong [5, 0, 7, 2, 1, 6, 3, 4] [(11, 1)]) 0x200 8 4 (entries [0, 1, 2, 3, 4, 5, 6, 7])
      [] (fragments oneWrong [0, 1, 2, 3, 4, 5, 6, 7]) ∧
    correctFragments (codecFor 4 8) 4 (fragments oneWrong [0, 1, 2, 3, 4, 5, 6, 7]) =
      .ok (fragments clean [0, 1, 2, 3, 4, 5, 6, 7]) ∧
    correctFragments (codecFor 4 8) 4 (fragments ((((clean.set 4 0xAA).set 2 1).set 10 2).set 18 3) [0, 1, 2, 3, 4, 5, 6, 7]) =
      .error (.uncorrectableErrors, fragments (((clean.set 2 1).set 10 2).set 18 3) [0, 1, 2, 3, 4, 5, 6, 7]) :=
  ⟨goodList_8 _ (.inr rfl) _ (by decide +kernel), goodData_8 _ (by decide +kernel), by decide +kernel, by decide +kernel⟩

/-- Two wrong bytes at one position, the bound for eight fragments of the (4,8) code. -/
theorem witness_BerlekampWelchCorrectsUpToE :
    (codecFor 4 8).Legal ∧ SortedFragments (codecFor 4 8) (fragments (oneWrong.set 13 0) [0, 1, 2, 3, 4, 5, 6, 7]) ∧
    1 ≤ ((fragments (oneWrong.set 13 0) [0, 1, 2, 3, 4, 5, 6, 7]).length - (codecFor 4 8).k) / 2 ∧
    wrongAt (codecFor 4 8) 4 helloBytes (fragments (oneWrong.set 13 0) [0, 1, 2, 3, 4, 5, 6, 7]) 1 = 2 ∧
    (∀ f ∈ fragments (oneWrong.set 13 0) [0, 1, 2, 3, 4, 5, 6, 7], f.data.length = 4) ∧
    ∀ p, p < 4 → wrongAt (codecFor 4 8) 4 helloBytes (fragments (oneWrong.set 13 0) [0, 1, 2, 3, 4, 5, 6, 7]) p ≤ 2 :=
  ⟨legal_codecFor (by decide) (by decide) (by decide), ⟨by decide +kernel, by decide +kernel, by decide +kernel⟩,
    by decide +kernel, by decide +kernel, by decide +kernel, by decide +kernel⟩

theorem witness_DecodeCorrectsThenRebuilds :
    GoodList (shares oneWrong [5, 0, 7, 2, 1, 6, 3, 4] [(11, 1)]) (codecFor 4 8) 0x200 8 (entries [5, 0, 7, 2, 1, 6, 3, 4])
      (entries [0, 1, 2, 3, 4, 5, 6, 7]) [⟨0x300, 16⟩] ∧
    GoodData (shares oneWrong [5, 0, 7, 2, 1, 6, 3, 4] [(11, 1)]) 0x200 8 4 (entries [0, 1, 2, 3, 4, 5, 6, 7])
      [⟨0x300, 16⟩] (fragments oneWrong [0, 1, 2, 3, 4, 5, 6, 7]) ∧
    rebuildBlocks (codecFor 4 8) 4 (fragments clean [0, 1, 2, 3, 4, 5, 6, 7]) =
      .ok [[0x68, 0x65, 0x6C, 0x6C], [0x6F, 0x2C, 0x20, 0x77], [0x6F, 0x72, 0x6C, 0x64], [0x21, 0x20, 0x5F, 0x5F]] :=
  ⟨goodList_8 _ (.inr rfl) _ (by decide +kernel), goodData_8 _ (by decide +kernel), by decide +kernel⟩

theorem witness_DecncRecordsTheEmission :
    GoodList (shares oneWrong [5, 0, 7, 2, 1, 6, 3, 4] [(11, 1)]) (codecFor 4 8) 0x200 8 (entries [5, 0, 7, 2, 1, 6, 3, 4])
      (entries [0, 1, 2, 3, 4, 5, 6, 7]) [⟨0x300, 16⟩, ⟨0x380, 32⟩] ∧
    GoodData (shares oneWrong [5, 0, 7, 2, 1, 6, 3, 4] [(11, 1)]) 0x200 8 4 (entries [0, 1, 2, 3, 4, 5, 6, 7])
      [⟨0x300, 16⟩, ⟨0x380, 32⟩] (fragments oneWrong [0, 1, 2, 3, 4, 5, 6, 7]) :=
  ⟨goodList_8 _ (.inr rfl) _ (by decide +kernel), goodData_8 _ (by decide +kernel)⟩

/-- Regions that overlap by one byte and that just touch, and regions with an unwritten byte. -/
theorem witness_UnspecifiedCasesAreRefused :
    ¬ Apart (top.num 1) (top.num 2) (top.num 3 - 1) (top.num 2) ∧ Apart (top.num 1) (top.num 2) (top.num 3) (top.num 2) ∧
    (let s := top.setReg 5 4087
     Inside s (s.num 5) (s.num 2) ∧ Unwritten s (s.num 5) (s.num 2) ∧ ¬ Unwritten s (s.num 1) (s.num 2) ∧
     ¬ Apart (s.num 5) (s.num 2) (s.num 1) (s.num 2) ∧ Apart (s.num 5) (s.num 2) (s.num 3) (s.num 2)) ∧
    polydiv [1, 0, 1] [1, 1] = .ok ([1, 1], [0]) ∧ ¬ Apart (division.num 3) 2 (division.num 3) (division.num 4) ∧
    (let s := matrix.setReg 1 4087
     s.num 0 < s.num 2 ∧ Inside s (s.num 1) (s.num 2 * s.num 3) ∧ Unwritten s (s.num 1) (s.num 2 * s.num 3) ∧
     Unwritten s (s.num 1 + s.num 0 * s.num 3) (s.num 3) ∧ s.mem.read (s.num 1 + s.num 0 * s.num 3 + s.num 0) = none ∧
     ¬ Apart (s.num 9) (s.num 2 * s.num 3) (s.num 9) (s.num 2 * s.num 3)) ∧
    (let s := data.setReg 4 1
     s.num 5 % 4 = 0 ∧ Inside s (s.num 4) (s.num 5) ∧ Unwritten s (s.num 4) (s.num 5) ∧
     ¬ Apart 16 (8 * 4) (s.num 4) (s.num 5) ∧ Apart (s.num 3) (8 * 4) (s.num 4) (s.num 5)) ∧
    ¬ ((dataOf (.rebuild 9 6 7 8) (shares clean [7, 1, 4, 2] [(8, 5)]) (entries [1, 2, 4, 7]) ++ [Region.mk 0x300 20] ++
      [Region.mk 0x200 32]).Pairwise fun a b => Apart a.start a.len b.start b.len) ∧
    Unwritten (shares clean [7, 1, 4, 2] [(7, 5)]) 0x200 (8 * 5) := by
  refine ⟨?_, ?_, ?_, ?_, ?_, ?_, ?_, ?_, ?_⟩ <;> decide +kernel

theorem witness_CodecEliminationsSucceed :
    (codecFor 4 8).Legal ∧ SortedFragments (codecFor 4 8) (fragments clean [1, 2, 4, 7]) :=
  ⟨legal_codecFor (by decide) (by decide) (by decide), sortedFragments_4⟩

/-- BUF written from 0x10 to 0x5F, a share list at 0x60 with data in 0x30 to 0x5F, and operands small enough for every
command. -/
def crowded : State :=
  startCodec 1 3 [(1, 0x10), (2, 0x11), (3, 2), (4, 0x200), (5, 0x60), (6, 1), (7, 0x5F), (8, 3)]
    (at' 0x10 (List.replicate 80 1) ++ at' 0x60 [2, 0, 0, 0, 0x30, 0, 0, 0, 0, 0, 0, 0, 0x40, 0, 0, 0])

/-- Each clause about overlap is met, and refused: destination 0x11 with 2 bytes against a source at 0x10. -/
theorem test_overlaps_refused :
    ([.vaddmul 2 1 3 3, .pscale 2 1 3 3, .padd 2 1 3 1 0, .padd 2 4 0 1 3, .pdiv 1 4 1 3 1 3, .minv 1 6 6 1 6 0, .mpar 2 1 6 3,
      .encode 2 1 3, .encsingle 2 1 3 0, .rebuild 5 5 3 6, .synd 5 5 3, .bwb 5 5 3 6 0, .decode 5 5 3 6,
      .decnc 4 5 5 3 6, .correct 5 3 5] : List Instr).all (fun i => refusedAs (exec i crowded) .overlappingRegions) =
      true := by decide +kernel

/-- Each clause about unwritten bytes is met, and refused: 0x200 and what follows it are unwritten. -/
theorem test_unwritten_refused :
    ([.vdot 1 4 1 3, .vdot 1 1 4 3, .vaddmul 4 1 3 3, .vaddmul 1 4 3 3, .peval 1 4 3 3, .pscale 1 4 3 3, .padd 1 4 3 2 0,
      .pdiv 1 2 4 3 1 3, .pdiv 1 2 1 3 4 3, .mget 1 4 6 6 0 0, .mscale 4 3 3 6 6, .mswap 4 3 3 0 6, .maddmul 4 3 3 6 0 6,
      .mstd 4 3 3 0, .minv 4 3 3 1 3 0, .minv 1 3 3 4 3 1, .mpar 1 4 6 3, .encode 1 4 3, .encsingle 1 4 3 6,
      .rebuild 1 4 3 6, .synd 1 4 3, .bwb 1 4 3 6 0, .correct 4 3 6, .decode 1 4 3 6, .decnc 1 2 4 3 6] :
      List Instr).all (fun i => refusedAs (exec i crowded) .unwrittenByte) = true := by decide +kernel

end Sys2Proof.Tests
end

section
/-! How a command ends, once for all 45: the kinds of next state that `exec` can answer. -/

namespace Sys2Proof.Machine

/-- BUF contents `m` are good if those of `s` are and its codec slot is legal. -/
def KeepsGoodMem (s : State) (m : Memory) : Prop :=
  GoodMem s.memSize s.mem → (∀ c, s.codec = some c → c.Legal) → GoodMem s.memSize m

/-- The states with which command `i`, begun in `s`, can end. -/
inductive Ended (i : Instr) (s : State) : State → Prop
  | clrerr : Ended i s s.clearLatch.complete
  | reg (rd : Reg) (v : Word) (hd : destOf i = some rd) : Ended i s (s.setReg rd v).complete
  | mem (m : Memory) (hm : KeepsGoodMem s m) : Ended i s { s with mem := m }.complete
  | div (m : Memory) (l0 l1 : Word) (hi : ∃ a b c d e f, i = .pdiv a b c d e f) (hm : KeepsGoodMem s m) :
      Ended i s { s with mem := m, len0 := l0, len1 := l1 }.complete
  | codec (c : Codec) (hi : ∃ rk rn, i = .fecnew rk rn) (hc : c.Legal) : Ended i s { s with codec := some c }.complete
  | raised (m : Memory) (e : ErrorCode) (hm : KeepsGoodMem s m) : Ended i s ({ s with mem := m }.raise (encode i) e)

/-- What FECNEW stores is the legal codec for its operands (44_codec_construct.md R129). -/
theorem fecnewCodec_ok {rk rn : Reg} {s : State} {c : Codec} (h : fecnewCodec rk rn s = .ok c) :
    c.k = s.num rk ∧ c.n = s.num rn ∧ c.Legal := by
  simp only [fecnewCodec, bind_eq_ok, demand_eq_ok, Bool.and_eq_true, decide_eq_true_eq] at h
  obtain ⟨_, ⟨⟨hk, hkn⟩, hn⟩, h⟩ := h
  cases h
  exact ⟨rfl, rfl, hk, hkn, hn, rfl, rfl⟩

section
variable {s t : State} {i : Instr}

theorem raise_ended (e : ErrorCode) : Ended i s (s.raise (encode i) e) := .raised s.mem e fun h _ => h

theorem finishReg_ended {rd : Reg} {r : Except Halt Word} (h : s.finishReg i rd r = .next t)
    (hd : destOf i = some rd) : Ended i s t := by
  obtain ⟨v, -, rfl⟩ | ⟨e, -, rfl⟩ := finishReg_next h
  · exact .reg rd v hd
  · exact raise_ended e

theorem finishMem_ended {r : Except Halt Memory} (h : s.finishMem i r = .next t)
    (hr : ∀ m, r = .ok m → KeepsGoodMem s m) : Ended i s t := by
  obtain ⟨m, hm, rfl⟩ | ⟨e, -, rfl⟩ := finishMem_next h
  · exact .mem m (hr m hm)
  · exact raise_ended e

theorem finishPart_ended {r : Except Halt (Memory × Option ErrorCode)} (h : s.finishPart i r = .next t)
    (hr : ∀ p, r = .ok p → KeepsGoodMem s p.1) : Ended i s t := by
  obtain ⟨m, hm, rfl⟩ | ⟨m, e, hm, rfl⟩ | ⟨e, -, rfl⟩ := finishPart_next h
  · exact .mem m (hr _ hm)
  · exact .raised m e (hr _ hm)
  · exact raise_ended e

theorem finishDiv_ended {r : Except Halt (Memory × Nat × Nat)} (h : s.finishDiv i r = .next t)
    (hi : ∃ a b c d e f, i = .pdiv a b c d e f) (hr : ∀ m l0 l1, r = .ok (m, l0, l1) → KeepsGoodMem s m) :
    Ended i s t := by
  obtain ⟨m, l0, l1, hm, rfl⟩ | ⟨e, -, rfl⟩ := finishDiv_next h
  · exact .div m _ _ hi (hr m l0 l1 hm)
  · exact raise_ended e

theorem finishCodec_ended {r : Except Halt Codec} (h : s.finishCodec i r = .next t)
    (hi : ∃ rk rn, i = .fecnew rk rn) (hr : ∀ c, r = .ok c → c.Legal) : Ended i s t := by
  obtain ⟨c, hc, rfl⟩ | ⟨e, -, rfl⟩ := finishCodec_next h
  · exact .codec c hi (hr c hc)
  · exact raise_ended e

/-- Every next state of every command is one of these: the one case split over the command set that the rules over all
commands need. -/
theorem exec_ended (h : exec i s = .next t) : Ended i s t := by
  cases i
  case nop => cases h; exact .mem s.mem fun hm _ => hm
  case clrerr => cases h; exact .clrerr
  case li | lih | mov | gfadd | gfmul | gfpow | gflog => cases h; exact .reg _ _ rfl
  case mfs | ldb | gfdiv | gfinv | gfexp | vdot | peval | mget | mrow | required | total | encget | vandget =>
    exact finishReg_ended h rfl
  case stb => exact finishMem_ended h fun _ e hm _ => stbMem_good hm e
  case vaddmul => exact finishMem_ended h fun _ e hm _ => vaddmulMem_good hm e
  case pscale => exact finishMem_ended h fun _ e hm _ => pscaleMem_good hm e
  case padd => exact finishMem_ended h fun _ e hm _ => paddMem_good hm e
  case mset => exact finishMem_ended h fun _ e hm _ => msetMem_good hm e
  case mswap => exact finishMem_ended h fun _ e hm _ => mswapMem_good hm e
  case mscale => exact finishMem_ended h fun _ e hm _ => mscaleMem_good hm e
  case maddmul => exact finishMem_ended h fun _ e hm _ => maddmulMem_good hm e
  case mpar => exact finishMem_ended h fun _ e hm _ => mparMem_good hm e
  case encdump => exact finishMem_ended h fun _ e hm hc => encdumpMem_good hm hc e
  case vanddump => exact finishMem_ended h fun _ e hm hc => vanddumpMem_good hm hc e
  case encode => exact finishMem_ended h fun _ e hm _ => encodeMem_good hm e
  case encsingle => exact finishMem_ended h fun _ e hm _ => encsingleMem_good hm e
  case mstd => exact finishPart_ended h fun _ e hm _ => mstdResult_good hm e
  case minv => exact finishPart_ended h fun _ e hm _ => minvResult_good hm e
  case rebuild => exact finishPart_ended h fun _ e hm _ => rebuildResult_good hm e
  case synd => exact finishPart_ended h fun _ e hm hc => syndResult_good hm hc e
  case bwb => exact finishPart_ended h fun _ e hm _ => bwbResult_good hm e
  case correct => exact finishPart_ended h fun _ e hm _ => correctResult_good hm e
  case decode => exact finishPart_ended h fun _ e hm _ => decodeResult_good hm e
  case decnc => exact finishPart_ended h fun _ e hm _ => decncResult_good hm e
  case pdiv => exact finishDiv_ended h ⟨_, _, _, _, _, _, rfl⟩ fun _ _ _ e hm _ => pdivResult_good hm e
  case fecnew => exact finishCodec_ended h ⟨_, _, rfl⟩ fun _ e => (fecnewCodec_ok e).2.2

/-- What a command word given to the engine can do: it is run, or it is illegal and fails (30_encoding.md R64, R66). -/
theorem accept_next {w : Word} (h : accept w s = .next t) :
    (∃ i, decode w = .ok i ∧ Ended i s t) ∨ t = s.raise w .illegalCommand := by
  unfold accept at h
  split at h
  · next i hi => exact .inl ⟨i, hi, exec_ended h⟩
  · cases h; exact .inr rfl

/-- Every command that ends advances CSEQ by one (10_state.md R21). -/
theorem Ended.cseq (h : Ended i s t) : t.cseq = s.cseq + 1 := by cases h <;> rfl

/-- No command changes MEMSIZE or the host's side of the ports. -/
theorem Ended.portsKept (h : Ended i s t) : PortsKept s t := by cases h <;> exact ⟨rfl, rfl, rfl⟩

/-- A command changes no general register but its destination (R17). -/
theorem Ended.reg_other (h : Ended i s t) {r : Reg} (hr : destOf i ≠ some r) : t.reg r = s.reg r := by
  cases h with
  | reg rd v hd => exact reg_setReg_other s (fun e => hr (hd.trans (congrArg some e.symm))) v
  | clrerr | mem | div | codec | raised => rfl

/-- Only a PDIV that succeeds changes a result length (R22). -/
theorem Ended.lengths (h : Ended i s t) (hl : t.len0 ≠ s.len0 ∨ t.len1 ≠ s.len1) :
    t.response = some codeOk ∧ ∃ a b c d e f, i = .pdiv a b c d e f := by
  cases h with
  | div m l0 l1 hi hm => exact ⟨rfl, hi⟩
  | clrerr | reg | mem | codec | raised => simp at hl

/-- Only a FECNEW that succeeds changes the codec slot (R19). -/
theorem Ended.codec_changed (h : Ended i s t) (hc : t.codec ≠ s.codec) :
    t.response = some codeOk ∧ ∃ rk rn, i = .fecnew rk rn := by
  cases h with
  | codec c hi hc => exact ⟨rfl, hi⟩
  | clrerr | reg | mem | div | raised => exact absurd rfl hc

end

end Sys2Proof.Machine
end

section
/-! The invariant, one lemma per state operation, and the statements about what every command and every step keeps. -/

namespace Sys2Proof.Machine

namespace State.Inv

variable {s t : State}

theorem goodMem (h : s.Inv) : GoodMem s.memSize s.mem := ⟨h.memWf, h.memWithin⟩

theorem complete (h : s.Inv) : s.complete.Inv :=
  { h with response := by rintro b ⟨⟩; exact .inl rfl }

theorem raise (h : s.Inv) (w : Word) (e : ErrorCode) : (s.raise w e).Inv :=
  { h with
    latch := .inl ⟨rfl, code_mem_errorCodes e⟩
    response := by rintro b ⟨⟩; exact .inr (code_mem_errorCodes e) }

theorem clearLatch (h : s.Inv) : s.clearLatch.Inv := { h with latch := .inr ⟨rfl, rfl, rfl, rfl⟩ }

theorem setReg (h : s.Inv) (r : Reg) (v : Word) : (s.setReg r v).Inv := { h with }

theorem setMem (h : s.Inv) {m : Memory} (hm : GoodMem s.memSize m) : { s with mem := m }.Inv :=
  { h with memWf := hm.wf, memWithin := hm.within }

theorem setLengths (h : s.Inv) (l0 l1 : Word) : { s with len0 := l0, len1 := l1 }.Inv := { h with }

theorem setCodec (h : s.Inv) {c : Codec} (hc : c.Legal) : { s with codec := some c }.Inv :=
  { h with codecLegal := by rintro d ⟨⟩; exact hc }

theorem setInbox (h : s.Inv) (q : List HostAction) : { s with inbox := q }.Inv := { h with }

theorem setHostData (h : s.Inv) (d : Option Byte) : { s with hostData := d }.Inv := { h with }

/-- Every command that ends keeps the invariant. -/
theorem ended {i : Instr} (h : s.Inv) (he : Ended i s t) : t.Inv := by
  cases he with
  | clrerr => exact h.clearLatch.complete
  | reg rd v hd => exact (h.setReg rd v).complete
  | mem m hm => exact (h.setMem (hm h.goodMem h.codecLegal)).complete
  | div m l0 l1 hi hm => exact ((h.setMem (hm h.goodMem h.codecLegal)).setLengths l0 l1).complete
  | codec c hi hc => exact (h.setCodec hc).complete
  | raised m e hm => exact (h.setMem (hm h.goodMem h.codecLegal)).raise _ e

theorem accept {w : Word} (h : s.Inv) (he : accept w s = .next t) : t.Inv := by
  obtain ⟨i, -, hi⟩ | rfl := accept_next he
  · exact h.ended hi
  · exact h.raise w _

theorem hostWrite {a : Nat} {b : Byte} (h : s.Inv) (he : hostWrite a b s = .next t) : t.Inv := by
  unfold Machine.hostWrite at he
  split at he
  · next ha => cases he; exact h.setMem (h.goodMem.write ha)
  · cases he

theorem hostRead {a : Nat} (h : s.Inv) (he : hostRead a s = .next t) : t.Inv := by
  unfold Machine.hostRead at he
  split at he
  · split at he
    · cases he; exact h.setHostData _
    · cases he
  · cases he

/-- The reset state of an engine with at least one byte of BUF is good (R25, R191). -/
theorem resetWith {m : Word} (hm : 1 ≤ m.toNat) (q : List HostAction) : (State.resetWith m q).Inv where
  memWf := rfl
  memWithin := rfl
  codecLegal := by rintro c ⟨⟩
  latch := .inr ⟨rfl, rfl, rfl, rfl⟩
  response := by rintro b ⟨⟩
  memszPos := hm

theorem perform {a : HostAction} (h : s.Inv) (he : perform a s = .next t) : t.Inv := by
  cases a with
  | command w => exact h.accept he
  | write a b => exact h.hostWrite he
  | read a => exact h.hostRead he
  | reset => cases he; exact resetWith h.memszPos _

end State.Inv

/-- Settles O17: each action of the host keeps the invariant, a command by the kind of state it can end with. -/
theorem stepKeepsTheInvariant : Obligations.StepKeepsTheInvariant := by
  intro s t h he
  unfold step at he
  split at he
  · cases he; exact h
  · exact (h.setInbox _).perform he

/-- Settles O18: the reset state of any engine is good, so that of MEMSIZE 4096 is. -/
theorem resetMeetsTheInvariant : Obligations.ResetMeetsTheInvariant := State.Inv.resetWith (by decide) []

/-- Settles O11: `Ended.cseq` for a legal word, the illegal word's failure, and MFS of CSEQ run. -/
theorem cseqCountsEveryCommand : Obligations.CseqCountsEveryCommand := by
  refine ⟨fun w s t h => ?_, fun rd s => ?_, fun m q => rfl⟩
  · obtain ⟨i, -, hi⟩ | rfl := accept_next h
    · exact hi.cseq
    · rfl
  · exact ⟨(s.setReg rd s.cseq).complete, rfl, reg_setReg_same s rd s.cseq, rfl⟩

/-- Settles O12: a changed slot means FECNEW by `Ended.codec_changed`, and what FECNEW stores is `fecnewCodec_ok`. -/
theorem onlyFecnewWritesTheCodecSlot : Obligations.OnlyFecnewWritesTheCodecSlot := by
  intro i s t h
  refine ⟨fun hc => ?_, ?_⟩
  · obtain ⟨hok, rk, rn, hi⟩ := (exec_ended h).codec_changed hc
    exact ⟨rk, rn, hi, hok⟩
  · rintro rk rn rfl hok
    obtain ⟨c, hc, rfl⟩ | ⟨e, -, rfl⟩ := finishCodec_next h
    · exact ⟨c, rfl, fecnewCodec_ok hc⟩
    · exact absurd (Option.some.inj hok) (code_ne_ok e)

/-- Settles O13, clause by clause from the kinds of state a command can end with. -/
theorem commandsWriteOnlyTheirDestination : Obligations.CommandsWriteOnlyTheirDestination := by
  intro i s t h
  have he := exec_ended h
  exact ⟨fun _ => he.reg_other, he.lengths, he.portsKept⟩

theorem read_nil (a : Nat) : Memory.read [] a = none := rfl

theorem reg_resetWith (m : Word) (q : List HostAction) (r : Reg) : (State.resetWith m q).reg r = 0 := by
  simp [State.reg]

/-- Settles O8: each field of the reset state read off, and the reset event run. -/
theorem resetStateValues : Obligations.ResetStateValues := by
  refine ⟨fun m q => ⟨reg_resetWith m q, rfl, rfl, rfl, rfl, rfl, rfl, rfl, rfl, rfl, rfl, rfl, rfl, rfl, read_nil⟩, rfl,
    fun s rest h => ?_⟩
  simp [step, h, perform, hostReset]

end Sys2Proof.Machine
end

section
/-! The table product is the product of polynomials (10_state.md R11, R15): doubling is additive, so multiplying by a
power of the generator is, and a byte is the sum of the powers at its bits. -/

namespace Sys2Proof.Machine

theorem xtime_xor (a b : Byte) : xtime (a ^^^ b) = xtime a ^^^ xtime b := by
  unfold xtime
  rw [BitVec.getLsbD_xor, BitVec.shiftLeft_xor_distrib]
  have cancel : ∀ u v p : Byte, (u ^^^ p) ^^^ (v ^^^ p) = u ^^^ v := fun u v p => by
    rw [BitVec.xor_comm v p, ← BitVec.xor_assoc, BitVec.xor_assoc u, BitVec.xor_self, BitVec.xor_zero]
  cases a.getLsbD 7 with
  | false =>
    cases b.getLsbD 7 with
    | false => rfl
    | true => exact BitVec.xor_assoc _ _ _
  | true =>
    cases b.getLsbD 7 with
    | false =>
      show a <<< 1 ^^^ b <<< 1 ^^^ 0x1D = a <<< 1 ^^^ 0x1D ^^^ b <<< 1
      ac_rfl
    | true => exact (cancel _ _ _).symm

theorem xtimes_zero (i : Nat) : xtimes i 0#8 = 0#8 := by
  induction i with
  | zero => rfl
  | succ i ih => rw [xtimes, ih]; rfl

theorem xtimes_xor (i : Nat) (a b : Byte) : xtimes i (a ^^^ b) = xtimes i a ^^^ xtimes i b := by
  induction i with
  | zero => rfl
  | succ i ih => simp only [xtimes, ih, xtime_xor]

theorem xtimes_add (i j : Nat) (a : Byte) : xtimes (i + j) a = xtimes i (xtimes j a) := by
  induction i with
  | zero => rw [Nat.zero_add]; rfl
  | succ i ih => rw [Nat.succ_add, xtimes, ih, xtimes]

/-- Multiplying by `2^j` is doubling `j` times. -/
theorem gfMul_gfExp_left (j : Nat) (b : Byte) : gfMul (gfExp j) b = xtimes j b := by
  by_cases hb : b = 0#8
  · rw [hb, xtimes_zero]; exact gfMul_zero_right _
  · obtain ⟨k, rfl⟩ := exists_gfExp hb
    rw [gfMul_gfExp, gfExp_eq_xtimes, gfExp_eq_xtimes, xtimes_add]

/-- The table product distributes over addition (41_scalar_field.md R97). -/
theorem gfMul_xor (a b c : Byte) : gfMul a (b ^^^ c) = gfMul a b ^^^ gfMul a c := by
  by_cases ha : a = 0
  · simp [ha]
  · obtain ⟨j, rfl⟩ := exists_gfExp ha
    simp only [gfMul_gfExp_left, xtimes_xor]

theorem gfMul_xtimes (a : Byte) (i : Nat) (b : Byte) : gfMul a (xtimes i b) = xtimes i (gfMul a b) := by
  by_cases ha : a = 0#8
  · rw [ha, gfMul_zero_left, gfMul_zero_left, xtimes_zero]
  · obtain ⟨j, rfl⟩ := exists_gfExp ha
    rw [gfMul_gfExp_left, gfMul_gfExp_left, ← xtimes_add, ← xtimes_add, Nat.add_comm]

theorem gfMul_one (a : Byte) : gfMul a 1 = a := by
  by_cases ha : a = 0
  · rw [ha]; exact gfMul_zero_left 1
  · obtain ⟨j, rfl⟩ := exists_gfExp ha
    rw [← gfExp_zero, gfMul_gfExp, Nat.add_zero]

/-- One round of shift and add: bit `i` of `b` adds `c` doubled `i` times. -/
def shiftAdd (c b acc : Byte) (i : Nat) : Byte := if b.getLsbD i then acc ^^^ xtimes i c else acc

theorem polyProduct_eq_foldl (c b : Byte) : polyProduct c b = (List.range 8).foldl (shiftAdd c b) 0 := rfl

theorem gfMul_shiftAdd (a c b acc : Byte) (i : Nat) :
    shiftAdd (gfMul a c) b (gfMul a acc) i = gfMul a (shiftAdd c b acc i) := by
  unfold shiftAdd
  split
  · rw [gfMul_xor, gfMul_xtimes]
  · rfl

/-- Multiplying a polynomial product by `a` multiplies its first factor: the rounds do so one by one. -/
theorem gfMul_polyProduct (a c b : Byte) : gfMul a (polyProduct c b) = polyProduct (gfMul a c) b := by
  rw [polyProduct_eq_foldl, polyProduct_eq_foldl, ← List.foldl_hom (gfMul a) (fun acc i => gfMul_shiftAdd a c b acc i)]
  exact congrArg (List.foldl _ · _) (gfMul_zero_right a)

/-- A byte is the sum of the powers of the generator at its bits. -/
theorem polyProduct_one_table : ∀ b : Fin 256, polyProduct 1 (BitVec.ofFin b) = BitVec.ofFin b := by decide +kernel

theorem polyProduct_one (b : Byte) : polyProduct 1 b = b := polyProduct_one_table b.toFin

/-- R15: the table product is the product of polynomials modulo POLY. -/
theorem gfMul_eq_polyProduct (a b : Byte) : gfMul a b = polyProduct a b :=
  calc gfMul a b = gfMul a (polyProduct 1 b) := by rw [polyProduct_one]
    _ = polyProduct (gfMul a 1) b := gfMul_polyProduct a 1 b
    _ = polyProduct a b := by rw [gfMul_one]

/-- A command whose word is a format R word that decodes to it has that word. -/
theorem hasWord_of_packR {i : Instr} {op : Nat} {g1 g2 g3 g4 g5 g6 : Nibble} (hop : op < 256)
    (he : encode i = packR op g1 g2 g3 g4 g5 g6) (hd : decode (packR op g1 g2 g3 g4 g5 g6) = .ok i) :
    HasWord i op [g1, g2, g3, g4, g5, g6] := by
  rw [HasWord, he]
  exact ⟨opcodeOf_packR op g1 g2 g3 g4 g5 g6 hop, fieldsOf_packR op g1 g2 g3 g4 g5 g6 hop, hd⟩

theorem hasWord_gfmul (rd ra rb : Reg) : HasWord (.gfmul rd ra rb) 0x11 [rd, ra, rb, 0, 0, 0] := by
  refine hasWord_of_packR (by decide) rfl ?_
  simp [decode, opcodeOf_packR, f1_packR, f2_packR, f3_packR, f4_packR, f5_packR, f6_packR, unused]

/-- Settles O24: GFMUL writes the table product, which is the product of polynomials. -/
theorem gfmulIsPolynomialProduct : Obligations.GfmulIsPolynomialProduct := by
  intro rd ra rb s
  refine ⟨hasWord_gfmul rd ra rb, _, rfl, ?_⟩
  rw [← gfMul_eq_polyProduct]
  exact regDone_of s rd _

end Sys2Proof.Machine
end

section
/-! When the model refuses (20_memory.md R45, R46, 93_implementation_defined.md U1, U2): a refusal inside a command's
checks is its answer, an unwritten byte refuses every sequence of loads that reads it, and a command whose checks pass
comes to its region test and its loads. One lemma for each command and refusal. -/

namespace Sys2Proof.Machine

/-! ### A refusal is the answer -/

section
variable {s : State} {i : Instr} {r : Refusal}

theorem finishReg_refused {rd : Reg} {p : Except Halt Word} (h : p = .error (.refuse r)) :
    s.finishReg i rd p = .refused r := by rw [h]; rfl

theorem finishMem_refused {p : Except Halt Memory} (h : p = .error (.refuse r)) : s.finishMem i p = .refused r := by
  rw [h]; rfl

theorem finishPart_refused {p : Except Halt (Memory × Option ErrorCode)} (h : p = .error (.refuse r)) :
    s.finishPart i p = .refused r := by rw [h]; rfl

theorem finishDiv_refused {p : Except Halt (Memory × Nat × Nat)} (h : p = .error (.refuse r)) :
    s.finishDiv i p = .refused r := by rw [h]; rfl

end

/-! ### Loads, region tests and checks in the terms of the claims -/

/-- A sequence that begins with loading a region with an unwritten byte is refused. -/
theorem load_bind_unwritten {α : Type} {s : State} {r : Region} {f : List Byte → Except Halt α}
    (h : Unwritten s r.start r.len) : (s.mem.load r >>= f) = .error (.refuse .unwrittenByte) := by
  rw [load_unwritten h, error_bind]

/-- A sequence that begins with loading two regions, one of them with an unwritten byte, is refused. -/
theorem load_pair_unwritten {α : Type} {s : State} {r t : Region} {f : List Byte → List Byte → Except Halt α}
    (h : Unwritten s r.start r.len ∨ Unwritten s t.start t.len) :
    (s.mem.load r >>= fun u => s.mem.load t >>= f u) = .error (.refuse .unwrittenByte) := by
  rcases h with h | h
  · exact load_bind_unwritten h
  · rcases load_cases s.mem r with ⟨u, hu, -⟩ | hu
    · rw [hu, ok_bind, load_bind_unwritten h]
    · rw [hu, error_bind]

theorem noClash_single (a n b m : Nat) : noClash [⟨a, n⟩] [⟨b, m⟩] = true ↔ Apart a n b m := by simp [noClash_iff]

theorem noClash_single_two (a n b m b' m' : Nat) :
    noClash [⟨a, n⟩] [⟨b, m⟩, ⟨b', m'⟩] = true ↔ Apart a n b m ∧ Apart a n b' m' := by simp [noClash_iff]

theorem noClash_two_written (a n b m : Nat) : noClash [⟨a, n⟩, ⟨b, m⟩] [] = true ↔ Apart a n b m := by
  simp [noClash_iff]

theorem noClash_two_two (a n a' n' b m b' m' : Nat) :
    noClash [⟨a, n⟩, ⟨a', n'⟩] [⟨b, m⟩, ⟨b', m'⟩] = true ↔
      Apart a n a' n' ∧ Apart a n b m ∧ Apart a n b' m' ∧ Apart a' n' b m ∧ Apart a' n' b' m' := by
  simp [noClash_iff, and_assoc]

/-- A sequence that begins with a failing region test is refused. -/
theorem demandNoClash_bind_refused {α : Type} {ws rs : List Region} {f : Unit → Except Halt α}
    (h : ¬ noClash ws rs = true) : (demandNoClash ws rs >>= f) = .error (.refuse .overlappingRegions) := by
  rw [demandNoClash_refused (mt (noClash_iff ws rs).mpr h), error_bind]

theorem demandMatrix_ok {s : State} {rm rr rc : Reg} (h : Inside s (s.num rm) (s.num rr * s.num rc)) :
    s.demandMatrix (s.matOp rm rr rc) = .ok () := demandInside_ok h

/-- Both legal policy numbers name a policy (43_matrix.md R119). -/
theorem demandPolicy_ok {pol : Nibble} (h : pol.val ≤ 1) : ∃ p, demandPolicy pol = .ok p := by
  have : pol.val = 0 ∨ pol.val = 1 := by omega
  rcases this with h | h
  · exact ⟨.strict, by simp [demandPolicy, policyOf, h]⟩
  · exact ⟨.skip, by simp [demandPolicy, policyOf, h]⟩

/-! ### Vectors and polynomials -/

section
variable {s : State} {rd rs ra rb rl rla rlb rf : Reg}

theorem exec_vdot_unwritten (ha : Inside s (s.num ra) (s.num rl)) (hb : Inside s (s.num rb) (s.num rl))
    (h : Unwritten s (s.num ra) (s.num rl) ∨ Unwritten s (s.num rb) (s.num rl)) :
    exec (.vdot rd ra rb rl) s = .refused .unwrittenByte := by
  refine finishReg_refused (p := vdotValue ra rb rl s) ?_
  simp only [vdotValue, demandInside_ok ha, demandInside_ok hb, ok_bind]
  exact load_pair_unwritten h

theorem exec_peval_unwritten {rp rx : Reg} (hp : Inside s (s.num rp) (s.num rl))
    (h : Unwritten s (s.num rp) (s.num rl)) : exec (.peval rd rp rl rx) s = .refused .unwrittenByte := by
  refine finishReg_refused (p := pevalValue rp rl rx s) ?_
  simp only [pevalValue, demandInside_ok hp, ok_bind]
  exact load_bind_unwritten h

section
variable (hd : Inside s (s.num rd) (s.num rl)) (hs : Inside s (s.num rs) (s.num rl))
include hd hs

theorem exec_vaddmul_overlap (h : ¬ Apart (s.num rd) (s.num rl) (s.num rs) (s.num rl)) :
    exec (.vaddmul rd rs rl rf) s = .refused .overlappingRegions := by
  refine finishMem_refused (p := vaddmulMem rd rs rl rf s) ?_
  simp only [vaddmulMem, demandInside_ok hd, demandInside_ok hs, ok_bind]
  exact demandNoClash_bind_refused (mt (noClash_single _ _ _ _).mp h)

theorem exec_pscale_overlap (h : ¬ Apart (s.num rd) (s.num rl) (s.num rs) (s.num rl)) :
    exec (.pscale rd rs rl rf) s = .refused .overlappingRegions := by
  refine finishMem_refused (p := pscaleMem rd rs rl rf s) ?_
  simp only [pscaleMem, demandInside_ok hd, demandInside_ok hs, ok_bind]
  exact demandNoClash_bind_refused (mt (noClash_single _ _ _ _).mp h)

variable (hap : Apart (s.num rd) (s.num rl) (s.num rs) (s.num rl))
include hap

theorem exec_vaddmul_unwritten (h : Unwritten s (s.num rd) (s.num rl) ∨ Unwritten s (s.num rs) (s.num rl)) :
    exec (.vaddmul rd rs rl rf) s = .refused .unwrittenByte := by
  refine finishMem_refused (p := vaddmulMem rd rs rl rf s) ?_
  simp only [vaddmulMem, demandInside_ok hd, demandInside_ok hs, demandNoClash_ok ((noClash_single _ _ _ _).mpr hap),
    ok_bind]
  exact load_pair_unwritten h

theorem exec_pscale_unwritten (h : Unwritten s (s.num rs) (s.num rl)) :
    exec (.pscale rd rs rl rf) s = .refused .unwrittenByte := by
  refine finishMem_refused (p := pscaleMem rd rs rl rf s) ?_
  simp only [pscaleMem, demandInside_ok hd, demandInside_ok hs, demandNoClash_ok ((noClash_single _ _ _ _).mpr hap),
    ok_bind]
  exact load_bind_unwritten h

end

section
variable (hd : Inside s (s.num rd) (max (s.num rla) (s.num rlb))) (ha : Inside s (s.num ra) (s.num rla))
  (hb : Inside s (s.num rb) (s.num rlb))
include hd ha hb

theorem exec_padd_overlap
    (h : ¬ (Apart (s.num rd) (max (s.num rla) (s.num rlb)) (s.num ra) (s.num rla) ∧
      Apart (s.num rd) (max (s.num rla) (s.num rlb)) (s.num rb) (s.num rlb))) :
    exec (.padd rd ra rla rb rlb) s = .refused .overlappingRegions := by
  refine finishMem_refused (p := paddMem rd ra rla rb rlb s) ?_
  simp only [paddMem, demandInside_ok hd, demandInside_ok ha, demandInside_ok hb, ok_bind]
  exact demandNoClash_bind_refused (mt (noClash_single_two _ _ _ _ _ _).mp h)

theorem exec_padd_unwritten
    (hap : Apart (s.num rd) (max (s.num rla) (s.num rlb)) (s.num ra) (s.num rla) ∧
      Apart (s.num rd) (max (s.num rla) (s.num rlb)) (s.num rb) (s.num rlb))
    (h : Unwritten s (s.num ra) (s.num rla) ∨ Unwritten s (s.num rb) (s.num rlb)) :
    exec (.padd rd ra rla rb rlb) s = .refused .unwrittenByte := by
  refine finishMem_refused (p := paddMem rd ra rla rb rlb s) ?_
  simp only [paddMem, demandInside_ok hd, demandInside_ok ha, demandInside_ok hb,
    demandNoClash_ok ((noClash_single_two _ _ _ _ _ _).mpr hap), ok_bind]
  exact load_pair_unwritten h

end

variable {rq rr : Reg} (ha : Inside s (s.num ra) (s.num rla)) (hb : Inside s (s.num rb) (s.num rlb))
include ha hb

theorem exec_pdiv_unwritten (h : Unwritten s (s.num ra) (s.num rla) ∨ Unwritten s (s.num rb) (s.num rlb)) :
    exec (.pdiv rq rr ra rla rb rlb) s = .refused .unwrittenByte := by
  refine finishDiv_refused (p := pdivResult rq rr ra rla rb rlb s) ?_
  simp only [pdivResult, demandInside_ok ha, demandInside_ok hb, ok_bind]
  exact load_pair_unwritten h

/-- PDIV tests its result regions after the division, which gives their lengths (42_vector_poly.md R105). -/
theorem exec_pdiv_overlap {A B q r : List Byte} (hA : s.mem.load ⟨s.num ra, s.num rla⟩ = .ok A)
    (hB : s.mem.load ⟨s.num rb, s.num rlb⟩ = .ok B) (hdiv : polydiv A B = .ok (q, r))
    (hq : Inside s (s.num rq) q.length) (hr : Inside s (s.num rr) r.length)
    (h : ¬ (Apart (s.num rq) q.length (s.num rr) r.length ∧ Apart (s.num rq) q.length (s.num ra) (s.num rla) ∧
      Apart (s.num rq) q.length (s.num rb) (s.num rlb) ∧ Apart (s.num rr) r.length (s.num ra) (s.num rla) ∧
      Apart (s.num rr) r.length (s.num rb) (s.num rlb))) :
    exec (.pdiv rq rr ra rla rb rlb) s = .refused .overlappingRegions := by
  refine finishDiv_refused (p := pdivResult rq rr ra rla rb rlb s) ?_
  simp only [pdivResult, demandInside_ok ha, demandInside_ok hb, hA, hB, hdiv, orRaise, demandInside_ok hq,
    demandInside_ok hr, ok_bind]
  exact demandNoClash_bind_refused (mt (noClash_two_two _ _ _ _ _ _ _ _).mp h)

end

/-! ### Matrices -/

section
variable {s : State} {rd rm rr rc ri rj rf : Reg} (hm : Inside s (s.num rm) (s.num rr * s.num rc))
include hm

theorem exec_mget_unwritten (hi : s.num ri < s.num rr) (hj : s.num rj < s.num rc)
    (h : s.mem.read (s.num rm + s.num ri * s.num rc + s.num rj) = none) :
    exec (.mget rd rm rr rc ri rj) s = .refused .unwrittenByte := by
  refine finishReg_refused (p := mgetValue rm rr rc ri rj s) ?_
  simp only [mgetValue, hi, hj, decide_true, Bool.and_true, demand_true, demandMatrix_ok hm, ok_bind]
  exact load_bind_unwritten ⟨0, Nat.one_pos, h⟩

theorem exec_mscale_unwritten (hi : s.num ri < s.num rr)
    (h : Unwritten s (s.num rm + s.num ri * s.num rc) (s.num rc)) :
    exec (.mscale rm rr rc ri rf) s = .refused .unwrittenByte := by
  refine finishMem_refused (p := mscaleMem rm rr rc ri rf s) ?_
  simp only [mscaleMem, hi, decide_true, demand_true, demandMatrix_ok hm, ok_bind]
  exact load_bind_unwritten h

section
variable (hi : s.num ri < s.num rr) (hj : s.num rj < s.num rr)
  (h : Unwritten s (s.num rm + s.num ri * s.num rc) (s.num rc) ∨
    Unwritten s (s.num rm + s.num rj * s.num rc) (s.num rc))
include hi hj h

theorem exec_mswap_unwritten : exec (.mswap rm rr rc ri rj) s = .refused .unwrittenByte := by
  refine finishMem_refused (p := mswapMem rm rr rc ri rj s) ?_
  simp only [mswapMem, hi, hj, decide_true, Bool.and_true, demand_true, demandMatrix_ok hm, ok_bind]
  exact load_pair_unwritten h

theorem exec_maddmul_unwritten : exec (.maddmul rm rr rc ri rj rf) s = .refused .unwrittenByte := by
  refine finishMem_refused (p := maddmulMem rm rr rc ri rj rf s) ?_
  simp only [maddmulMem, hi, hj, decide_true, Bool.and_true, demand_true, demandMatrix_ok hm, ok_bind]
  exact load_pair_unwritten h

end

variable (hrc : s.num rr ≤ s.num rc)
include hrc

section
variable {pol : Nibble} (hpol : pol.val ≤ 1)
include hpol

theorem exec_mstd_unwritten (h : Unwritten s (s.num rm) (s.num rr * s.num rc)) :
    exec (.mstd rm rr rc pol) s = .refused .unwrittenByte := by
  obtain ⟨policy, hp⟩ := demandPolicy_ok hpol
  refine finishPart_refused (p := mstdResult rm rr rc pol s) ?_
  simp only [mstdResult, hp, hrc, decide_true, demand_true, demandMatrix_ok hm, ok_bind]
  exact load_bind_unwritten h

variable {ra rca : Reg} (ha : Inside s (s.num ra) (s.num rr * s.num rca))
include ha

theorem exec_minv_overlap (h : ¬ Apart (s.num rm) (s.num rr * s.num rc) (s.num ra) (s.num rr * s.num rca)) :
    exec (.minv rm rr rc ra rca pol) s = .refused .overlappingRegions := by
  obtain ⟨policy, hp⟩ := demandPolicy_ok hpol
  refine finishPart_refused (p := minvResult rm rr rc ra rca pol s) ?_
  simp only [minvResult, hp, hrc, decide_true, demand_true, demandMatrix_ok hm, demandMatrix_ok ha, ok_bind]
  exact demandNoClash_bind_refused (mt (noClash_two_written _ _ _ _).mp h)

theorem exec_minv_unwritten (hap : Apart (s.num rm) (s.num rr * s.num rc) (s.num ra) (s.num rr * s.num rca))
    (h : Unwritten s (s.num rm) (s.num rr * s.num rc) ∨ Unwritten s (s.num ra) (s.num rr * s.num rca)) :
    exec (.minv rm rr rc ra rca pol) s = .refused .unwrittenByte := by
  obtain ⟨policy, hp⟩ := demandPolicy_ok hpol
  have hclash : demandNoClash [(s.matOp rm rr rc).region, (s.matOp ra rr rca).region] [] = .ok () :=
    demandNoClash_ok ((noClash_two_written _ _ _ _).mpr hap)
  refine finishPart_refused (p := minvResult rm rr rc ra rca pol s) ?_
  simp only [minvResult, hp, hrc, decide_true, demand_true, demandMatrix_ok hm, demandMatrix_ok ha, hclash, ok_bind]
  exact load_pair_unwritten h

end

variable (hd : Inside s (s.num rd) ((s.num rc - s.num rr) * s.num rc))
include hd

theorem exec_mpar_overlap
    (h : ¬ Apart (s.num rd) ((s.num rc - s.num rr) * s.num rc) (s.num rm) (s.num rr * s.num rc)) :
    exec (.mpar rd rm rr rc) s = .refused .overlappingRegions := by
  refine finishMem_refused (p := mparMem rd rm rr rc s) ?_
  simp only [mparMem, hrc, decide_true, demand_true, demandMatrix_ok hm, demandInside_ok hd, ok_bind]
  exact demandNoClash_bind_refused (mt (noClash_single _ _ _ _).mp h)

/-- MPAR reads the block P of its matrix and no more (43_matrix.md R121). -/
theorem exec_mpar_unwritten
    (hap : Apart (s.num rd) ((s.num rc - s.num rr) * s.num rc) (s.num rm) (s.num rr * s.num rc))
    (h : ∃ j, j < s.num rr ∧ Unwritten s (s.num rm + j * s.num rc + s.num rr) (s.num rc - s.num rr)) :
    exec (.mpar rd rm rr rc) s = .refused .unwrittenByte := by
  obtain ⟨j, hj, hu⟩ := h
  have hclash : demandNoClash [⟨s.num rd, (s.num rc - s.num rr) * s.num rc⟩] [(s.matOp rm rr rc).region] = .ok () :=
    demandNoClash_ok ((noClash_single _ _ _ _).mpr hap)
  have hload : s.mem.loadEach (blockP (s.matOp rm rr rc)) = .error (.refuse .unwrittenByte) :=
    loadEach_unwritten ⟨_, List.mem_map.mpr ⟨j, List.mem_range.mpr hj, rfl⟩, hu⟩
  refine finishMem_refused (p := mparMem rd rm rr rc s) ?_
  simp only [mparMem, hrc, decide_true, demand_true, demandMatrix_ok hm, demandInside_ok hd, hclash, hload, ok_bind,
    error_bind]

end

/-! ### Encoding -/

section
variable {s : State} {rout rin rlen rx : Reg} {c : Codec} (hc : s.codec = some c) (hl : s.num rlen % c.k = 0)
  (hin : Inside s (s.num rin) (s.num rlen))
include hc hl hin

section
variable (hout : Inside s (s.num rout) (c.n * (s.num rlen / c.k)))
include hout

theorem exec_encode_overlap
    (h : ¬ Apart (s.num rout) (c.n * (s.num rlen / c.k)) (s.num rin) (s.num rlen)) :
    exec (.encode rout rin rlen) s = .refused .overlappingRegions := by
  refine finishMem_refused (p := encodeMem rout rin rlen s) ?_
  simp only [encodeMem, (needCodec_eq_ok s c).mpr hc, hl, beq_self_eq_true, demand_true, demandInside_ok hin,
    demandInside_ok hout, ok_bind]
  exact demandNoClash_bind_refused (mt (noClash_single _ _ _ _).mp h)

theorem exec_encode_unwritten (hap : Apart (s.num rout) (c.n * (s.num rlen / c.k)) (s.num rin) (s.num rlen))
    (h : Unwritten s (s.num rin) (s.num rlen)) : exec (.encode rout rin rlen) s = .refused .unwrittenByte := by
  refine finishMem_refused (p := encodeMem rout rin rlen s) ?_
  simp only [encodeMem, (needCodec_eq_ok s c).mpr hc, hl, beq_self_eq_true, demand_true, demandInside_ok hin,
    demandInside_ok hout, demandNoClash_ok ((noClash_single _ _ _ _).mpr hap), ok_bind]
  exact load_bind_unwritten h

end

variable (hx : s.num rx < c.n) (hout : Inside s (s.num rout) (s.num rlen / c.k))
include hx hout

theorem exec_encsingle_overlap (h : ¬ Apart (s.num rout) (s.num rlen / c.k) (s.num rin) (s.num rlen)) :
    exec (.encsingle rout rin rlen rx) s = .refused .overlappingRegions := by
  refine finishMem_refused (p := encsingleMem rout rin rlen rx s) ?_
  simp only [encsingleMem, (needCodec_eq_ok s c).mpr hc, hx, decide_true, hl, beq_self_eq_true, demand_true,
    demandInside_ok hin, demandInside_ok hout, ok_bind]
  exact demandNoClash_bind_refused (mt (noClash_single _ _ _ _).mp h)

/-- ENCSINGLE reads all of its input, whichever fragment is wanted (45_encode_rebuild.md R142). -/
theorem exec_encsingle_unwritten (hap : Apart (s.num rout) (s.num rlen / c.k) (s.num rin) (s.num rlen))
    (h : Unwritten s (s.num rin) (s.num rlen)) :
    exec (.encsingle rout rin rlen rx) s = .refused .unwrittenByte := by
  refine finishMem_refused (p := encsingleMem rout rin rlen rx s) ?_
  simp only [encsingleMem, (needCodec_eq_ok s c).mpr hc, hx, decide_true, hl, beq_self_eq_true, demand_true,
    demandInside_ok hin, demandInside_ok hout, demandNoClash_ok ((noClash_single _ _ _ _).mpr hap), ok_bind]
  exact load_bind_unwritten h

end

/-! ### Share lists -/

section
variable {s : State} {c : Codec} {a : ListOperands} {outs : Codec → List Region}
  {work : Listed → Except Halt (Memory × Option ErrorCode)}

/-- The front end refuses a list with an unwritten byte (45_encode_rebuild.md R143, F6). -/
theorem withList_unwrittenList (hc : s.codec = some c) (hk : c.k ≤ a.cnt) (hp : positionLegal a.bs a.pos = true)
    (hi : Inside s a.sl (8 * a.cnt)) (ho : ∀ r ∈ outs c, Inside s r.start r.len) (h : Unwritten s a.sl (8 * a.cnt)) :
    withList s a outs work = .error (.refuse .unwrittenByte) := by
  have hregion : s.demandInside (listRegion a.sl a.cnt) = .ok () := demandInside_ok hi
  have hload : s.mem.load (listRegion a.sl a.cnt) = .error (.refuse .unwrittenByte) := load_unwritten h
  have hsort : sortList s a outs = .error (.refuse .unwrittenByte) := by
    simp only [sortList, (needCodec_eq_ok s c).mpr hc, hk, hp, decide_true, demand_true, hregion,
      (demandAllInside_eq_ok s _ ()).mpr ho, hload, ok_bind, error_bind]
  rw [withList, hsort, error_bind]

/-- Steps F8 and F9 pass on good numbers and data inside BUF (R143). -/
theorem listError_good {sorted : List Share} {m : Memory} (hn : GoodNumbers c sorted)
    (hi : ∀ r ∈ dataRegions a.bs sorted, Inside s r.start r.len) : listError s a ⟨c, sorted, m⟩ = none := by
  have hnum : (sorted.any fun e => decide (c.n ≤ e.num)) = false := by
    simpa only [List.any_eq_false, decide_eq_true_eq, Nat.not_le] using hn
  have hdata : (dataRegions a.bs sorted).all (·.inside s.memSize) = true := by
    simpa only [List.all_eq_true, inside_iff] using hi
  simp only [listError, hnum, hdata, if_true, Bool.false_eq_true, if_false]

/-- The front end refuses a good list whose regions meet (R143, F10). -/
theorem withList_overlap {es sorted : List Share} (hg : GoodList s c a.sl a.cnt es sorted (outs c))
    (hp : positionLegal a.bs a.pos = true) (hn : GoodNumbers c sorted)
    (hi : ∀ r ∈ dataRegions a.bs sorted, Inside s r.start r.len)
    (h : ¬ (dataRegions a.bs sorted ++ outs c ++ [listRegion a.sl a.cnt]).Pairwise fun a b =>
      Apart a.start a.len b.start b.len) :
    withList s a outs work = .error (.refuse .overlappingRegions) := by
  have hap : listApart a outs ⟨c, sorted, s.mem.writeBytes a.sl (listBytes sorted)⟩ = false :=
    Bool.eq_false_iff.mpr (mt (pairwiseApart_iff _).mp h)
  rw [withList, sortList_good hg hp, ok_bind, listError_good hn hi, hap]
  rfl

/-- Storing a sequence leaves every byte of a region apart from it. -/
theorem read_writeBytes_apart (m : Memory) {a n b i : Nat} {u : List Byte} (h : Apart a n b u.length) (hi : i < n) :
    (m.writeBytes b u).read (a + i) = m.read (a + i) := by
  have hout : ¬ (b ≤ a + i ∧ a + i < b + u.length) := by
    simp only [Apart] at h
    omega
  rw [read_writeBytes, storedInto, if_neg hout]

/-- Reading the fragments is refused when one has an unwritten byte: the sorted list, written back apart from the data,
writes none of them (R143 note (g)). -/
theorem loadFragments_unwritten {sorted : List Share} {sl cnt bs : Nat} (hl : (listBytes sorted).length = 8 * cnt)
    (hap : ∀ r ∈ dataRegions (some bs) sorted, Apart r.start r.len sl (8 * cnt))
    (h : ∃ r ∈ dataRegions (some bs) sorted, Unwritten s r.start r.len) :
    loadFragments ⟨c, sorted, s.mem.writeBytes sl (listBytes sorted)⟩ bs = .error (.refuse .unwrittenByte) := by
  obtain ⟨r, hr, i, hi, hnone⟩ := h
  have hread := read_writeBytes_apart s.mem (u := listBytes sorted) (hl ▸ hap r hr) hi
  have hload := loadEach_unwritten ⟨r, hr, i, hi, hread.trans hnone⟩
  simp only [dataRegions] at hload
  rw [loadFragments, hload, error_bind]

end

section
variable {i : Instr} {s : State} {c : Codec} {sl cnt : Nat} {outs : List Region}
  (hlist : IsListCommand i s c sl cnt outs)
include hlist

theorem exec_unwrittenList (hc : s.codec = some c) (hk : c.k ≤ cnt) (hi : Inside s sl (8 * cnt))
    (ho : ∀ r ∈ outs, Inside s r.start r.len) (h : Unwritten s sl (8 * cnt)) :
    exec i s = .refused .unwrittenByte := by
  obtain ⟨bs, pos, outs', work, he, rfl, hp, -, -⟩ := isListCommand_form hlist
  rw [he]
  exact finishPart_refused (withList_unwrittenList hc hk hp hi ho h)

variable {es sorted : List Share} (hg : GoodList s c sl cnt es sorted outs) (hn : GoodNumbers c sorted)
  (hi : ∀ r ∈ dataOf i s sorted, Inside s r.start r.len)
include hg hn hi

theorem exec_listOverlap
    (h : ¬ (dataOf i s sorted ++ outs ++ [Region.mk sl (8 * cnt)]).Pairwise fun a b =>
      Apart a.start a.len b.start b.len) :
    exec i s = .refused .overlappingRegions := by
  obtain ⟨bs, pos, outs', work, he, rfl, hp, hd, -⟩ := isListCommand_form hlist
  rw [← hd] at hi h
  rw [he]
  exact finishPart_refused (withList_overlap hg hp hn hi h)

theorem exec_unwrittenData
    (hap : (dataOf i s sorted ++ outs ++ [Region.mk sl (8 * cnt)]).Pairwise fun a b =>
      Apart a.start a.len b.start b.len)
    (h : ∃ r ∈ dataOf i s sorted, Unwritten s r.start r.len) : exec i s = .refused .unwrittenByte := by
  obtain ⟨bs, pos, outs', work, he, rfl, hp, hd, hwork⟩ := isListCommand_form hlist
  rw [← hd] at hi hap h
  rw [he]
  refine finishPart_refused ((withList_work work hg hp hn hi hap).trans ?_)
  cases bs with
  | none => obtain ⟨r, hr, -⟩ := h; cases hr
  | some n =>
    have hfits : ∀ e ∈ sorted, e.Fits := fun e he => hg.fits e (hg.sameEntries.mem_iff.mp he)
    have hlen : (listBytes sorted).length = 8 * cnt := by
      rw [length_listBytes hfits, hg.sameEntries.length_eq, hg.count]
    have hlistApart : ∀ r ∈ dataRegions (some n) sorted, Apart r.start r.len sl (8 * cnt) := fun r hr =>
      (List.pairwise_append.mp hap).2.2 r (List.mem_append_left _ hr) _ (List.mem_singleton.mpr rfl)
    exact hwork _ n _ rfl (loadFragments_unwritten hlen hlistApart h)

end

/-- Settles O16, command by command: the checks pass, and the region test or the loads then refuse. -/
theorem unspecifiedCasesAreRefused : Obligations.UnspecifiedCasesAreRefused := by
  intro s
  refine ⟨?vdot, ?vaddmul_pscale, ?peval, ?padd, ?pdiv, ?mget, ?rows, ?mstd, ?minv, ?mpar, ?encode_encsingle, ?lists⟩
  case vdot => exact fun _ _ _ _ => exec_vdot_unwritten
  case vaddmul_pscale =>
    exact fun _ _ _ _ hd hs =>
      ⟨fun h => ⟨exec_vaddmul_overlap hd hs h, exec_pscale_overlap hd hs h⟩,
        fun hap => ⟨exec_pscale_unwritten hd hs hap, exec_vaddmul_unwritten hd hs hap⟩⟩
  case peval => exact fun _ _ _ _ => exec_peval_unwritten
  case padd => exact fun _ _ _ _ _ hd ha hb => ⟨exec_padd_overlap hd ha hb, exec_padd_unwritten hd ha hb⟩
  case pdiv =>
    exact fun _ _ _ _ _ _ ha hb =>
      ⟨exec_pdiv_unwritten ha hb, fun _ _ _ _ hlA hlB hA hB =>
        exec_pdiv_overlap ha hb (load_of_holds hlA hA) (load_of_holds hlB hB)⟩
  case mget => exact fun _ _ _ _ _ _ hi hj hm => exec_mget_unwritten hm hi hj
  case rows =>
    exact fun _ _ _ _ _ _ hi hm =>
      ⟨exec_mscale_unwritten hm hi, fun hj h => ⟨exec_mswap_unwritten hm hi hj h, exec_maddmul_unwritten hm hi hj h⟩⟩
  case mstd => exact fun _ _ _ _ hpol hrc hm => exec_mstd_unwritten hm hrc hpol
  case minv =>
    exact fun _ _ _ _ _ _ hpol hrc hm ha =>
      ⟨exec_minv_overlap hm hrc hpol ha, exec_minv_unwritten hm hrc hpol ha⟩
  case mpar => exact fun _ _ _ _ hrc hm hd => ⟨exec_mpar_overlap hm hrc hd, exec_mpar_unwritten hm hrc hd⟩
  case encode_encsingle =>
    exact fun _ _ _ _ _ hc hl hin =>
      ⟨fun hout => ⟨exec_encode_overlap hc hl hin hout, exec_encode_unwritten hc hl hin hout⟩,
        fun hx hout => ⟨exec_encsingle_overlap hc hl hin hx hout, exec_encsingle_unwritten hc hl hin hx hout⟩⟩
  case lists =>
    exact fun _ _ _ _ _ hlist =>
      ⟨exec_unwrittenList hlist, fun _ _ hg hn hi => ⟨exec_listOverlap hlist hg hn hi, exec_unwrittenData hlist hg hn hi⟩⟩

end Sys2Proof.Machine
end

section
/-! The bytes of a share-list entry (20_memory.md R42, R56), and the host's access to BUF between commands (R40, R45). -/

namespace Sys2Proof.Machine

/-- A byte holds a number modulo 256. -/
theorem byteOfNat_mod_256 (v : Nat) : BitVec.ofNat 8 (v % 256) = BitVec.ofNat 8 v := BitVec.eq_of_toNat_eq (by simp)

/-- The two bytes of a 16-bit number, least significant first (20_memory.md R42). -/
theorem leBytes_two (v : Nat) : leBytes 2 v = [BitVec.ofNat 8 (v % 256), BitVec.ofNat 8 (v / 256)] := by
  simp [leBytes, byteOfNat_mod_256]

/-- The four bytes of a 32-bit number, least significant first (R42). -/
theorem leBytes_four (v : Nat) :
    leBytes 4 v = [BitVec.ofNat 8 (v % 256), BitVec.ofNat 8 (v / 256 % 256), BitVec.ofNat 8 (v / 65536 % 256),
      BitVec.ofNat 8 (v / 16777216)] := by
  simp [leBytes, byteOfNat_mod_256, Nat.div_div_eq_div_mul]

/-- Settles O5: the bytes of the two numbers written out, and `ofBytes_toBytes` for the way back. -/
theorem shareEntryLayout : Obligations.ShareEntryLayout := by
  intro e h
  refine ⟨ofBytes_toBytes h, ?_⟩
  rw [Share.toBytes, leBytes_two, leBytes_four]

/-! ### The host's actions -/

theorem step_idle {s : State} (h : s.inbox = []) : step s = .next s := by simp only [step, h]

theorem step_cons {s : State} {a : HostAction} {rest : List HostAction} (h : s.inbox = a :: rest) :
    step s = perform a { s with inbox := rest } := by simp only [step, h]

theorem hostWrite_inside {s : State} {a : Nat} {b : Byte} (h : a < s.memSize) :
    hostWrite a b s = .next { s with mem := s.mem.write a b } := if_pos h

theorem hostWrite_outside {s : State} {a : Nat} {b : Byte} (h : s.memSize ≤ a) :
    hostWrite a b s = .fault .hostOutsideBuf := if_neg (Nat.not_lt.mpr h)

theorem hostRead_outside {s : State} {a : Nat} (h : s.memSize ≤ a) : hostRead a s = .fault .hostOutsideBuf :=
  if_neg (Nat.not_lt.mpr h)

theorem hostRead_unwritten {s : State} {a : Nat} (h : a < s.memSize) (hn : s.mem.read a = none) :
    hostRead a s = .refused .unwrittenByte := by simp only [hostRead, if_pos h, hn]

theorem hostRead_written {s : State} {a : Nat} {b : Byte} (h : a < s.memSize) (hb : s.mem.read a = some b) :
    hostRead a s = .next { s with hostData := some b } := by simp only [hostRead, if_pos h, hb]

/-- Settles O7: the step is the host's action, and each action has one lemma for each of its answers. -/
theorem hostReachesBufBetweenCommands : Obligations.HostReachesBufBetweenCommands := by
  refine ⟨fun s => step_idle, fun s rest a b hq => ⟨fun h => ?_, fun h => ?_⟩,
    fun s rest a hq => ⟨fun h => ?_, fun h hn => ?_, fun b h hb => ?_⟩⟩ <;> rw [step_cons hq]
  · exact hostWrite_outside h
  · exact ⟨_, hostWrite_inside h, fun x => read_write s.mem a x b⟩
  · exact hostRead_outside h
  · exact hostRead_unwritten h hn
  · exact hostRead_written h hb

end Sys2Proof.Machine
end

section
/-! Decoding and encoding (30_encoding.md R60 to R67): the decoder undoes the encoder, the encoder undoes the decoder,
and the words that decode are those of the table R65. The lines of the decoder are gone through once, in
`decode_decoded`. -/

namespace Sys2Proof.Machine

/-! ### The decoder on the words of the encoder -/

/-- Settles O1, command by command: the extractors give back the opcode and the fields that were packed, unused fields
are packed as 0, and a system register or a pivot policy passes its check because the command is well-formed. -/
theorem decodeInvertsEncode : Obligations.DecodeInvertsEncode := by
  intro i hi
  cases i
  case li | lih => simp [encode, decode, opcodeOf_packI, f1_packI, f2_packI, imm16Of_packI, unused]
  case mfs | mstd | minv =>
    simp only [Instr.wellFormed] at hi
    simp [encode, decode, opcodeOf_packR, f1_packR, f2_packR, f3_packR, f4_packR, f5_packR, f6_packR, unused, needSreg,
      needPol, hi]
  all_goals
    simp [encode, decode, opcodeOf_packR, f1_packR, f2_packR, f3_packR, f4_packR, f5_packR, f6_packR, unused]

/-- Settles O4: each sample is the word of its command, which decodes back by O1. -/
theorem sampleWordsDecode : Obligations.SampleWordsDecode :=
  ⟨decodeInvertsEncode .nop rfl, decodeInvertsEncode (.li 5 0xBEEF) rfl, decodeInvertsEncode (.mfs 10 0) rfl,
    decodeInvertsEncode (.gfmul 3 1 2) rfl, decodeInvertsEncode (.pdiv 1 2 3 4 5 6) rfl,
    decodeInvertsEncode (.mstd 1 2 3 1) rfl, decodeInvertsEncode (.minv 1 2 2 4 2 0) rfl,
    decodeInvertsEncode (.fecnew 1 2) rfl, decodeInvertsEncode (.rebuild 9 6 7 8) rfl,
    decodeInvertsEncode (.bwb 9 6 7 8 10) rfl, decodeInvertsEncode (.decnc 9 10 6 7 8) rfl⟩

/-! ### The legal words, by the row of their opcode -/

/-- Every field of a word is legal for the kind that a row of R65 gives it (R64). -/
def FieldsLegal (ks : List Kind) (w : Word) : Prop := ∀ kv ∈ ks.zip (fieldsOf w), kv.1.legal kv.2 = true

/-- The fields of R61 are those that the decoder extracts. -/
theorem fieldsOf_eq (w : Word) : fieldsOf w = [f1 w, f2 w, f3 w, f4 w, f5 w, f6 w].map (·.val) := rfl

theorem fieldsLegal_row (w : Word) (k1 k2 k3 k4 k5 k6 : Kind) :
    FieldsLegal [k1, k2, k3, k4, k5, k6] w ↔ k1.legal (f1 w).val = true ∧ k2.legal (f2 w).val = true ∧
      k3.legal (f3 w).val = true ∧ k4.legal (f4 w).val = true ∧ k5.legal (f5 w).val = true ∧
      k6.legal (f6 w).val = true := by
  simp [FieldsLegal, fieldsOf_eq]

@[simp] theorem legal_r (v : Nat) : Kind.r.legal v = true := rfl
@[simp] theorem legal_any (v : Nat) : Kind.any.legal v = true := rfl
@[simp] theorem legal_s (v : Nibble) : Kind.s.legal v.val = sregLegal v := rfl
@[simp] theorem legal_p (v : Nibble) : Kind.p.legal v.val = polLegal v := rfl
@[simp] theorem legal_z (v : Nibble) : Kind.z.legal v.val = true ↔ v = 0 :=
  beq_iff_eq.trans Fin.val_eq_zero_iff

/-- Each opcode stands in one row of R65 only. -/
theorem lookup_kindTable : ∀ row ∈ kindTable, kindTable.lookup row.1 = some row.2 := by decide

/-- A word is legal when the row of its opcode makes every field legal. -/
theorem wordLegal_iff (w : Word) :
    WordLegal w ↔ ∃ ks, kindTable.lookup (opcodeOf w) = some ks ∧ FieldsLegal ks w := by
  constructor
  · rintro ⟨row, hrow, hop, hf⟩
    have hk := lookup_kindTable row hrow
    rw [hop] at hk
    exact ⟨row.2, hk, hf⟩
  · rintro ⟨ks, hk, hf⟩
    obtain ⟨l, l', hl, -⟩ := List.lookup_eq_some_iff.mp hk
    exact ⟨(opcodeOf w, ks), hl ▸ List.mem_append_right l List.mem_cons_self, rfl, hf⟩

/-! ### The decoder on any word -/

/-- What decoding word `w` can give: the well-formed command whose word is the legal word `w`, or the rejection of an
illegal `w`. -/
inductive Decoded (w : Word) : Except Illegal Instr → Prop
  | legal (i : Instr) (hl : WordLegal w) (hi : i.wellFormed = true) (he : encode i = w) : Decoded w (.ok i)
  | illegal (e : Illegal) (hl : ¬ WordLegal w) : Decoded w (.error e)

section
variable {w : Word} {op : Nat} {ks : List Kind} (hop : opcodeOf w = op) (hk : kindTable.lookup op = some ks)
include hop hk

/-- A line of the decoder, by its row of R65: if the line's check `p` is what the row says of the fields, then the line
gives its command exactly for the legal words. -/
theorem decoded_row {p : Prop} {i : Instr} {r : Except Illegal Instr} (hf : FieldsLegal ks w ↔ p)
    (hr : ∀ j, r = .ok j ↔ p ∧ i = j) (hi : p → i.wellFormed = true) (he : p → encode i = w) : Decoded w r := by
  have hlegal : WordLegal w ↔ p := by simp [wordLegal_iff, hop, hk, hf]
  cases r with
  | ok j =>
    obtain ⟨hp, rfl⟩ := (hr j).mp rfl
    exact .legal i (hlegal.mpr hp) (hi hp) (he hp)
  | error e => exact .illegal e fun hl => nomatch (hr i).mpr ⟨hlegal.mp hl, rfl⟩

/-- A line whose only check is that the fields of kind `0` are 0. -/
theorem decoded_unused {zs : List Nibble} {i : Instr} (hf : FieldsLegal ks w ↔ ∀ z ∈ zs, z = 0)
    (hi : i.wellFormed = true) (he : (∀ z ∈ zs, z = 0) → encode i = w) : Decoded w (unused zs i) :=
  decoded_row hop hk hf (unused_eq_ok zs i) (fun _ => hi) he

/-- A line without a check: every field of its row may hold any value. -/
theorem decoded_ok {i : Instr} (hf : FieldsLegal ks w) (hi : i.wellFormed = true) (he : encode i = w) :
    Decoded w (.ok i) :=
  .legal i ((wordLegal_iff w).mpr ⟨ks, hop ▸ hk, hf⟩) hi he

end

/-- A word whose opcode stands in no row of R65 is illegal. -/
theorem not_wordLegal_of_unknown {w : Word} (h : ∀ row ∈ kindTable, opcodeOf w ≠ row.1) : ¬ WordLegal w := by
  rintro ⟨row, hrow, hop, -⟩
  exact h row hrow hop.symm

/-- The decoder, line by line: the row of the line's opcode has kind `0` where the line wants 0, and the word is put
together again from its fields. -/
theorem decode_decoded (w : Word) : Decoded w (decode w) := by
  have hw := packR_fields w
  unfold decode
  split
  -- No opcode of the table.
  case h_46 =>
    refine .illegal _ (not_wordLegal_of_unknown ?_)
    simp only [kindTable, kindsSystem, kindsScalar, kindsVector, kindsMatrix, kindsCodec, kindsShares, kindRow,
      List.forall_mem_append, List.forall_mem_cons, List.not_mem_nil, IsEmpty.forall_iff, implies_true, and_true]
    and_intros <;> assumption
  -- LI and LIH, of format I.
  case h_2 hop | h_3 hop =>
    refine decoded_unused hop rfl (by simp [fieldsLegal_row]) rfl fun hz => ?_
    rw [encode, ← hop]
    exact packI_fields w (by simpa using hz)
  -- MFS, MSTD and MINV, which check a system register or a pivot policy.
  case h_5 hop =>
    refine decoded_row hop rfl (p := sregLegal (f2 w) = true ∧ f3 w = 0 ∧ f4 w = 0 ∧ f5 w = 0 ∧ f6 w = 0)
      (i := .mfs (f1 w) (f2 w)) (by simp [fieldsLegal_row]) (by simp [needSreg_eq_ok, unused_eq_ok, and_assoc])
      (fun h => h.1) ?_
    rintro ⟨-, h3, h4, h5, h6⟩
    rwa [hop, h3, h4, h5, h6] at hw
  case h_28 hop =>
    refine decoded_row hop rfl (p := polLegal (f6 w) = true ∧ f4 w = 0 ∧ f5 w = 0)
      (i := .mstd (f1 w) (f2 w) (f3 w) (f6 w)) (by simp [fieldsLegal_row, and_comm, and_assoc])
      (by simp [needPol_eq_ok, unused_eq_ok, and_assoc]) (fun h => h.1) ?_
    rintro ⟨-, h4, h5⟩
    rwa [hop, h4, h5] at hw
  case h_29 hop =>
    refine decoded_row hop rfl (p := polLegal (f6 w) = true) (i := .minv (f1 w) (f2 w) (f3 w) (f4 w) (f5 w) (f6 w))
      (by simp [fieldsLegal_row]) (by simp [needPol_eq_ok]) id fun _ => ?_
    rwa [hop] at hw
  -- PDIV, MGET, MSET and MADDMUL, which use all six fields.
  case h_21 hop | h_22 hop | h_23 hop | h_27 hop =>
    refine decoded_ok hop rfl (by simp [fieldsLegal_row]) rfl ?_
    rwa [hop] at hw
  -- Every other command has format R and only register fields and fields of kind `0`.
  all_goals next hop =>
    refine decoded_unused hop rfl (by simp [fieldsLegal_row]) rfl fun hz => ?_
    simp only [List.forall_mem_cons, List.not_mem_nil, IsEmpty.forall_iff, implies_true, and_true] at hz
    simpa only [encode, hop, hz] using hw

/-- Settles O2: `decode_decoded` for a word that decodes. -/
theorem encodeInvertsDecode : Obligations.EncodeInvertsDecode := by
  intro w i h
  have hd : Decoded w (.ok i) := h ▸ decode_decoded w
  cases hd with
  | legal _ _ hi he => exact ⟨hi, he⟩

theorem Decoded.exists_ok_iff {w : Word} {r : Except Illegal Instr} (h : Decoded w r) :
    (∃ i, r = .ok i) ↔ WordLegal w := by
  cases h with
  | legal i hl => exact iff_of_true ⟨i, rfl⟩ hl
  | illegal e hl => exact iff_of_false (fun ⟨_, h⟩ => nomatch h) hl

/-! ### The step on a command word -/

section
variable {s : State} {w : Word} {rest : List HostAction} (hq : s.inbox = .command w :: rest)
include hq

theorem step_command_ok {i : Instr} (h : decode w = .ok i) : step s = exec i { s with inbox := rest } := by
  rw [step_cons hq, perform, accept, h]

theorem step_command_error {e : Illegal} (h : decode w = .error e) :
    step s = .next (State.raise { s with inbox := rest } w .illegalCommand) := by
  rw [step_cons hq, perform, accept, h]

end

/-- Settles O3: the legal words by `decode_decoded`; any other word is rejected, and its step raises the error. -/
theorem illegalWordsRaiseIllegalCommand : Obligations.IllegalWordsRaiseIllegalCommand := by
  have hiff (w : Word) := (decode_decoded w).exists_ok_iff
  refine ⟨hiff, fun s w rest hq hl => ?_⟩
  cases hd : decode w with
  | ok i => exact absurd ((hiff w).mp ⟨i, hd⟩) hl
  | error e => exact ⟨_, step_command_error hq hd, raised_clean _ w _, rfl⟩

/-- Settles O6: the host's next action is the command word, which `accept` decodes and runs. -/
theorem stepRunsTheDecodedCommand : Obligations.StepRunsTheDecodedCommand := fun _ _ _ _ hq => step_command_ok hq

end Sys2Proof.Machine
end

section
/-! How a command of any family ends, in the terms of the claims: its word, and the outcome of its check-and-compute
part. -/

namespace Sys2Proof.Machine

/-- A well-formed command of format R has the word that the encoder packs for it (30_encoding.md R61, R64). -/
theorem hasWord_of_wellFormed {i : Instr} {op : Nat} {g1 g2 g3 g4 g5 g6 : Nibble} (hi : i.wellFormed = true)
    (hop : op < 256) (he : encode i = packR op g1 g2 g3 g4 g5 g6) : HasWord i op [g1, g2, g3, g4, g5, g6] :=
  hasWord_of_packR hop he (he ▸ decodeInvertsEncode i hi)

/-- A well-formed command of format I has the word that the encoder packs for it (R62, R64). -/
theorem hasImmWord_of_wellFormed {i : Instr} {op : Nat} {rd : Nibble} {imm : BitVec 16} (hi : i.wellFormed = true)
    (hop : op < 256) (he : encode i = packI op rd imm) : HasImmWord i op rd imm :=
  ⟨he ▸ packI_toNat op rd imm hop, decodeInvertsEncode i hi⟩

section
variable {s : State} {i : Instr} {rd : Reg}

/-- A command that writes one register completes when its value can be computed. -/
theorem regDone_of_ok {p : Except Halt Word} {v : Word} (hi : exec i s = s.finishReg i rd p) (hp : p = .ok v) :
    ∃ t, exec i s = .next t ∧ RegDone s t rd v := by
  rw [hi, hp]
  exact ⟨_, rfl, regDone_of s rd v⟩

/-- A command that writes one register and fails a check changes nothing but the latch (60_exceptions.md R172). -/
theorem failsClean_of_reg {p : Except Halt Word} {e : ErrorCode} (hi : exec i s = s.finishReg i rd p)
    (hp : p = .error (.raised e)) : FailsClean i s e := by
  rw [FailsClean, hi, hp]
  exact ⟨_, rfl, raised_clean s _ e, rfl⟩

/-- A command that writes BUF completes when its new contents can be computed. -/
theorem memDone_of_ok {p : Except Halt Memory} {m : Memory} {w : Nat → Option Byte} (hi : exec i s = s.finishMem i p)
    (hp : p = .ok m) (hw : ∀ a, m.read a = w a) : ∃ t, exec i s = .next t ∧ MemDone s t w := by
  rw [hi, hp]
  exact ⟨_, rfl, memDone_of s m w hw⟩

/-- A command that writes BUF and fails a check changes nothing but the latch (R172). -/
theorem failsClean_of_mem {p : Except Halt Memory} {e : ErrorCode} (hi : exec i s = s.finishMem i p)
    (hp : p = .error (.raised e)) : FailsClean i s e := by
  rw [FailsClean, hi, hp]
  exact ⟨_, rfl, raised_clean s _ e, rfl⟩

end

end Sys2Proof.Machine
end

section
/-! The system, move and single-byte memory commands (40_system_moves.md R80 to R87). -/

namespace Sys2Proof.Machine

/-! ### One byte of BUF -/

section
variable {s : State} {a : Nat}

/-- A region of one byte lies inside BUF exactly when its address is below MEMSIZE (20_memory.md R43). -/
theorem inside_one_iff : Inside s a 1 ↔ a < s.memSize := by omega

theorem not_inside_one (h : s.memSize ≤ a) : ¬ Inside s a 1 := mt inside_one_iff.mp (Nat.not_lt.mpr h)

theorem holds_one {b : Byte} (h : s.mem.read a = some b) : Holds s a [b] := by
  intro i hi
  obtain rfl : i = 0 := Nat.lt_one_iff.mp hi
  exact h

end

section
variable {s : State} {ra : Reg}

theorem ldbValue_outside (h : s.memSize ≤ s.num ra) : ldbValue ra s = .error (.raised .busError) := by
  rw [ldbValue, demandInside_bus (not_inside_one h), error_bind]

theorem ldbValue_unwritten (h : s.num ra < s.memSize) (hn : s.mem.read (s.num ra) = none) :
    ldbValue ra s = .error (.refuse .unwrittenByte) := by
  rw [ldbValue, demandInside_ok (inside_one_iff.mpr h), ok_bind]
  exact load_bind_unwritten ⟨0, Nat.one_pos, hn⟩

theorem ldbValue_written {b : Byte} (h : s.num ra < s.memSize) (hb : s.mem.read (s.num ra) = some b) :
    ldbValue ra s = .ok (b.setWidth 32) := by
  rw [ldbValue, demandInside_ok (inside_one_iff.mpr h), ok_bind, load_of_holds (n := 1) rfl (holds_one hb), ok_bind]
  rfl

theorem stbMem_outside {rb : Reg} (h : s.memSize ≤ s.num ra) : stbMem ra rb s = .error (.raised .busError) := by
  rw [stbMem, demandInside_bus (not_inside_one h), error_bind]

theorem stbMem_inside {rb : Reg} (h : s.num ra < s.memSize) :
    stbMem ra rb s = .ok (s.mem.write (s.num ra) ((s.reg rb).setWidth 8)) := by
  rw [stbMem, demandInside_ok (inside_one_iff.mpr h), ok_bind]
  rfl

end

/-- Settles O22: the address check, then for LDB the byte read and for STB the byte written, one lemma per outcome. -/
theorem singleByteLoadAndStore : Obligations.SingleByteLoadAndStore := by
  intro rd ra rb s
  constructor
  · exact ⟨hasWord_of_wellFormed rfl (by decide) rfl, fun h => failsClean_of_reg rfl (ldbValue_outside h),
      fun h hn => finishReg_refused (ldbValue_unwritten h hn), fun b h hb => regDone_of_ok rfl (ldbValue_written h hb)⟩
  · exact ⟨hasWord_of_wellFormed rfl (by decide) rfl, fun h => failsClean_of_mem rfl (stbMem_outside h),
      fun h => memDone_of_ok rfl (stbMem_inside h) fun x => read_write s.mem (s.num ra) x _⟩

/-! ### Moves and system registers -/

/-- Settles O19: both commands have a fixed word and a next state without a check. -/
theorem nopAndClrerr : Obligations.NopAndClrerr :=
  ⟨hasWord_of_wellFormed rfl (by decide) rfl, hasWord_of_wellFormed rfl (by decide) rfl, fun _ => ⟨rfl, rfl⟩⟩

/-- A half word above the low half of a word, as a number (R82). -/
theorem append_lowHalf_eq (imm : BitVec 16) (v : Word) :
    (imm ++ v.setWidth 16 : BitVec (16 + 16)) = BitVec.ofNat 32 (imm.toNat * 65536 + v.toNat % 65536) := by
  have himm := imm.isLt
  apply BitVec.eq_of_toNat_eq
  rw [BitVec.toNat_append, BitVec.toNat_setWidth, ← Nat.shiftLeft_add_eq_or_of_lt (Nat.mod_lt _ (by decide)),
    Nat.shiftLeft_eq, BitVec.toNat_ofNat]
  omega

/-- Settles O20: the three values, each computed without a check. -/
theorem constantsAndMoves : Obligations.ConstantsAndMoves := by
  intro rd ra imm s
  refine ⟨⟨hasImmWord_of_wellFormed rfl (by decide) rfl, ?_⟩, ⟨hasImmWord_of_wellFormed rfl (by decide) rfl, ?_⟩,
    hasWord_of_wellFormed rfl (by decide) rfl, ?_⟩
  · rw [BitVec.ofNat_toNat]
    exact regDone_of_ok rfl rfl
  · rw [← append_lowHalf_eq]
    exact regDone_of_ok rfl rfl
  · exact regDone_of_ok rfl rfl

/-- MFS delivers the system register with its number (R83). -/
theorem regDone_mfs {s : State} {rd : Reg} {sreg : Nibble} {v : Word} (h : s.sysReg sreg = some v) :
    ∃ t, exec (.mfs rd sreg) s = .next t ∧ RegDone s t rd v :=
  regDone_of_ok rfl (by rw [h])

/-- STATUS in the terms of the slot and of ERRS (10_state.md R22). -/
theorem status_eq (s : State) :
    s.status = BitVec.ofNat 32 ((if s.codec = none then 0 else 1) + 2 * (if s.errs = true then 1 else 0)) := by
  unfold State.status State.valid
  cases s.codec <;> cases s.errs <;> rfl

theorem cfg_none {s : State} (h : s.codec = none) : s.cfg = 0 := by simp only [State.cfg, State.k, State.n, h]; rfl

theorem cfg_some {s : State} {c : Codec} (h : s.codec = some c) : s.cfg = BitVec.ofNat 32 (c.k + 65536 * c.n) := by
  simp only [State.cfg, State.k, State.n, h]

/-- Settles O21: the nine numbers one by one; STATUS and CFG are laid out by `status_eq` and by the slot's content. -/
theorem mfsReadsSystemRegisters : Obligations.MfsReadsSystemRegisters := by
  intro rd sreg s h
  refine ⟨hasWord_of_wellFormed (decide_eq_true (Nat.le_of_lt_succ h)) (by decide) rfl, regDone_mfs ?_⟩
  match sreg, h with
  | ⟨0, _⟩, _ => exact congrArg some (status_eq s)
  | ⟨5, _⟩, _ =>
    cases hc : s.codec with
    | none => exact congrArg some (cfg_none hc)
    | some c => exact congrArg some (cfg_some hc)
  | ⟨1, _⟩, _ | ⟨2, _⟩, _ | ⟨3, _⟩, _ | ⟨4, _⟩, _ | ⟨6, _⟩, _ | ⟨7, _⟩, _ | ⟨8, _⟩, _ => rfl
  | ⟨n + 9, _⟩, h => exact absurd h (Nat.not_lt.mpr (Nat.le_add_left 9 n))

end Sys2Proof.Machine
end

section
/-! The laws of the field (41_scalar_field.md R97). Each one is trivial where an element is 0, and elsewhere it is a
fact about exponents, because every nonzero element is a power of the generator. -/

namespace Sys2Proof.Machine

theorem gfMul_comm (a b : Byte) : gfMul a b = gfMul b a := by
  by_cases ha : a = 0#8
  · rw [ha, gfMul_zero_left, gfMul_zero_right]
  by_cases hb : b = 0#8
  · rw [hb, gfMul_zero_left, gfMul_zero_right]
  obtain ⟨i, rfl⟩ := exists_gfExp ha
  obtain ⟨j, rfl⟩ := exists_gfExp hb
  rw [gfMul_gfExp, gfMul_gfExp, Nat.add_comm]

/-- Multiplying by `2^i` is doubling `i` times, which can be done to either factor of a product. -/
theorem gfMul_assoc (a b c : Byte) : gfMul (gfMul a b) c = gfMul a (gfMul b c) := by
  by_cases ha : a = 0#8
  · simp only [ha, gfMul_zero_left]
  obtain ⟨i, rfl⟩ := exists_gfExp ha
  rw [gfMul_gfExp_left, gfMul_gfExp_left, gfMul_comm (xtimes i b), gfMul_xtimes, gfMul_comm c]

theorem one_gfMul (a : Byte) : gfMul 1 a = a := by rw [gfMul_comm, gfMul_one]

/-- R94: an element times its inverse is `2^255 = 1`. -/
theorem gfMul_gfInv {a : Byte} (h : a ≠ 0) : gfMul a (gfInv a) = 1 := by
  have hlog := gfLog_le h
  calc gfMul a (gfInv a) = gfMul (gfExp (gfLog a)) (gfExp (255 - gfLog a)) := by rw [gfExp_gfLog h, gfInv_eq h]
    _ = gfExp (gfLog a + (255 - gfLog a)) := gfMul_gfExp _ _
    _ = gfExp (0 + 255) := congrArg gfExp (by omega)
    _ = 1 := by rw [gfExp_add_255, gfExp_zero]

/-- R92: the quotient times the divisor is the dividend. -/
theorem gfDiv_gfMul {b : Byte} (a : Byte) (hb : b ≠ 0) : gfMul (gfDiv a b) b = a := by
  rw [gfMul_comm, gfMul_gfDiv a hb]

theorem gfDiv_zero_left (b : Byte) : gfDiv 0 b = 0 := if_pos rfl

/-- R93: a power of the generator, multiplied `e` times. -/
theorem repeatedProduct_gfExp (i e : Nat) : repeatedProduct (gfExp i) e = gfExp (i * e) := by
  induction e with
  | zero => exact gfExp_zero.symm
  | succ e ih => rw [repeatedProduct, ih, gfMul_gfExp, Nat.mul_succ]

/-- R93: the closed form is the repeated multiplication. -/
theorem gfPow_eq_repeatedProduct (a : Byte) (e : Nat) : gfPow a e = repeatedProduct a e := by
  cases e with
  | zero => rfl
  | succ e =>
    rw [gfPow, if_neg e.succ_ne_zero]
    split
    next ha => rw [ha, repeatedProduct]; exact (gfMul_zero_right _).symm
    next ha => rw [gfExp_mod, ← repeatedProduct_gfExp, gfExp_gfLog ha]

/-- R13: the table's filler at the element 0. -/
theorem gfLog_zero : gfLog 0 = 255 := by decide

/-- R13: the element is the power of 2 that its logarithm says. -/
theorem xtimes_gfLog {a : Byte} (h : a ≠ 0) : xtimes (gfLog a) 1 = a := by rw [← gfExp_eq_xtimes, gfExp_gfLog h]

/-- The first 255 powers of 2 are distinct: the logarithm tells them apart. -/
theorem xtimes_one_ne {i j : Nat} (hij : i < j) (hj : j ≤ 254) : xtimes i 1 ≠ xtimes j 1 := by
  intro h
  rw [← gfExp_eq_xtimes, ← gfExp_eq_xtimes] at h
  have hlog : i % 255 = j % 255 := by rw [← gfLog_gfExp, h, gfLog_gfExp]
  omega

/-- Settles O29: the laws above, and 2 as a generator by the tables of exponents and logarithms. -/
theorem fieldLawsHold : Obligations.FieldLawsHold :=
  ⟨gfMul_comm, gfMul_assoc, gfMul_xor, one_gfMul, fun _ => gfMul_gfInv,
    fun a ha => ⟨gfLog a, gfLog_le ha, (xtimes_gfLog ha).symm⟩, fun _ _ => xtimes_one_ne⟩

end Sys2Proof.Machine
end

section
/-! The scalar field commands (41_scalar_field.md R90 to R96): the outcome of each check, and the law of the operator
that says what the completing command delivers. -/

namespace Sys2Proof.Machine

section
variable {s : State} {ra rb : Reg}

theorem gfdivValue_zero (h : s.elem rb = 0) : gfdivValue ra rb s = .error (.raised .divideByZero) := by
  rw [gfdivValue, h]; rfl

theorem gfdivValue_nonzero (h : s.elem rb ≠ 0) :
    gfdivValue ra rb s = .ok (zext32 (gfDiv (s.elem ra) (s.elem rb))) := by
  rw [gfdivValue, bne_iff_ne.mpr h, demand_true, ok_bind]

theorem gfinvValue_zero (h : s.elem ra = 0) : gfinvValue ra s = .error (.raised .invertZero) := by
  rw [gfinvValue, h]; rfl

theorem gfinvValue_nonzero (h : s.elem ra ≠ 0) : gfinvValue ra s = .ok (zext32 (gfInv (s.elem ra))) := by
  rw [gfinvValue, bne_iff_ne.mpr h, demand_true, ok_bind]

theorem gfexpValue_above (h : 509 < s.num ra) : gfexpValue ra s = .error (.raised .operandRange) := by
  rw [gfexpValue, decide_eq_false (Nat.not_le.mpr h), demand_false, error_bind]

theorem gfexpValue_le (h : s.num ra ≤ 509) : gfexpValue ra s = .ok (zext32 (xtimes (s.num ra) 1)) := by
  rw [gfexpValue, decide_eq_true h, demand_true, ok_bind, gfExp_eq_xtimes]

end

/-- Settles O23: the value is computed without a check. -/
theorem gfaddIsXor : Obligations.GfaddIsXor := fun _ _ _ _ =>
  ⟨hasWord_of_wellFormed rfl (by decide) rfl, regDone_of_ok rfl rfl⟩

/-- Settles O25: the divisor is checked, and the quotient undoes the product. -/
theorem gfdivUndoesMultiplication : Obligations.GfdivUndoesMultiplication := by
  intro rd ra rb s
  refine ⟨hasWord_of_wellFormed rfl (by decide) rfl, fun h => failsClean_of_reg rfl (gfdivValue_zero h), fun h => ?_⟩
  obtain ⟨t, ht, hdone⟩ := regDone_of_ok (i := .gfdiv rd ra rb) rfl (gfdivValue_nonzero h)
  refine ⟨t, gfDiv (s.elem ra) (s.elem rb), ht, hdone, gfDiv_gfMul _ h, fun ha => ?_⟩
  rw [State.elem, b8, ha, gfDiv_zero_left]

/-- Settles O26: the closed form of the power is the repeated product. -/
theorem gfpowRepeatsMultiplication : Obligations.GfpowRepeatsMultiplication := by
  intro rd ra re s
  refine ⟨hasWord_of_wellFormed rfl (by decide) rfl, ?_⟩
  rw [← gfPow_eq_repeatedProduct]
  exact regDone_of_ok rfl rfl

/-- Settles O27: the element is checked, and the table holds its inverse. -/
theorem gfinvGivesTheInverse : Obligations.GfinvGivesTheInverse := by
  intro rd ra s
  refine ⟨hasWord_of_wellFormed rfl (by decide) rfl, fun h => failsClean_of_reg rfl (gfinvValue_zero h), fun h => ?_⟩
  obtain ⟨t, ht, hdone⟩ := regDone_of_ok (i := .gfinv rd ra) rfl (gfinvValue_nonzero h)
  exact ⟨t, gfInv (s.elem ra), ht, hdone, gfMul_gfInv h⟩

/-- Settles O28: the index of GFEXP is checked against the table's end; GFLOG reads its table without a check. -/
theorem gfexpAndGflogReadTheTables : Obligations.GfexpAndGflogReadTheTables := by
  intro rd ra s
  constructor
  · exact ⟨hasWord_of_wellFormed rfl (by decide) rfl, fun h => failsClean_of_reg rfl (gfexpValue_above h),
      fun h => regDone_of_ok rfl (gfexpValue_le h)⟩
  · obtain ⟨t, ht, hdone⟩ := regDone_of_ok (i := .gflog rd ra) (s := s) rfl rfl
    refine ⟨hasWord_of_wellFormed rfl (by decide) rfl, t, gfLog (s.elem ra), ht, hdone, fun h => ?_,
      fun h => ⟨gfLog_le h, xtimes_gfLog h⟩⟩
    rw [State.elem, b8, h, gfLog_zero]

end Sys2Proof.Machine
end

section
/-! Coefficients of polynomials (20_memory.md R54, 42_vector_poly.md R104, R105): the coefficient of `x^d` stands at
position `d` of the reversed sequence, and so every operator on sequences is an operation on coefficients. -/

namespace Sys2Proof.Machine

/-! ### Coefficients -/

theorem coeff_eq_getD_reverse (p : List Byte) (d : Nat) : coeff p d = p.reverse.getD d 0 := by
  unfold coeff
  split
  next h => rw [List.getD_eq_getElem?_getD, List.getD_eq_getElem?_getD, List.getElem?_reverse h]
  next h => rw [List.getD_eq_default _ _ (by simpa using h)]

theorem coeff_eq_zero {p : List Byte} {d : Nat} (h : p.length ≤ d) : coeff p d = 0#8 := if_neg (Nat.not_lt.mpr h)

/-- The element at position `i` is the coefficient of its degree (R54). -/
theorem getD_eq_coeff {p : List Byte} {i : Nat} (h : i < p.length) : p.getD i 0 = coeff p (p.length - 1 - i) := by
  rw [coeff, if_pos (by omega), show p.length - 1 - (p.length - 1 - i) = i by omega]

/-- In a concatenation the second sequence holds the low degrees. -/
theorem coeff_append (u v : List Byte) (d : Nat) :
    coeff (u ++ v) d = if d < v.length then coeff v d else coeff u (d - v.length) := by
  simp only [coeff_eq_getD_reverse, List.reverse_append]
  split
  next h => rw [List.getD_append _ _ _ _ (by simpa using h)]
  next h => rw [List.getD_append_right _ _ _ _ (by simpa using h), List.length_reverse]

@[simp] theorem coeff_zeros (n d : Nat) : coeff (zeros n) d = 0#8 := by
  rw [coeff_eq_getD_reverse, zeros, List.reverse_replicate, List.getD_eq_getElem?_getD, List.getElem?_replicate]
  split <;> rfl

/-- Zeros at the high-degree end change no coefficient (R104). -/
@[simp] theorem coeff_zeros_append (n : Nat) (p : List Byte) (d : Nat) : coeff (zeros n ++ p) d = coeff p d := by
  rw [coeff_append, coeff_zeros]
  split
  next => rfl
  next h => exact (coeff_eq_zero (Nat.not_lt.mp h)).symm

theorem coeff_padTo (n : Nat) (p : List Byte) (d : Nat) : coeff (padTo n p) d = coeff p d := coeff_zeros_append _ p d

/-- Zeros at the low-degree end raise every degree (R105, "degree-aligned"). -/
theorem coeff_append_zeros (p : List Byte) (n d : Nat) :
    coeff (p ++ zeros n) d = if n ≤ d then coeff p (d - n) else 0#8 := by
  rw [coeff_append, length_zeros, coeff_zeros]
  split
  next h => rw [if_neg (Nat.not_le.mpr h)]
  next h => rw [if_pos (Nat.not_lt.mp h)]

theorem coeff_cons (c : Byte) (p : List Byte) (d : Nat) :
    coeff (c :: p) d = if d = p.length then c else coeff p d := by
  rw [← List.singleton_append, coeff_append]
  rcases Nat.lt_trichotomy d p.length with h | h | h
  · rw [if_pos h, if_neg h.ne]
  · rw [if_neg h.not_lt, if_pos h, h, Nat.sub_self]; rfl
  · rw [if_neg h.not_gt, if_neg h.ne', coeff_eq_zero h.le]
    exact coeff_eq_zero (Nat.sub_pos_of_lt h)

/-- Dropping a leading zero changes no coefficient (R105). -/
theorem coeff_tail {p : List Byte} (h : p.getD 0 0 = 0) (d : Nat) : coeff p.tail d = coeff p d := by
  cases p with
  | nil => rfl
  | cons c p =>
    obtain rfl : c = 0 := h
    exact (coeff_zeros_append 1 p d).symm

theorem coeff_stripZeros (p : List Byte) (d : Nat) : coeff (stripZeros p) d = coeff p d := by
  unfold stripZeros
  induction p with
  | nil => rfl
  | cons c p ih =>
    rw [List.dropWhile_cons]
    split
    next h => rw [ih]; exact coeff_tail (p := c :: p) (eq_of_beq h) d
    next => rfl

theorem coeff_polyscale (p : List Byte) (f : Byte) (d : Nat) : coeff (polyscale p f) d = gfMul (coeff p d) f := by
  simp only [coeff, length_polyscale, getD_polyscale]
  split
  next => rfl
  next => exact (gfMul_zero_left f).symm

theorem coeff_seqAdd {u v : List Byte} (h : u.length = v.length) (d : Nat) :
    coeff (seqAdd u v) d = coeff u d ^^^ coeff v d := by
  simp only [coeff, length_seqAdd, h, Nat.min_self]
  split
  next hd => exact getD_zipWith gfAdd u v _ (by omega) (by omega)
  next => rfl

/-- R104: the sum adds the coefficients of equal degree. -/
theorem coeff_polyadd (a b : List Byte) (d : Nat) : coeff (polyadd a b) d = coeff a d ^^^ coeff b d := by
  rw [polyadd, coeff_seqAdd, coeff_padTo, coeff_padTo]
  rw [length_padTo (Nat.le_max_left _ _), length_padTo (Nat.le_max_right _ _)]

/-! ### The product of two polynomials -/

theorem sumTo_xor (n : Nat) (g h : Nat → Byte) : (sumTo n fun i => g i ^^^ h i) = sumTo n g ^^^ sumTo n h := by
  induction n with
  | zero => simp only [sumTo_zero]; rfl
  | succ n ih => rw [sumTo_succ, sumTo_succ, sumTo_succ, ih]; ac_rfl

/-- A sum with one term that can be nonzero. -/
theorem sumTo_single (n k : Nat) (v : Byte) :
    (sumTo n fun i => if i = k then v else 0#8) = if k < n then v else 0#8 := by
  induction n with
  | zero => rfl
  | succ n ih =>
    rw [sumTo_succ, ih]
    rcases Nat.lt_trichotomy k n with h | h | h
    · rw [if_pos h, if_neg h.ne', if_pos (Nat.lt_succ_of_lt h), BitVec.xor_zero]
    · rw [if_neg h.not_lt, if_pos h.symm, if_pos (h ▸ Nat.lt_succ_self k), BitVec.zero_xor]
    · rw [if_neg h.not_gt, if_neg h.ne, if_neg (Nat.not_lt.mpr h), BitVec.xor_zero]

theorem productCoeff_nil (b : List Byte) (d : Nat) : productCoeff [] b d = 0#8 :=
  (sumTo_congr fun _ _ => gfMul_zero_left _).trans (sumTo_zero_fun _)

/-- A further leading coefficient adds its own multiple of the second factor, raised to its degree. -/
theorem productCoeff_cons (c : Byte) (q b : List Byte) (d : Nat) :
    productCoeff (c :: q) b d =
      productCoeff q b d ^^^ if q.length ≤ d then gfMul (coeff b (d - q.length)) c else 0#8 := by
  have hterm : ∀ i, gfMul (coeff (c :: q) i) (coeff b (d - i)) =
      gfMul (coeff q i) (coeff b (d - i)) ^^^ if i = q.length then gfMul (coeff b (d - q.length)) c else 0#8 := by
    intro i
    rw [coeff_cons]
    split
    next h => rw [h, coeff_eq_zero (Nat.le_refl _), gfMul_zero_left, BitVec.zero_xor, gfMul_comm]
    next => rw [BitVec.xor_zero]
  rw [productCoeff, sumTo_congr fun i _ => hterm i, sumTo_xor, sumTo_single]
  simp only [Nat.lt_succ_iff]
  rfl

/-- The leading zeros of a factor do not matter. -/
theorem productCoeff_stripZeros (q b : List Byte) (d : Nat) : productCoeff q (stripZeros b) d = productCoeff q b d :=
  sumTo_congr fun i _ => by rw [coeff_stripZeros]

/-! ### The identity of the long division -/

/-- A round of the loop appends a coefficient `c` to the quotient, takes the divisor times `c`, aligned with the
dividend's high-degree end, off the dividend, and shortens the dividend by its leading term (R105). -/
theorem divLoop_round {b : List Byte} {fuel : Nat} {q p q' r : List Byte} (hle : b.length ≤ p.length)
    (h : divLoop b (fuel + 1) q p = .ok (q', r)) :
    ∃ c p', divLoop b fuel (q ++ [c]) p' = .ok (q', r) ∧ p'.length = p.length - 1 ∧
      ∀ d, coeff p' d = coeff p d ^^^
        if p.length - b.length ≤ d then gfMul (coeff b (d - (p.length - b.length))) c else 0#8 := by
  rw [divLoop, if_pos hle] at h
  have hlen (c : Byte) : p.length = (polyscale b c ++ zeros (p.length - b.length)).length := by
    rw [List.length_append, length_polyscale, length_zeros, Nat.add_sub_cancel' hle]
  simp only at h
  split at h
  next hzero =>
    refine ⟨_, _, h, ?_, fun d => ?_⟩
    · rw [List.length_tail, length_seqAdd, ← hlen, Nat.min_self]
    · rw [coeff_tail hzero, coeff_seqAdd (hlen _), coeff_append_zeros, coeff_polyscale]
  next => cases h

/-- How many coefficients the loop adds to the quotient (R105 (a)). -/
theorem length_divLoop_quotient {b : List Byte} (hb : b.getD 0 0 ≠ 0) {fuel : Nat} {q p q' r : List Byte}
    (hf : p.length ≤ fuel) (h : divLoop b fuel q p = .ok (q', r)) :
    q'.length = q.length + (p.length + 1 - b.length) := by
  obtain ⟨q₁, r₁, h₁, hlen⟩ := divLoop_ok b hb fuel q p hf
  obtain ⟨rfl, rfl⟩ : q₁ = q' ∧ r₁ = r := by simpa using h₁.symm.trans h
  split at hlen <;> omega

/-- R105 (h) for the loop: what remains of the dividend is the further quotient times the divisor, plus the remainder.
Each round takes the divisor times its quotient coefficient, raised to that coefficient's degree, off the dividend. -/
theorem divLoop_identity {b : List Byte} (hb : b.getD 0 0 ≠ 0) {fuel : Nat} {q p q' r : List Byte}
    (hf : p.length ≤ fuel) (h : divLoop b fuel q p = .ok (q', r)) :
    ∃ s, q' = q ++ s ∧ ∀ d, coeff p d = productCoeff s b d ^^^ coeff r d := by
  have hpos : 0 < b.length := List.length_pos_iff.mpr fun hnil => hb (congrArg (List.getD · 0 0) hnil)
  have done : ∀ p d, coeff p d = productCoeff [] b d ^^^ coeff p d := fun p d => by
    rw [productCoeff_nil, BitVec.zero_xor]
  induction fuel generalizing q p with
  | zero => cases h; exact ⟨[], (List.append_nil _).symm, done _⟩
  | succ fuel ih =>
    by_cases hle : b.length ≤ p.length
    · obtain ⟨c, p', h', hp', hcoeff⟩ := divLoop_round hle h
      have hlen := length_divLoop_quotient hb (by omega) h'
      obtain ⟨s, rfl, hs⟩ := ih (by omega) h'
      have hs_len : s.length = p.length - b.length := by
        rw [List.length_append (as := q ++ [c])] at hlen
        omega
      refine ⟨c :: s, List.append_assoc _ _ _, fun d => ?_⟩
      rw [productCoeff_cons, BitVec.xor_assoc, BitVec.xor_comm _ (coeff r d), ← BitVec.xor_assoc, ← hs d, hcoeff,
        hs_len, BitVec.xor_assoc, BitVec.xor_self, BitVec.xor_zero]
    · rw [divLoop, if_neg hle] at h
      cases h
      exact ⟨[], (List.append_nil _).symm, done _⟩

/-- R105 (h): the dividend is the quotient times the divisor, plus the remainder. -/
theorem polydiv_identity {A B q r : List Byte} (h : polydiv A B = .ok (q, r)) (d : Nat) :
    coeff A d = productCoeff q B d ^^^ coeff r d := by
  unfold polydiv at h
  split at h
  next => cases h
  next hB =>
    obtain ⟨s, rfl, hs⟩ := divLoop_identity (stripZeros_head hB) (Nat.le_refl _) h
    rw [← coeff_stripZeros A, ← productCoeff_stripZeros _ B]
    exact hs d

/-- The divisor vanishes exactly when every element of it is 0 (R105). -/
theorem length_stripZeros_eq_zero_iff (p : List Byte) : (stripZeros p).length = 0 ↔ ∀ c ∈ p, c = 0 := by
  simp [stripZeros]

end Sys2Proof.Machine
end

section
/-! The vector and polynomial commands (42_vector_poly.md R100 to R105): the outcome of each command's checks, and what
the completing command delivers or stores. -/

namespace Sys2Proof.Machine

/-! ### Region checks and stores in the terms of the claims -/

/-- A sequence that begins with a failing region check ends with BusError (20_memory.md R43). -/
theorem demandInside_bind_bus {α : Type} {s : State} {a n : Nat} {f : Unit → Except Halt α} (h : ¬ Inside s a n) :
    (s.demandInside ⟨a, n⟩ >>= f) = .error (.raised .busError) := by rw [demandInside_bus h, error_bind]

/-- A sequence that begins with two region checks, one of them failing, ends with BusError. -/
theorem demandInside_pair_bus {α : Type} {s : State} {a n b m : Nat} {f : Unit → Unit → Except Halt α}
    (h : ¬ (Inside s a n ∧ Inside s b m)) :
    (s.demandInside ⟨a, n⟩ >>= fun u => s.demandInside ⟨b, m⟩ >>= f u) = .error (.raised .busError) := by
  by_cases ha : Inside s a n
  · rw [demandInside_ok ha, ok_bind]
    exact demandInside_bind_bus fun hb => h ⟨ha, hb⟩
  · exact demandInside_bind_bus ha

/-- A store of `n` bytes, each given by its position. -/
theorem read_writeBytes_storedBy {s : State} {n : Nat} {u : List Byte} {g : Nat → Byte} (a : Nat) (hn : u.length = n)
    (hg : ∀ i, i < n → u.getD i 0 = g i) (x : Nat) : (s.mem.writeBytes a u).read x = storedBy s a n g x := by
  rw [read_writeBytes, storedInto, storedBy, hn]
  split
  next hx =>
    have hi : x - a < u.length := by omega
    rw [← hg (x - a) (by omega), List.getElem?_eq_getElem hi, List.getD_eq_getElem _ _ hi]
  next => rfl

/-- Two stores, one after the other. -/
theorem read_writeBytes_twice (s : State) (a b : Nat) (u v : List Byte) (x : Nat) :
    ((s.mem.writeBytes a u).writeBytes b v).read x = storedInto (stored s a u) b v x := by
  rw [read_writeBytes, show (s.mem.writeBytes a u).read = stored s a u from funext fun y => read_writeBytes s.mem a y u]

/-! ### Results on sequences -/

/-- R100: the dot product is the sum of the products of corresponding elements. -/
theorem dot_eq_sumTo {n : Nat} {u v : List Byte} (hu : u.length = n) (hv : v.length = n) :
    dot u v = sumTo n fun i => gfMul (u.getD i 0) (v.getD i 0) := by
  rw [dot, gfSum_eq_sumTo, List.length_zipWith, hu, hv, Nat.min_self]
  exact sumTo_congr fun i hi => getD_zipWith gfMul u v i (by omega) (by omega)

/-- R102: the value of a polynomial, its powers as repeated products (41_scalar_field.md R93). -/
theorem polyeval_eq_sumTo_repeatedProduct {n : Nat} {p : List Byte} (hp : p.length = n) (x : Byte) :
    polyeval p x = sumTo n fun i => gfMul (p.getD (n - 1 - i) 0) (repeatedProduct x i) := by
  rw [polyeval_eq_sumTo, hp]
  exact sumTo_congr fun i _ => by rw [gfPow_eq_repeatedProduct]

/-- R104: each element of a sum of polynomials is the sum of the coefficients of its degree. -/
theorem getD_polyadd {a b : List Byte} {i : Nat} (h : i < max a.length b.length) :
    (polyadd a b).getD i 0 =
      coeff a (max a.length b.length - 1 - i) ^^^ coeff b (max a.length b.length - 1 - i) := by
  rw [getD_eq_coeff (by rwa [length_polyadd]), length_polyadd, coeff_polyadd]

/-! ### VDOT, VADDMUL, PEVAL, PSCALE -/

section
variable {s : State} {ra rb rl rf : Reg}

theorem vdotValue_outside (h : ¬ (Inside s (s.num ra) (s.num rl) ∧ Inside s (s.num rb) (s.num rl))) :
    vdotValue ra rb rl s = .error (.raised .busError) := demandInside_pair_bus h

theorem pevalValue_outside {rx : Reg} (h : ¬ Inside s (s.num ra) (s.num rl)) :
    pevalValue ra rl rx s = .error (.raised .busError) := demandInside_bind_bus h

theorem vaddmulMem_outside (h : ¬ (Inside s (s.num ra) (s.num rl) ∧ Inside s (s.num rb) (s.num rl))) :
    vaddmulMem ra rb rl rf s = .error (.raised .busError) := demandInside_pair_bus h

theorem pscaleMem_outside (h : ¬ (Inside s (s.num ra) (s.num rl) ∧ Inside s (s.num rb) (s.num rl))) :
    pscaleMem ra rb rl rf s = .error (.raised .busError) := demandInside_pair_bus h

theorem pevalValue_written {rx : Reg} {p : List Byte} (hp : p.length = s.num rl) (ha : Inside s (s.num ra) (s.num rl))
    (hold : Holds s (s.num ra) p) : pevalValue ra rl rx s = .ok (zext32 (polyeval p (s.elem rx))) := by
  simp only [pevalValue, demandInside_ok ha, load_of_holds hp hold, ok_bind]

variable (ha : Inside s (s.num ra) (s.num rl)) (hb : Inside s (s.num rb) (s.num rl))
include ha hb

theorem vdotValue_written {u v : List Byte} (hu : u.length = s.num rl) (hv : v.length = s.num rl)
    (hold_u : Holds s (s.num ra) u) (hold_v : Holds s (s.num rb) v) :
    vdotValue ra rb rl s = .ok (zext32 (dot u v)) := by
  simp only [vdotValue, demandInside_ok ha, demandInside_ok hb, load_of_holds hu hold_u, load_of_holds hv hold_v,
    ok_bind]

variable (hap : Apart (s.num ra) (s.num rl) (s.num rb) (s.num rl))
include hap

theorem vaddmulMem_written {u v : List Byte} (hu : u.length = s.num rl) (hv : v.length = s.num rl)
    (hold_u : Holds s (s.num ra) u) (hold_v : Holds s (s.num rb) v) :
    vaddmulMem ra rb rl rf s = .ok (s.mem.writeBytes (s.num ra) (addmul u v (s.elem rf))) := by
  simp only [vaddmulMem, demandInside_ok ha, demandInside_ok hb, demandNoClash_ok ((noClash_single _ _ _ _).mpr hap),
    load_of_holds hu hold_u, load_of_holds hv hold_v, ok_bind]

theorem pscaleMem_written {p : List Byte} (hp : p.length = s.num rl) (hold : Holds s (s.num rb) p) :
    pscaleMem ra rb rl rf s = .ok (s.mem.writeBytes (s.num ra) (polyscale p (s.elem rf))) := by
  simp only [pscaleMem, demandInside_ok ha, demandInside_ok hb, demandNoClash_ok ((noClash_single _ _ _ _).mpr hap),
    load_of_holds hp hold, ok_bind]

end

/-- Settles O30: the two region checks, and the dot product as a sum over positions. -/
theorem vdotSumsProducts : Obligations.VdotSumsProducts := by
  intro rd ra rb rl s
  refine ⟨hasWord_of_wellFormed rfl (by decide) rfl, fun h => failsClean_of_reg rfl (vdotValue_outside h), ?_⟩
  intro u v hu hv ha hb hold_u hold_v
  rw [← dot_eq_sumTo hu hv]
  exact regDone_of_ok rfl (vdotValue_written ha hb hu hv hold_u hold_v)

/-- Settles O31: the two region checks, and the element that VADDMUL stores at each position. -/
theorem vaddmulAccumulates : Obligations.VaddmulAccumulates := by
  intro rdst rsrc rl rf s
  refine ⟨hasWord_of_wellFormed rfl (by decide) rfl, fun h => failsClean_of_mem rfl (vaddmulMem_outside h), ?_⟩
  intro u v hu hv hd hs hap hold_u hold_v
  have hlen : (addmul u v (s.elem rf)).length = s.num rl := by rw [length_addmul, hu, hv, Nat.min_self]
  exact memDone_of_ok rfl (vaddmulMem_written hd hs hap hu hv hold_u hold_v)
    (read_writeBytes_storedBy _ hlen fun i hi => getD_addmul _ (hu ▸ hi) (hv ▸ hi))

/-- Settles O32: the region check, and the value of the polynomial as the sum of its terms. -/
theorem pevalSumsTerms : Obligations.PevalSumsTerms := by
  intro rd rp rl rx s
  refine ⟨hasWord_of_wellFormed rfl (by decide) rfl, fun h => failsClean_of_reg rfl (pevalValue_outside h), ?_⟩
  intro p hp hin hold
  rw [← polyeval_eq_sumTo_repeatedProduct hp]
  exact regDone_of_ok rfl (pevalValue_written hp hin hold)

/-- Settles O33: the two region checks, and the coefficient that PSCALE stores at each position. -/
theorem pscaleScalesEveryCoefficient : Obligations.PscaleScalesEveryCoefficient := by
  intro rdst rp rl rf s
  refine ⟨hasWord_of_wellFormed rfl (by decide) rfl, fun h => failsClean_of_mem rfl (pscaleMem_outside h), ?_⟩
  intro p hp hd hs hap hold
  exact memDone_of_ok rfl (pscaleMem_written hd hs hap hp hold)
    (read_writeBytes_storedBy _ ((length_polyscale p _).trans hp) fun i _ => getD_polyscale p _ i)

/-! ### PADD -/

section
variable {s : State} {rd ra rla rb rlb : Reg}

theorem paddMem_outside (h : ¬ (Inside s (s.num rd) (max (s.num rla) (s.num rlb)) ∧ Inside s (s.num ra) (s.num rla) ∧
      Inside s (s.num rb) (s.num rlb))) : paddMem rd ra rla rb rlb s = .error (.raised .busError) := by
  by_cases hd : Inside s (s.num rd) (max (s.num rla) (s.num rlb))
  · rw [paddMem, demandInside_ok hd, ok_bind]
    exact demandInside_pair_bus fun hab => h ⟨hd, hab⟩
  · exact demandInside_bind_bus hd

theorem paddMem_written {a b : List Byte} (hla : a.length = s.num rla) (hlb : b.length = s.num rlb)
    (hd : Inside s (s.num rd) (max (s.num rla) (s.num rlb))) (ha : Inside s (s.num ra) (s.num rla))
    (hb : Inside s (s.num rb) (s.num rlb))
    (hap : Apart (s.num rd) (max (s.num rla) (s.num rlb)) (s.num ra) (s.num rla) ∧
      Apart (s.num rd) (max (s.num rla) (s.num rlb)) (s.num rb) (s.num rlb))
    (hold_a : Holds s (s.num ra) a) (hold_b : Holds s (s.num rb) b) :
    paddMem rd ra rla rb rlb s = .ok (s.mem.writeBytes (s.num rd) (polyadd a b)) := by
  simp only [paddMem, demandInside_ok hd, demandInside_ok ha, demandInside_ok hb,
    demandNoClash_ok ((noClash_single_two _ _ _ _ _ _).mpr hap), load_of_holds hla hold_a, load_of_holds hlb hold_b,
    ok_bind]

end

/-- Settles O34: the three region checks, and the sum of polynomials coefficient by coefficient. -/
theorem paddAddsCoefficientsOfEqualDegree : Obligations.PaddAddsCoefficientsOfEqualDegree := by
  intro rdst ra rla rb rlb s
  refine ⟨hasWord_of_wellFormed rfl (by decide) rfl, fun h => failsClean_of_mem rfl (paddMem_outside h), ?_⟩
  intro a b hla hlb hd ha hb hap_a hap_b hold_a hold_b
  refine memDone_of_ok rfl (paddMem_written hla hlb hd ha hb ⟨hap_a, hap_b⟩ hold_a hold_b) ?_
  rw [← hla, ← hlb]
  exact read_writeBytes_storedBy _ (length_polyadd a b) fun i hi => getD_polyadd hi

/-! ### PDIV -/

theorem divDone_of (s : State) (m : Memory) (l0 l1 : Nat) (w : Nat → Option Byte) (h : ∀ a, m.read a = w a) :
    DivDone s { s with mem := m, len0 := BitVec.ofNat 32 l0, len1 := BitVec.ofNat 32 l1 }.complete w l0 l1 where
  toEndsOk := ⟨⟨rfl, rfl, rfl⟩, rfl, rfl⟩
  toLatchKept := ⟨rfl, rfl, rfl, rfl⟩
  regs := fun _ => rfl
  codec := rfl
  len0 := rfl
  len1 := rfl
  bytes := h

section
variable {s : State} {rq rr ra rla rb rlb : Reg}

/-- PDIV completes when its results can be computed. -/
theorem divDone_of_ok {m : Memory} {l0 l1 : Nat} {w : Nat → Option Byte}
    (h : pdivResult rq rr ra rla rb rlb s = .ok (m, l0, l1)) (hw : ∀ a, m.read a = w a) :
    ∃ t, exec (.pdiv rq rr ra rla rb rlb) s = .next t ∧ DivDone s t w l0 l1 := by
  rw [exec, execPdiv, h]
  exact ⟨_, rfl, divDone_of s m l0 l1 w hw⟩

/-- A PDIV that fails a check changes nothing but the latch (60_exceptions.md R172). -/
theorem failsClean_of_div {e : ErrorCode} (h : pdivResult rq rr ra rla rb rlb s = .error (.raised e)) :
    FailsClean (.pdiv rq rr ra rla rb rlb) s e := by
  rw [FailsClean, exec, execPdiv, h]
  exact ⟨_, rfl, raised_clean s _ e, rfl⟩

theorem pdivResult_outside (h : ¬ (Inside s (s.num ra) (s.num rla) ∧ Inside s (s.num rb) (s.num rlb))) :
    pdivResult rq rr ra rla rb rlb s = .error (.raised .busError) := demandInside_pair_bus h

section
variable {A B : List Byte} (hlA : A.length = s.num rla) (hlB : B.length = s.num rlb)
  (ha : Inside s (s.num ra) (s.num rla)) (hb : Inside s (s.num rb) (s.num rlb))
  (hold_A : Holds s (s.num ra) A) (hold_B : Holds s (s.num rb) B)
include hlA hlB ha hb hold_A hold_B

theorem pdivResult_divisionFails {e : ErrorCode} (h : polydiv A B = .error e) :
    pdivResult rq rr ra rla rb rlb s = .error (.raised e) := by
  simp only [pdivResult, demandInside_ok ha, demandInside_ok hb, load_of_holds hlA hold_A, load_of_holds hlB hold_B,
    h, orRaise, ok_bind, error_bind]

variable {q r : List Byte} (hdiv : polydiv A B = .ok (q, r))
include hdiv

theorem pdivResult_resultOutside (h : ¬ (Inside s (s.num rq) q.length ∧ Inside s (s.num rr) r.length)) :
    pdivResult rq rr ra rla rb rlb s = .error (.raised .busError) := by
  simp only [pdivResult, demandInside_ok ha, demandInside_ok hb, load_of_holds hlA hold_A, load_of_holds hlB hold_B,
    hdiv, orRaise, ok_bind]
  exact demandInside_pair_bus h

theorem pdivResult_divided (hq : Inside s (s.num rq) q.length) (hr : Inside s (s.num rr) r.length)
    (hap : Apart (s.num rq) q.length (s.num rr) r.length ∧ Apart (s.num rq) q.length (s.num ra) (s.num rla) ∧
      Apart (s.num rq) q.length (s.num rb) (s.num rlb) ∧ Apart (s.num rr) r.length (s.num ra) (s.num rla) ∧
      Apart (s.num rr) r.length (s.num rb) (s.num rlb)) :
    pdivResult rq rr ra rla rb rlb s =
      .ok ((s.mem.writeBytes (s.num rq) q).writeBytes (s.num rr) r, q.length, r.length) := by
  simp only [pdivResult, demandInside_ok ha, demandInside_ok hb, load_of_holds hlA hold_A, load_of_holds hlB hold_B,
    hdiv, orRaise, demandInside_ok hq, demandInside_ok hr,
    demandNoClash_ok ((noClash_two_two _ _ _ _ _ _ _ _).mpr hap), ok_bind]

end

end

/-- A divisor of zeros is rejected (R105). -/
theorem polydiv_zero {B : List Byte} (A : List Byte) (h : ∀ b ∈ B, b = 0) : polydiv A B = .error .divideByZero :=
  if_pos ((length_stripZeros_eq_zero_iff B).mpr h)

/-- Any other divisor gives a quotient and a remainder of the lengths of R105 (a). -/
theorem polydiv_nonzero {B : List Byte} (A : List Byte) (h : ∃ b ∈ B, b ≠ 0) : ∃ q r, polydiv A B = .ok (q, r) ∧
    (if (stripZeros A).length < (stripZeros B).length then q.length = 0 ∧ r.length = (stripZeros A).length
     else q.length = (stripZeros A).length - (stripZeros B).length + 1 ∧ r.length = (stripZeros B).length - 1) := by
  obtain ⟨hz, -⟩ | ⟨-, hdiv⟩ := polydiv_cases A B
  · obtain ⟨b, hb, hb0⟩ := h
    exact absurd ((length_stripZeros_eq_zero_iff B).mp hz b hb) hb0
  · exact hdiv

/-- Settles O35: the operand checks, the division with its identity (`polydiv_identity`), and the result checks. -/
theorem pdivDividesWithRemainder : Obligations.PdivDividesWithRemainder := by
  intro rq rr ra rla rb rlb s
  refine ⟨hasWord_of_wellFormed rfl (by decide) rfl, fun h => failsClean_of_div (pdivResult_outside h), ?_⟩
  intro A B hlA hlB ha hb hold_A hold_B
  refine ⟨fun h => failsClean_of_div (pdivResult_divisionFails hlA hlB ha hb hold_A hold_B (polydiv_zero A h)), ?_⟩
  intro h
  obtain ⟨q, r, hdiv, hlen⟩ := polydiv_nonzero A h
  refine ⟨q, r, hlen, polydiv_identity hdiv,
    fun hout => failsClean_of_div (pdivResult_resultOutside hlA hlB ha hb hold_A hold_B hdiv hout), ?_⟩
  intro hq hr hqr hqa hqb hra hrb
  exact divDone_of_ok (pdivResult_divided hlA hlB ha hb hold_A hold_B hdiv hq hr ⟨hqr, hqa, hqb, hra, hrb⟩)
    (read_writeBytes_twice s _ _ q r)

end Sys2Proof.Machine
end

section
/-! The rows of an elimination (43_matrix.md R117): the elements of a row after each row operation, the identity that an
elimination under STRICT brings into the first columns, and the row operations that a companion records. -/

namespace Sys2Proof.Machine

/-! ### Rows and their elements after a row operation -/

/-- Elements of a row with a multiple of an equally long row added, at every position. -/
theorem getD_addmul_of_length_eq {d s : List Byte} (h : d.length = s.length) (f : Byte) (k : Nat) :
    (addmul d s f).getD k 0 = d.getD k 0 ^^^ gfMul f (s.getD k 0) := by
  by_cases hk : k < d.length
  · exact getD_addmul f hk (h ▸ hk)
  · have hd : d.length ≤ k := Nat.not_lt.mp hk
    rw [List.getD_eq_default _ _ (by rw [length_addmul]; omega), List.getD_eq_default _ _ hd,
      List.getD_eq_default _ _ (h ▸ hd)]
    exact (congrArg (0#8 ^^^ ·) (gfMul_zero_right f)).symm

theorem elemAt_map_fst (rows : List PairRow) (i j : Nat) : elemAt (rows.map Prod.fst) i j = pivotAt rows i j :=
  congrArg (List.getD · j 0) (List.getD_map (l := rows) (d := ([], [])) (n := i) Prod.fst)

theorem elemAt_map_snd (rows : List PairRow) (i j : Nat) :
    elemAt (rows.map Prod.snd) i j = (rowAt rows i).2.getD j 0 :=
  congrArg (List.getD · j 0) (List.getD_map (l := rows) (d := ([], [])) (n := i) Prod.snd)

section
variable {rows : List PairRow} {i j : Nat}

theorem rowAt_set (hi : i < rows.length) (r : PairRow) (j : Nat) :
    rowAt (rows.set i r) j = if j = i then r else rowAt rows j := by
  rw [rowAt, rowAt, List.getD_eq_getElem?_getD, List.getD_eq_getElem?_getD]
  split
  · next h => rw [h, List.getElem?_set_self hi]; rfl
  · next h => rw [List.getElem?_set_ne (Ne.symm h)]

theorem rowAt_swapRows {p : Nat} (hi : i < rows.length) (hp : p < rows.length) (j : Nat) :
    rowAt (swapRows rows i p) j = if j = p then rowAt rows i else if j = i then rowAt rows p else rowAt rows j := by
  rw [swapRows, rowAt_set (by rwa [List.length_set]), rowAt_set hi]

theorem rowAt_mapIdx (f : Nat → PairRow → PairRow) (hj : j < rows.length) :
    rowAt (rows.mapIdx f) j = f j (rowAt rows j) := by
  rw [rowAt_of_lt (by rwa [List.length_mapIdx]), rowAt_of_lt hj, List.getElem_mapIdx]

/-- The row operation scales every element of the row. -/
theorem pivotAt_scalePivot (hi : i < rows.length) (j k : Nat) :
    pivotAt (scalePivot rows i) j k =
      if j = i then gfMul (pivotAt rows i k) (gfInv (pivotAt rows i i)) else pivotAt rows j k := by
  rw [pivotAt, scalePivot, rowAt_set hi]
  split
  · exact getD_polyscale _ _ _
  · rfl

section
variable {c a : Nat} (hs : PairShape c a rows) (hi : i < rows.length) (hj : j < rows.length)
include hs hi hj

/-- Adding a multiple of row `i` to row `j` adds it element by element. -/
theorem getD_addmulPair (t : Byte) (k : Nat) :
    (addmulPair (rowAt rows j) (rowAt rows i) t).1.getD k 0 =
      pivotAt rows j k ^^^ gfMul t (pivotAt rows i k) :=
  getD_addmul_of_length_eq ((hs _ (rowAt_mem hj)).1.trans (hs _ (rowAt_mem hi)).1.symm) t k

theorem pivotAt_clearBelow (k : Nat) : pivotAt (clearBelow rows i) j k =
    if i < j then pivotAt rows j k ^^^ gfMul (pivotAt rows j i) (pivotAt rows i k) else pivotAt rows j k := by
  rw [pivotAt, clearBelow, rowAt_mapIdx _ hj]
  split
  · exact getD_addmulPair hs hi hj _ k
  · rfl

theorem pivotAt_clearAbove (k : Nat) : pivotAt (clearAbove rows i) j k =
    if j < i then pivotAt rows j k ^^^ gfMul (pivotAt rows j i) (pivotAt rows i k) else pivotAt rows j k := by
  rw [pivotAt, clearAbove, rowAt_mapIdx _ hj]
  split
  · exact getD_addmulPair hs hi hj _ k
  · rfl

end

end

/-! ### The forward pass under STRICT -/

/-- After `i` steps of the forward pass: the first `i` columns are 1 on the diagonal and 0 below it. -/
structure Triangular (c a i : Nat) (rows : List PairRow) : Prop where
  shape : PairShape c a rows
  unit : ∀ j k, k < i → k ≤ j → j < rows.length → pivotAt rows j k = if j = k then 1 else 0#8

namespace Triangular
variable {c a i p : Nat} {rows : List PairRow}

/-- A row from `i` on begins with `i` zeros. -/
theorem zero (h : Triangular c a i rows) {j k : Nat} (hk : k < i) (hij : i ≤ j) (hj : j < rows.length) :
    pivotAt rows j k = 0#8 := by rw [h.unit j k hk (by omega) hj, if_neg (by omega)]

/-- Two rows from `i` on begin alike, so exchanging them changes nothing in the first `i` columns. -/
theorem swap (h : Triangular c a i rows) (hip : i ≤ p) (hp : p < rows.length) :
    Triangular c a i (swapRows rows i p) where
  shape := (pairShape_closed c a).swap rows i p (by omega) hp h.shape
  unit j k hk hkj hj := by
    rw [length_swapRows] at hj
    rw [pivotAt, rowAt_swapRows (by omega) hp]
    split
    · next hjp => rw [if_neg (by omega)]; exact h.zero hk (Nat.le_refl i) (by omega)
    · split
      · next hji => rw [if_neg (by omega)]; exact h.zero hk hip hp
      · exact h.unit j k hk hkj hj

theorem scale (h : Triangular c a i rows) (hi : i < rows.length) (h0 : pivotAt rows i i ≠ 0) :
    Triangular c a i (scalePivot rows i) where
  shape := (pairShape_closed c a).scale rows i _ hi (gfInv_ne_zero h0) h.shape
  unit j k hk hkj hj := by
    rw [length_scalePivot] at hj
    rw [pivotAt_scalePivot hi]
    split
    · next hji => rw [h.zero hk (Nat.le_refl i) hi, gfMul_zero_left, if_neg (by omega)]
    · exact h.unit j k hk hkj hj

/-- With the pivot 1, clearing the column below it makes the next column triangular. -/
theorem clearBelow (h : Triangular c a i rows) (hi : i < rows.length) (h1 : pivotAt rows i i = 1) :
    Triangular c a (i + 1) (clearBelow rows i) where
  shape := by
    simpa only [Machine.clearBelow, decide_eq_true_eq] using
      (pairShape_closed c a).add rows i (fun j => decide (i < j)) (fun r => r.1.getD i 0) hi (by simp) h.shape
  unit j k hk hkj hj := by
    rw [length_clearBelow] at hj
    rw [pivotAt_clearBelow h.shape hi hj]
    rcases Nat.lt_succ_iff_lt_or_eq.mp hk with hk | rfl
    · rw [h.zero hk (Nat.le_refl i) hi, gfMul_zero_right, BitVec.xor_zero, ite_self]
      exact h.unit j k hk hkj hj
    · rw [h1, gfMul_one, BitVec.xor_self]
      split
      · next hlt => rw [if_neg (by omega)]
      · next hlt =>
        obtain rfl : j = k := by omega
        rw [if_pos rfl, h1]

/-- One step of the forward pass, with its pivot found in row `p`. -/
theorem pivotStep (h : Triangular c a i rows) (hip : i ≤ p) (hp : p < rows.length) (h0 : pivotAt rows p i ≠ 0) :
    Triangular c a (i + 1) (pivotStep rows i p) := by
  have hswap : Triangular c a i (if p = i then rows else swapRows rows i p) := by
    split
    · exact h
    · exact h.swap hip hp
  have hlen : i < (if p = i then rows else swapRows rows i p).length := by
    split
    · omega
    · rw [length_swapRows]; omega
  have hpiv : pivotAt (if p = i then rows else swapRows rows i p) i i ≠ 0 := by rwa [pivotAt_swapped (by omega)]
  refine (hswap.scale hlen hpiv).clearBelow (by rwa [length_scalePivot]) ?_
  rw [pivotAt_scalePivot hlen, if_pos rfl, gfMul_gfInv hpiv]

/-- A forward pass that succeeds under STRICT finds a pivot for every column. -/
theorem forwardPass {todo : Nat} {rows' : List PairRow} (h : Triangular c a i rows) (hl : i + todo ≤ rows.length)
    (he : forwardPass .strict todo i rows = .ok rows') :
    Triangular c a (i + todo) rows' ∧ rows'.length = rows.length := by
  induction todo generalizing i rows with
  | zero => cases he; exact ⟨h, rfl⟩
  | succ todo ih =>
    unfold Machine.forwardPass at he
    cases hf : findPivot rows i with
    | none => rw [hf] at he; cases he
    | some p =>
      rw [hf] at he
      obtain ⟨hip, hp, h0⟩ := findPivot_some hf
      have := ih (h.pivotStep hip hp h0) (by rw [length_pivotStep]; omega) he
      rwa [length_pivotStep, Nat.add_right_comm] at this

end Triangular

/-! ### The backward pass -/

/-- Before the backward pass clears column `i - 1`: the first columns are the identity on and below the diagonal and
from column `i` on. -/
structure ClearedFrom (c a i : Nat) (rows : List PairRow) : Prop where
  shape : PairShape c a rows
  unit : ∀ j k, j < rows.length → k < rows.length → k ≤ j ∨ i ≤ k → pivotAt rows j k = if j = k then 1 else 0#8

namespace ClearedFrom
variable {c a i : Nat} {rows : List PairRow}

/-- Row `i` is a row of the identity, so adding a multiple of it changes column `i` only. -/
theorem clearAbove (h : ClearedFrom c a (i + 1) rows) (hi : i < rows.length) :
    ClearedFrom c a i (clearAbove rows i) where
  shape := by
    simpa only [Machine.clearAbove, decide_eq_true_eq] using
      (pairShape_closed c a).add rows i (fun j => decide (j < i)) (fun r => r.1.getD i 0) hi (by simp) h.shape
  unit j k hj hk hjk := by
    rw [length_clearAbove] at hj hk
    rw [pivotAt_clearAbove h.shape hi hj, h.unit i k hi hk (by omega)]
    by_cases hki : i = k
    · subst hki
      rw [if_pos rfl, gfMul_one, BitVec.xor_self]
      split
      · next hlt => rw [if_neg (by omega)]
      · next hlt => exact h.unit j i hj hi (by omega)
    · rw [if_neg hki, gfMul_zero_right, BitVec.xor_zero, ite_self]
      exact h.unit j k hj hk (by omega)

theorem foldl_clearAbove {m : Nat} (h : ClearedFrom c a (m + 1) rows) (hm : m < rows.length) :
    ClearedFrom c a 1 ((List.range' 1 m).reverse.foldl Machine.clearAbove rows) := by
  induction m generalizing rows with
  | zero => exact h
  | succ m ih =>
    rw [List.range'_1_concat, List.reverse_append, Nat.add_comm 1 m]
    exact ih (h.clearAbove hm) (by rw [length_clearAbove]; omega)

theorem backwardPass (h : ClearedFrom c a rows.length rows) : ClearedFrom c a 1 (backwardPass rows) := by
  cases rows with
  | nil => exact ⟨h.shape, fun _ _ hj => absurd hj (Nat.not_lt_zero _)⟩
  | cons r rows => exact foldl_clearAbove h (Nat.lt_succ_self _)

end ClearedFrom

/-- R117: an elimination that succeeds under STRICT leaves the identity in the first columns. -/
theorem eliminate_strict_identity {c a : Nat} {rows rows' : List PairRow} (hs : PairShape c a rows)
    (he : eliminate .strict rows = .ok rows') {i j : Nat} (hi : i < rows.length) (hj : j < rows.length) :
    pivotAt rows' i j = if i = j then 1 else 0 := by
  have hlen : rows'.length = rows.length := ((eliminate_shape hs).1 rows' he).2
  unfold eliminate at he
  cases hf : forwardPass .strict rows.length 0 rows with
  | error left => rw [hf] at he; cases he
  | ok mid =>
    rw [hf] at he
    cases he
    have hstart : Triangular c a 0 rows := ⟨hs, fun _ _ hk => absurd hk (Nat.not_lt_zero _)⟩
    obtain ⟨htri, hmid⟩ := hstart.forwardPass (by omega) hf
    have hcleared : ClearedFrom c a mid.length mid :=
      ⟨htri.shape, fun j k hj hk hjk => htri.unit j k (by omega) (by omega) hj⟩
    exact hcleared.backwardPass.unit i j (by omega) (by omega) (by omega)

/-! ### What the companion records -/

/-- A property of single rows that scaling and adding multiples keep is kept by the row operations. -/
theorem rowClosed_forall {Q : PairRow → Prop} (hscale : ∀ r f, Q r → Q (scalePair r f))
    (hadd : ∀ r p t, Q r → Q p → Q (addmulPair r p t)) : RowClosed fun rows => ∀ r ∈ rows, Q r where
  swap rows i j hi hj h r hr := by
    rcases List.mem_or_eq_of_mem_set hr with hr | rfl
    · rcases List.mem_or_eq_of_mem_set hr with hr | rfl
      · exact h r hr
      · exact h _ (rowAt_mem hj)
    · exact h _ (rowAt_mem hi)
  scale rows i f hi _ h r hr := by
    rcases List.mem_or_eq_of_mem_set hr with hr | rfl
    · exact h r hr
    · exact hscale _ f (h _ (rowAt_mem hi))
  add rows i on t hi _ h r hr := by
    obtain ⟨j, hj, rfl⟩ := List.mem_mapIdx.mp hr
    have hrow := h _ (List.getElem_mem hj)
    split
    · exact hadd _ _ _ hrow (h _ (rowAt_mem hi))
    · exact hrow

theorem gfMul_sumTo (f : Byte) (n : Nat) (g : Nat → Byte) :
    gfMul f (sumTo n g) = sumTo n fun t => gfMul f (g t) := by
  induction n with
  | zero => exact gfMul_zero_right f
  | succ n ih => rw [sumTo_succ, gfMul_xor, ih, sumTo_succ]

theorem xor_gfMul (a b c : Byte) : gfMul (a ^^^ b) c = gfMul a c ^^^ gfMul b c := by
  rw [gfMul_comm, gfMul_xor, gfMul_comm c a, gfMul_comm c b]

/-- Element `k` of the product of a row `u` of `n` elements with the matrix `M`. -/
def rowProduct (n : Nat) (u : List Byte) (M : Rows) (k : Nat) : Byte :=
  sumTo n fun t => gfMul (u.getD t 0) (elemAt M t k)

theorem matProduct_map_snd (n : Nat) (rows : List PairRow) (M : Rows) (i j : Nat) :
    matProduct n (rows.map Prod.snd) M i j = rowProduct n (rowAt rows i).2 M j := by
  simp only [matProduct, rowProduct, elemAt_map_snd]

theorem rowProduct_polyscale (n : Nat) (u : List Byte) (f : Byte) (M : Rows) (k : Nat) :
    rowProduct n (polyscale u f) M k = gfMul (rowProduct n u M k) f := by
  rw [gfMul_comm, rowProduct, rowProduct, gfMul_sumTo]
  refine sumTo_congr fun t _ => ?_
  rw [getD_polyscale, gfMul_comm _ f, gfMul_assoc]

theorem rowProduct_addmul {u v : List Byte} (h : u.length = v.length) (n : Nat) (f : Byte) (M : Rows) (k : Nat) :
    rowProduct n (addmul u v f) M k = rowProduct n u M k ^^^ gfMul f (rowProduct n v M k) := by
  rw [rowProduct, rowProduct, rowProduct, gfMul_sumTo, ← sumTo_xor]
  refine sumTo_congr fun t _ => ?_
  rw [getD_addmul_of_length_eq h, xor_gfMul, gfMul_assoc]

/-- Row `i` of the identity picks row `i` of the matrix. -/
theorem rowProduct_unitRow {n i : Nat} (hi : i < n) (M : Rows) (k : Nat) :
    rowProduct n (unitRow n i) M k = elemAt M i k := by
  have hterm : ∀ t, t < n →
      gfMul ((unitRow n i).getD t 0) (elemAt M t k) = if t = i then elemAt M i k else 0#8 := by
    intro t ht
    rw [getD_unitRow n i t ht]
    split
    · next h => rw [h, one_gfMul]
    · exact gfMul_zero_left _
  rw [rowProduct, sumTo_congr hterm, sumTo_single, if_pos hi]

/-- A pair of rows, of `c` and `n` elements: the companion's row times `M` is the matrix's row. -/
structure Records (M : Rows) (c n : Nat) (r : PairRow) : Prop where
  fstLength : r.1.length = c
  sndLength : r.2.length = n
  product : ∀ k, rowProduct n r.2 M k = r.1.getD k 0

/-- Every row operation is applied to both rows, so it keeps what the companion records. -/
theorem records_closed (M : Rows) (c n : Nat) : RowClosed fun rows => ∀ r ∈ rows, Records M c n r :=
  rowClosed_forall
    (fun r f h =>
      { fstLength := (length_polyscale _ _).trans h.fstLength
        sndLength := (length_polyscale _ _).trans h.sndLength
        product := fun k => by
          rw [scalePair, rowProduct_polyscale, h.product, getD_polyscale] })
    (fun r p t hr hp =>
      { fstLength := by rw [addmulPair, length_addmul, hr.fstLength, hp.fstLength, Nat.min_self]
        sndLength := by rw [addmulPair, length_addmul, hr.sndLength, hp.sndLength, Nat.min_self]
        product := fun k => by
          rw [addmulPair, rowProduct_addmul (hr.sndLength.trans hp.sndLength.symm), hr.product, hp.product,
            getD_addmul_of_length_eq (hr.fstLength.trans hp.fstLength.symm)] })

/-- The identity times the matrix is the matrix. -/
theorem records_identity {r c : Nat} {M : Rows} (h : IsMatrix r c M) :
    ∀ x ∈ pairRows M (identity r), Records M c r x := by
  intro x hx
  obtain ⟨i, hi, rfl⟩ := List.mem_iff_getElem.mp hx
  have hiM : i < M.length := by rw [length_pairRows] at hi; omega
  have hrow : (pairRows M (identity r))[i] = (M[i], unitRow r i) := by simp [pairRows, identity]
  rw [hrow]
  refine ⟨h.2 _ (List.getElem_mem hiM), length_unitRow r i, fun k => ?_⟩
  rw [rowProduct_unitRow (h.1 ▸ hiM), elemAt, List.getD_eq_getElem _ _ hiM]

/-- Settles O40: each row of the companion records the operations on its row of the matrix (`records_closed`), and
STRICT leaves the identity (`eliminate_strict_identity`). -/
theorem companionRecordsRowOperations : Obligations.CompanionRecordsRowOperations := by
  intro r c M policy rows hM _ he
  have hlen : (pairRows M (identity r)).length = r := by
    rw [length_pairRows, hM.1, (isMatrix_identity r).1, Nat.min_self]
  obtain ⟨hrec, hrows⟩ := (eliminate_closed (records_closed M c r) policy _ (records_identity hM)).1 rows he
  refine ⟨fun i j hi _ => ?_, ?_⟩
  · rw [matProduct_map_snd, elemAt_map_fst]
    exact (hrec _ (rowAt_mem (by omega))).product j
  · rintro rfl i j hi hj
    rw [elemAt_map_fst]
    exact eliminate_strict_identity (pairShape_pairRows hM (isMatrix_identity r)) he (by omega) (by omega)

end Sys2Proof.Machine
end

section
/-! The matrix commands (43_matrix.md R110 to R121): the checks they begin with, what each of them delivers or stores
when its checks pass, and how an elimination in BUF ends. -/

namespace Sys2Proof.Machine

/-! ### The checks -/

/-- A sequence that begins with a failing numbered check ends with its error. -/
theorem demand_bind_raised {α : Type} {c : Bool} {e : ErrorCode} {f : Unit → Except Halt α} (h : ¬ c = true) :
    (demand c e >>= f) = .error (.raised e) := by
  rw [Bool.eq_false_iff.mpr h, demand_false, error_bind]

/-- A sequence that begins with a passing check and a matrix outside BUF ends with BusError (R110). -/
theorem demandMatrix_bind_bus {α : Type} {s : State} {rm rr rc : Reg} {c : Bool} {e : ErrorCode}
    {f : Unit → Unit → Except Halt α} (hc : c = true) (h : ¬ Inside s (s.num rm) (s.num rr * s.num rc)) :
    (demand c e >>= fun u => s.demandMatrix (s.matOp rm rr rc) >>= f u) = .error (.raised .busError) := by
  rw [hc, demand_true, ok_bind]
  exact demandInside_bind_bus h

/-! ### Elements and row addresses -/

section
variable {s : State} {rm rr rc ri rj rv : Reg} (hi : s.num ri < s.num rr)
  (hm : Inside s (s.num rm) (s.num rr * s.num rc))
include hi hm

section
variable (hj : s.num rj < s.num rc)
include hj

theorem mgetValue_written {b : Byte} (hb : s.mem.read (s.num rm + s.num ri * s.num rc + s.num rj) = some b) :
    mgetValue rm rr rc ri rj s = .ok (b.setWidth 32) := by
  have hload : s.mem.load ⟨(s.matOp rm rr rc).at (s.num ri) (s.num rj), 1⟩ = .ok [b] := load_of_holds rfl (holds_one hb)
  simp only [mgetValue, hi, hj, decide_true, Bool.and_true, demand_true, demandMatrix_ok hm, hload, ok_bind]
  rfl

theorem msetMem_inside : msetMem rm rr rc ri rj rv s =
    .ok (s.mem.write (s.num rm + s.num ri * s.num rc + s.num rj) ((s.reg rv).setWidth 8)) := by
  simp only [msetMem, hi, hj, decide_true, Bool.and_true, demand_true, demandMatrix_ok hm, ok_bind]
  rfl

end

theorem mrowValue_inside : mrowValue rm rr rc ri s = .ok (BitVec.ofNat 32 (s.num rm + s.num ri * s.num rc)) := by
  simp only [mrowValue, hi, decide_true, demand_true, demandMatrix_ok hm, ok_bind]
  rfl

/-- The address of a row of a matrix inside BUF fits a register. -/
theorem rowStart_lt : s.num rm + s.num ri * s.num rc < 2 ^ 32 := by
  rcases row_inside hi hm with h0 | hrow
  · rw [h0, Nat.mul_zero]
    exact num_lt s rm
  · have := memSize_lt s
    omega

end

/-- Settles O36: the index check, then the region check, then the element at its address, one lemma per outcome. -/
theorem matrixElementsAndRowAddress : Obligations.MatrixElementsAndRowAddress := by
  intro rd rm rr rc ri rj rv s
  refine ⟨⟨hasWord_of_wellFormed rfl (by decide) rfl, hasWord_of_wellFormed rfl (by decide) rfl,
    hasWord_of_wellFormed rfl (by decide) rfl⟩, fun h => ?_, fun hi hj h => ?_, fun hi hj h => ?_, fun h => ?_,
    fun hi h => ?_, fun hi h => ?_⟩
  · exact ⟨failsClean_of_reg rfl (demand_bind_raised (by simpa using h)),
      failsClean_of_mem rfl (demand_bind_raised (by simpa using h))⟩
  · exact ⟨failsClean_of_reg rfl (demandMatrix_bind_bus (by simp [hi, hj]) h),
      failsClean_of_mem rfl (demandMatrix_bind_bus (by simp [hi, hj]) h)⟩
  · exact ⟨fun b hb => regDone_of_ok rfl (mgetValue_written hi h hj hb),
      memDone_of_ok rfl (msetMem_inside hi h hj) fun x => read_write _ _ x _⟩
  · exact failsClean_of_reg rfl (demand_bind_raised (by simpa using h))
  · exact failsClean_of_reg rfl (demandMatrix_bind_bus (by simp [hi]) h)
  · obtain ⟨t, ht, hdone⟩ := regDone_of_ok (i := .mrow rd rm rr rc ri) rfl (mrowValue_inside hi h)
    exact ⟨t, _, ht, hdone, (BitVec.toNat_ofNat _ _).trans (Nat.mod_eq_of_lt (rowStart_lt hi h))⟩

/-! ### Row operations -/

theorem load_row {s : State} {rm rr rc ri : Reg} {u : List Byte} (hu : u.length = s.num rc)
    (hold : Holds s (s.num rm + s.num ri * s.num rc) u) : s.mem.load ((s.matOp rm rr rc).row (s.num ri)) = .ok u :=
  load_of_holds hu hold

section
variable {s : State} {rm rr rc ri rj rf : Reg} {u v : List Byte} (hi : s.num ri < s.num rr)
  (hm : Inside s (s.num rm) (s.num rr * s.num rc)) (hu : u.length = s.num rc)
  (hold_u : Holds s (s.num rm + s.num ri * s.num rc) u)
include hi hm hu hold_u

theorem mscaleMem_written : mscaleMem rm rr rc ri rf s =
    .ok (s.mem.writeBytes (s.num rm + s.num ri * s.num rc) (polyscale u (s.elem rf))) := by
  simp only [mscaleMem, hi, decide_true, demand_true, demandMatrix_ok hm, load_row hu hold_u, ok_bind]
  rfl

variable (hj : s.num rj < s.num rr) (hv : v.length = s.num rc)
  (hold_v : Holds s (s.num rm + s.num rj * s.num rc) v)
include hj hv hold_v

theorem mswapMem_written : mswapMem rm rr rc ri rj s =
    .ok ((s.mem.writeBytes (s.num rm + s.num ri * s.num rc) v).writeBytes (s.num rm + s.num rj * s.num rc) u) := by
  simp only [mswapMem, hi, hj, decide_true, Bool.and_true, demand_true, demandMatrix_ok hm, load_row hu hold_u,
    load_row hv hold_v, ok_bind]
  rfl

theorem maddmulMem_written : maddmulMem rm rr rc ri rj rf s =
    .ok (s.mem.writeBytes (s.num rm + s.num rj * s.num rc) (addmul v u (s.elem rf))) := by
  simp only [maddmulMem, hi, hj, decide_true, Bool.and_true, demand_true, demandMatrix_ok hm, load_row hu hold_u,
    load_row hv hold_v, ok_bind]
  rfl

end

/-- Settles O37: the index check, then the region check, then the rows that each command stores. -/
theorem rowOperations : Obligations.RowOperations := by
  intro rm rr rc ri rj rf s
  refine ⟨⟨hasWord_of_wellFormed rfl (by decide) rfl, hasWord_of_wellFormed rfl (by decide) rfl,
    hasWord_of_wellFormed rfl (by decide) rfl⟩, fun h => ?_, fun h => ?_, fun hi h => ⟨?_, fun hj => ?_⟩, ?_⟩
  · exact ⟨failsClean_of_mem rfl (demand_bind_raised (by simpa using h)),
      failsClean_of_mem rfl (demand_bind_raised (by simpa using h))⟩
  · exact failsClean_of_mem rfl (demand_bind_raised (by simpa using h))
  · exact failsClean_of_mem rfl (demandMatrix_bind_bus (by simp [hi]) h)
  · exact ⟨failsClean_of_mem rfl (demandMatrix_bind_bus (by simp [hi, hj]) h),
      failsClean_of_mem rfl (demandMatrix_bind_bus (by simp [hi, hj]) h)⟩
  · intro u hi hm hu hold_u
    refine ⟨memDone_of_ok rfl (mscaleMem_written hi hm hu hold_u)
      (read_writeBytes_storedBy _ ((length_polyscale u _).trans hu) fun k _ => getD_polyscale u _ k), ?_⟩
    intro v hj hv hold_v
    have hlen : (addmul v u (s.elem rf)).length = s.num rc := by rw [length_addmul, hu, hv, Nat.min_self]
    exact ⟨memDone_of_ok rfl (mswapMem_written hi hm hu hold_u hj hv hold_v) (read_writeBytes_twice s _ _ v u),
      memDone_of_ok rfl (maddmulMem_written hi hm hu hold_u hj hv hold_v)
        (read_writeBytes_storedBy _ hlen fun k _ => getD_addmul_of_length_eq (hv.trans hu.symm) _ k)⟩

/-! ### The end of a command that can fail after it has changed BUF -/

section
variable {s : State} {i : Instr} {p : Except Halt (Memory × Option ErrorCode)} (hi : exec i s = s.finishPart i p)
include hi

theorem failsClean_of_part {e : ErrorCode} (hp : p = .error (.raised e)) : FailsClean i s e := by
  rw [FailsClean, hi, hp]
  exact ⟨_, rfl, raised_clean s _ e, rfl⟩

variable {m : Memory} {w : Nat → Option Byte} (hw : ∀ x, m.read x = w x)
include hw

theorem memDone_of_part (hp : p = .ok (m, none)) : ∃ t, exec i s = .next t ∧ MemDone s t w := by
  rw [hi, hp]
  exact ⟨_, rfl, memDone_of s m w hw⟩

/-- A command that fails after it has changed BUF (60_exceptions.md R174). -/
theorem raised_of_part {e : ErrorCode} (hp : p = .ok (m, some e)) :
    ∃ t, exec i s = .next t ∧ Raised s t (encode i) e ∧ ∀ x, t.mem.read x = w x := by
  rw [hi, hp]
  exact ⟨_, rfl, raised_of s m _ e, hw⟩

end

/-! ### Eliminations in BUF -/

theorem load_matrix {s : State} {rm rr rc : Reg} {M : Rows} (hM : IsMatrix (s.num rr) (s.num rc) M)
    (hold : Holds s (s.num rm) M.flatten) : s.mem.load (s.matOp rm rr rc).region = .ok M.flatten :=
  load_of_holds (length_flatten_matrix hM) hold

theorem eliminateInBuf_ok {policy : Policy} {rows rows' : List PairRow} (h : eliminate policy rows = .ok rows')
    (mem : Memory) (m a : Nat) : eliminateInBuf mem m a policy rows = (storePairs mem m a rows', none) := by
  rw [eliminateInBuf, h]

theorem eliminateInBuf_error {policy : Policy} {rows left : List PairRow} (h : eliminate policy rows = .error left)
    (mem : Memory) (m a : Nat) :
    eliminateInBuf mem m a policy rows = (storePairs mem m a left, some .matrixInversionFailed) := by
  rw [eliminateInBuf, h]

/-- Without a companion nothing but the matrix is stored. -/
theorem storePairs_soleRows (mem : Memory) (m a : Nat) (M : Rows) :
    storePairs mem m a (soleRows M) = mem.writeBytes m M.flatten := by
  have hnone : ((soleRows M).map Prod.snd).flatten = [] := by simp [soleRows]
  rw [storePairs, fst_soleRows, hnone, writeBytes_nil]

theorem isMatrix_map_fst {c a : Nat} {rows : List PairRow} (h : PairShape c a rows) :
    IsMatrix rows.length c (rows.map Prod.fst) := by
  refine ⟨List.length_map _, fun x hx => ?_⟩
  obtain ⟨r, hr, rfl⟩ := List.mem_map.mp hx
  exact (h r hr).1

/-- An elimination without a companion leaves a matrix of the same size, and no companion. -/
theorem eliminate_soleRows {r c : Nat} {M : Rows} {policy : Policy} {rows : List PairRow} (hM : IsMatrix r c M)
    (he : eliminate policy (soleRows M) = .ok rows) :
    rows = soleRows (rows.map Prod.fst) ∧ IsMatrix r c (rows.map Prod.fst) := by
  obtain ⟨hs, hl⟩ := (eliminate_shape (pairShape_soleRows hM)).1 rows he
  refine ⟨soleRows_fst hs, ?_⟩
  rw [← hM.1, ← length_soleRows M, ← hl]
  exact isMatrix_map_fst hs

/-! ### MSTD -/

section
variable {s : State} {rm rr rc : Reg} {pol : Nibble} {policy : Policy} (hp : demandPolicy pol = .ok policy)
include hp

theorem mstdResult_range (h : s.num rc < s.num rr) : mstdResult rm rr rc pol s = .error (.raised .operandRange) := by
  rw [mstdResult, hp, ok_bind]
  exact demand_bind_raised (by simpa using h)

variable (hrc : s.num rr ≤ s.num rc)
include hrc

theorem mstdResult_outside (h : ¬ Inside s (s.num rm) (s.num rr * s.num rc)) :
    mstdResult rm rr rc pol s = .error (.raised .busError) := by
  rw [mstdResult, hp, ok_bind]
  exact demandMatrix_bind_bus (decide_eq_true hrc) h

variable {M : Rows} (hm : Inside s (s.num rm) (s.num rr * s.num rc)) (hM : IsMatrix (s.num rr) (s.num rc) M)
  (hold : Holds s (s.num rm) M.flatten)
include hm hM hold

theorem mstdResult_written : mstdResult rm rr rc pol s =
    .ok (eliminateInBuf s.mem (s.num rm) (s.num rm) policy (soleRows M)) := by
  simp only [mstdResult, hp, hrc, decide_true, demand_true, demandMatrix_ok hm, load_matrix hM hold,
    rowsOf_flatten hM, ok_bind]

theorem mstdResult_eliminated {M' : Rows} (he : eliminate policy (soleRows M) = .ok (soleRows M')) :
    mstdResult rm rr rc pol s = .ok (s.mem.writeBytes (s.num rm) M'.flatten, none) := by
  rw [mstdResult_written hp hrc hm hM hold, eliminateInBuf_ok he, storePairs_soleRows]

theorem mstdResult_inversionFailed {L : Rows} (he : eliminate policy (soleRows M) = .error (soleRows L)) :
    mstdResult rm rr rc pol s = .ok (s.mem.writeBytes (s.num rm) L.flatten, some .matrixInversionFailed) := by
  rw [mstdResult_written hp hrc hm hM hold, eliminateInBuf_error he, storePairs_soleRows]

end

/-- Settles O38: the checks, then the end of the elimination: SKIP always has one (`eliminate_skip_ok`), STRICT one with
the identity (`eliminate_strict_identity`) or the rows at the failing step. -/
theorem mstdReducesInPlace : Obligations.MstdReducesInPlace := by
  intro rm rr rc pol s hpol
  obtain ⟨policy, hp⟩ := demandPolicy_ok hpol
  refine ⟨hasWord_of_wellFormed (decide_eq_true hpol) (by decide) rfl,
    fun h => failsClean_of_part rfl (mstdResult_range hp h),
    fun hrc h => failsClean_of_part rfl (mstdResult_outside hp hrc h), ?_⟩
  intro M hrc hm hM hold
  refine ⟨?_, ?_, ?_⟩
  · rintro rfl
    obtain ⟨rows, he⟩ := eliminate_skip_ok (soleRows M)
    obtain ⟨hsole, hM'⟩ := eliminate_soleRows hM he
    rw [hsole] at he
    have hskip : demandPolicy 1 = .ok .skip := rfl
    obtain ⟨t, ht, hdone⟩ := memDone_of_part (i := .mstd rm rr rc 1) rfl (read_writeBytes _ _ · _)
      (mstdResult_eliminated hskip hrc hm hM hold he)
    exact ⟨t, _, ht, hM', he, hdone⟩
  · rintro rfl M' he
    have hstrict : demandPolicy 0 = .ok .strict := rfl
    refine ⟨fst_soleRows M' ▸ (eliminate_soleRows hM he).2, fun i j hi hj => ?_,
      memDone_of_part rfl (read_writeBytes _ _ · _) (mstdResult_eliminated hstrict hrc hm hM hold he)⟩
    have hlen : (soleRows M).length = s.num rr := (length_soleRows M).trans hM.1
    rw [← fst_soleRows M', elemAt_map_fst]
    exact eliminate_strict_identity (pairShape_soleRows hM) he (hlen ▸ hi) (hlen ▸ hj)
  · rintro rfl L he
    have hstrict : demandPolicy 0 = .ok .strict := rfl
    exact raised_of_part rfl (read_writeBytes _ _ · _)
      (mstdResult_inversionFailed hstrict hrc hm hM hold he)

/-! ### MINV -/

theorem demandPolicy_of_policyOf {pol : Nibble} {policy : Policy} (h : policyOf pol = some policy) :
    demandPolicy pol = .ok policy := by rw [demandPolicy, h]

/-- A number that names a policy makes a legal word (30_encoding.md R64). -/
theorem polLegal_of_policyOf : ∀ pol : Nibble, policyOf pol ≠ none → polLegal pol = true := by decide

section
variable {s : State} {rm rr rc ra rca : Reg} {pol : Nibble} {policy : Policy} (hp : demandPolicy pol = .ok policy)
include hp

theorem minvResult_range (h : s.num rc < s.num rr) :
    minvResult rm rr rc ra rca pol s = .error (.raised .operandRange) := by
  rw [minvResult, hp, ok_bind]
  exact demand_bind_raised (by simpa using h)

variable (hrc : s.num rr ≤ s.num rc)
include hrc

theorem minvResult_outside
    (h : ¬ (Inside s (s.num rm) (s.num rr * s.num rc) ∧ Inside s (s.num ra) (s.num rr * s.num rca))) :
    minvResult rm rr rc ra rca pol s = .error (.raised .busError) := by
  simp only [minvResult, hp, hrc, decide_true, demand_true, ok_bind]
  exact demandInside_pair_bus h

theorem minvResult_written {M A : Rows} (hm : Inside s (s.num rm) (s.num rr * s.num rc))
    (ha : Inside s (s.num ra) (s.num rr * s.num rca))
    (hap : Apart (s.num rm) (s.num rr * s.num rc) (s.num ra) (s.num rr * s.num rca))
    (hM : IsMatrix (s.num rr) (s.num rc) M) (hA : IsMatrix (s.num rr) (s.num rca) A)
    (hold_M : Holds s (s.num rm) M.flatten) (hold_A : Holds s (s.num ra) A.flatten) :
    minvResult rm rr rc ra rca pol s =
      .ok (eliminateInBuf s.mem (s.num rm) (s.num ra) policy (pairRows M A)) := by
  have hclash : demandNoClash [(s.matOp rm rr rc).region, (s.matOp ra rr rca).region] [] = .ok () :=
    demandNoClash_ok ((noClash_two_written _ _ _ _).mpr hap)
  simp only [minvResult, hp, hrc, decide_true, demand_true, demandMatrix_ok hm, demandMatrix_ok ha, hclash,
    load_matrix hM hold_M, load_matrix hA hold_A, rowsOf_flatten hM, rowsOf_flatten hA, ok_bind]

end

/-- Settles O39: the checks, then the end of the elimination of both matrices, which only STRICT can fail. -/
theorem minvEliminatesBothMatrices : Obligations.MinvEliminatesBothMatrices := by
  intro rm rr rc ra rca pol policy s hpol
  have hp := demandPolicy_of_policyOf hpol
  refine ⟨hasWord_of_wellFormed (polLegal_of_policyOf pol (by simp [hpol])) (by decide) rfl,
    fun h => failsClean_of_part rfl (minvResult_range hp h),
    fun hrc h => failsClean_of_part rfl (minvResult_outside hp hrc h), ?_⟩
  intro M A hrc hm ha hap hM hA hold_M hold_A
  have hwritten := minvResult_written hp hrc hm ha hap hM hA hold_M hold_A
  refine ⟨?_, fun rows he => ?_, fun rows he => ⟨?_, ?_⟩⟩
  · rintro rfl
    exact eliminate_skip_ok _
  · rw [eliminateInBuf_ok he] at hwritten
    exact memDone_of_part rfl (read_writeBytes_twice s _ _ _ _) hwritten
  · cases policy with
    | strict => rfl
    | skip =>
      obtain ⟨rows', he'⟩ := eliminate_skip_ok (pairRows M A)
      rw [he'] at he
      cases he
  · rw [eliminateInBuf_error he] at hwritten
    exact raised_of_part rfl (read_writeBytes_twice s _ _ _ _) hwritten

/-! ### MPAR -/

/-- Several regions load to what each of them loads to. -/
theorem loadEach_map {ι : Type} {m : Memory} {f : ι → Region} {g : ι → List Byte} {l : List ι}
    (h : ∀ x ∈ l, m.load (f x) = .ok (g x)) : m.loadEach (l.map f) = .ok (l.map g) := by
  induction l with
  | nil => rfl
  | cons x l ih =>
    rw [List.map_cons, Memory.loadEach, h x List.mem_cons_self, ok_bind,
      ih fun y hy => h y (List.mem_cons_of_mem _ hy), ok_bind]
    rfl

/-- Element `[i][j]` of the parity matrix: the transpose of `P` in the first `r` columns, then the identity (R121). -/
theorem elemAt_parityOf {r m i j : Nat} {P : Rows} (hP : P.length = r) (hi : i < m) (hj : j < r + m) :
    elemAt (parityOf m P) i j = if j < r then elemAt P j i else if j = r + i then 1 else 0 := by
  have hrow : elemAt (parityOf m P) i j = ((P.map fun row => row.getD i 0) ++ unitRow m i).getD j 0 := by
    simp [elemAt, parityOf, List.getD_eq_getElem?_getD, hi]
  rw [hrow]
  split
  next h =>
    rw [List.getD_append _ _ _ _ (by simpa [hP] using h)]
    simp [elemAt, List.getD_eq_getElem?_getD, hP, h]
  next h =>
    rw [List.getD_append_right _ _ _ _ (by simpa [hP] using h), List.length_map, hP, getD_unitRow _ _ _ (by omega)]
    congr 1
    exact propext (by omega)

/-- The rows of the block P of a matrix of `r` rows and `c` columns, given element by element (R121). -/
def blockRows (r c : Nat) (P : Nat → Nat → Byte) : Rows :=
  (List.range r).map fun j => (List.range (c - r)).map fun k => P j (r + k)

section
variable {s : State} {rd rm rr rc : Reg}

theorem mparMem_range (h : s.num rc < s.num rr) : mparMem rd rm rr rc s = .error (.raised .operandRange) :=
  demand_bind_raised (by simpa using h)

variable (hrc : s.num rr ≤ s.num rc)
include hrc

theorem mparMem_outside (h : ¬ (Inside s (s.num rm) (s.num rr * s.num rc) ∧
      Inside s (s.num rd) ((s.num rc - s.num rr) * s.num rc))) :
    mparMem rd rm rr rc s = .error (.raised .busError) := by
  simp only [mparMem, hrc, decide_true, demand_true, ok_bind]
  exact demandInside_pair_bus h

variable (hm : Inside s (s.num rm) (s.num rr * s.num rc))
  (hd : Inside s (s.num rd) ((s.num rc - s.num rr) * s.num rc))
  (hap : Apart (s.num rd) ((s.num rc - s.num rr) * s.num rc) (s.num rm) (s.num rr * s.num rc))
  {P : Nat → Nat → Byte}
  (hP : ∀ j k, j < s.num rr → s.num rr ≤ k → k < s.num rc → s.mem.read (s.num rm + j * s.num rc + k) = some (P j k))

omit hrc in
include hP in
theorem loadEach_blockP :
    s.mem.loadEach (blockP (s.matOp rm rr rc)) = .ok (blockRows (s.num rr) (s.num rc) P) := by
  refine loadEach_map fun j hj => load_of_holds (by simp [State.matOp]) fun k hk => ?_
  have hk : k < s.num rc - s.num rr := by simpa using hk
  rw [List.getElem_map, List.getElem_range, ← hP j (s.num rr + k) (List.mem_range.mp hj) (by omega) (by omega),
    ← Nat.add_assoc]
  rfl

include hm hd hap hP

theorem mparMem_written : mparMem rd rm rr rc s = .ok (s.mem.writeBytes (s.num rd)
    (parityOf (s.num rc - s.num rr) (blockRows (s.num rr) (s.num rc) P)).flatten) := by
  have hclash : demandNoClash [⟨s.num rd, (s.num rc - s.num rr) * s.num rc⟩] [(s.matOp rm rr rc).region] = .ok () :=
    demandNoClash_ok ((noClash_single _ _ _ _).mpr hap)
  simp only [mparMem, hrc, decide_true, demand_true, demandMatrix_ok hm, demandInside_ok hd, hclash,
    loadEach_blockP hP, ok_bind]

end

theorem length_blockRows (r c : Nat) (P : Nat → Nat → Byte) : (blockRows r c P).length = r := by simp [blockRows]

theorem isMatrix_parityOf_blockRows {r c : Nat} (hrc : r ≤ c) (P : Nat → Nat → Byte) :
    IsMatrix (c - r) c (parityOf (c - r) (blockRows r c P)) := by
  simpa only [Nat.add_sub_cancel' hrc] using isMatrix_parityOf (m := c - r) _ (length_blockRows r c P)

/-- Byte `x` of the parity matrix laid out row-major. -/
theorem getD_flatten_parityOf {r c x : Nat} (hrc : r ≤ c) (P : Nat → Nat → Byte) (hx : x < (c - r) * c) :
    (parityOf (c - r) (blockRows r c P)).flatten.getD x 0 =
      if x % c < r then P (x % c) (r + x / c) else if x % c = r + x / c then 1 else 0 := by
  have hi : x / c < c - r := Nat.div_lt_of_lt_mul (by rwa [Nat.mul_comm])
  have hj : x % c < r + (c - r) := by
    rw [Nat.add_sub_cancel' hrc]
    exact Nat.mod_lt _ (Nat.pos_of_ne_zero (by rintro rfl; simp at hx))
  rw [List.getD_eq_getElem?_getD, getElem?_flatten_matrix (isMatrix_parityOf_blockRows hrc P) hx, Option.getD_some,
    elemAt_parityOf (length_blockRows r c P) hi hj]
  split
  next h => exact elemAt_of_range r (c - r) (fun j k => P j (r + k)) h hi
  next => rfl

/-- Settles O41: the checks, the block P that MPAR reads, and the parity matrix element by element. -/
theorem mparWritesTheParityMatrix : Obligations.MparWritesTheParityMatrix := by
  intro rdst rm rr rc s
  refine ⟨hasWord_of_wellFormed rfl (by decide) rfl, fun h => failsClean_of_mem rfl (mparMem_range h),
    fun hrc h => failsClean_of_mem rfl (mparMem_outside hrc h), ?_⟩
  intro P hrc hm hd hap hP
  exact memDone_of_ok rfl (mparMem_written hrc hm hd hap hP)
    (read_writeBytes_storedBy _ (length_flatten_matrix (isMatrix_parityOf_blockRows hrc P))
      fun x hx => getD_flatten_parityOf hrc P hx)

end Sys2Proof.Machine
end

section
/-! The codec slot (44_codec_construct.md R125, R129 to R135): without a codec every command that uses it fails, FECNEW
fills it, and the commands that read it deliver or store its elements. -/

namespace Sys2Proof.Machine

/-! ### Without a codec -/

section
variable {s : State} (hs : s.codec = none)
include hs

/-- A sequence that begins by asking for the codec slot ends with NoCodec when there is none (R125). -/
theorem needCodec_bind_none {α : Type} {f : Codec → Except Halt α} :
    (s.needCodec >>= f) = .error (.raised .noCodec) := by
  rw [State.needCodec, hs, error_bind]

/-- So does the front end of the share-list commands (45_encode_rebuild.md R143, F1). -/
theorem withList_none {a : ListOperands} {outs : Codec → List Region}
    {work : Listed → Except Halt (Memory × Option ErrorCode)} :
    withList s a outs work = .error (.raised .noCodec) := by
  rw [withList, sortList, needCodec_bind_none hs, error_bind]

end

/-- Settles O14: each of the fourteen asks for the slot first; they differ in what they write when they succeed. -/
theorem codecCommandsNeedACodec : Obligations.CodecCommandsNeedACodec := by
  intro i s hi hs
  cases i
  case required | total | encget | vandget => exact failsClean_of_reg rfl (needCodec_bind_none hs)
  case encdump | vanddump | encode | encsingle => exact failsClean_of_mem rfl (needCodec_bind_none hs)
  case rebuild | synd | bwb | correct | decode | decnc => exact failsClean_of_part rfl (withList_none hs)
  all_goals cases hi

/-! ### FECNEW -/

theorem codecDone_of (s : State) (c : Codec) : CodecDone s { s with codec := some c }.complete c where
  toEndsOk := ⟨⟨rfl, rfl, rfl⟩, rfl, rfl⟩
  toLatchKept := ⟨rfl, rfl, rfl, rfl⟩
  regs := fun _ => rfl
  codec := rfl
  mem := rfl
  len0 := rfl
  len1 := rfl

section
variable {s : State} {rk rn : Reg}

theorem fecnewCodec_illegal (h : ¬ (1 ≤ s.num rk ∧ s.num rk ≤ s.num rn ∧ s.num rn ≤ 256)) :
    fecnewCodec rk rn s = .error (.raised .invalidParameters) :=
  demand_bind_raised (by simpa [and_assoc] using h)

theorem fecnewCodec_legal (hk : 1 ≤ s.num rk) (hkn : s.num rk ≤ s.num rn) (hn : s.num rn ≤ 256) :
    fecnewCodec rk rn s = .ok (codecFor (s.num rk) (s.num rn)) := by
  simp only [fecnewCodec, hk, hkn, hn, decide_true, Bool.and_true, demand_true, ok_bind]

end

/-- Settles O42: the check of K and N, and the slot that a completing FECNEW fills (`fecnewCodec_ok`). -/
theorem fecnewFillsTheSlot : Obligations.FecnewFillsTheSlot := by
  intro rk rn s
  refine ⟨hasWord_of_wellFormed rfl (by decide) rfl, fun h => ?_, fun hk hkn hn => ?_⟩
  · rw [FailsClean, exec, execFecnew, fecnewCodec_illegal h]
    exact ⟨_, rfl, raised_clean s _ _, rfl⟩
  · have hc := fecnewCodec_legal hk hkn hn
    obtain ⟨hck, hcn, hlegal⟩ := fecnewCodec_ok hc
    rw [exec, execFecnew, hc]
    exact ⟨_, _, rfl, codecDone_of s _, hck, hcn, hlegal, cfg_some (codecDone_of s _).codec, rfl⟩

/-! ### REQUIRED, TOTAL, ENCGET, VANDGET -/

section
variable {s : State} {c : Codec} (hc : s.codec = some c)
include hc

/-- With a codec, a sequence that begins by asking for it goes on with it. -/
theorem needCodec_bind_some {α : Type} {f : Codec → Except Halt α} : (s.needCodec >>= f) = f c := by
  rw [(needCodec_eq_ok s c).mpr hc, ok_bind]

variable {ri rj : Reg}

theorem encgetValue_outside (h : ¬ (s.num ri < c.n ∧ s.num rj < c.k)) :
    encgetValue ri rj s = .error (.raised .operandRange) := by
  rw [encgetValue, needCodec_bind_some hc]
  exact demand_bind_raised (by simpa using h)

theorem encgetValue_inside (hi : s.num ri < c.n) (hj : s.num rj < c.k) :
    encgetValue ri rj s = .ok (zext32 (elemAt c.enc (s.num ri) (s.num rj))) := by
  simp only [encgetValue, needCodec_bind_some hc, hi, hj, decide_true, Bool.and_true, demand_true, ok_bind]

theorem vandgetValue_outside (h : ¬ (s.num ri < c.k ∧ s.num rj < c.n)) :
    vandgetValue ri rj s = .error (.raised .operandRange) := by
  rw [vandgetValue, needCodec_bind_some hc]
  exact demand_bind_raised (by simpa using h)

theorem vandgetValue_inside (hi : s.num ri < c.k) (hj : s.num rj < c.n) :
    vandgetValue ri rj s = .ok (zext32 (elemAt c.vand (s.num ri) (s.num rj))) := by
  simp only [vandgetValue, needCodec_bind_some hc, hi, hj, decide_true, Bool.and_true, demand_true, ok_bind]

end

/-- Settles O45: the slot is there, and the two commands with indices check them, one lemma per outcome. -/
theorem codecReads : Obligations.CodecReads := by
  intro rd ri rj s c hc
  refine ⟨⟨hasWord_of_wellFormed rfl (by decide) rfl, hasWord_of_wellFormed rfl (by decide) rfl,
    hasWord_of_wellFormed rfl (by decide) rfl, hasWord_of_wellFormed rfl (by decide) rfl⟩, ?_, ?_, ?_, ?_, ?_, ?_⟩
  · exact regDone_of_ok rfl (needCodec_bind_some hc)
  · exact regDone_of_ok rfl (needCodec_bind_some hc)
  · exact fun h => failsClean_of_reg rfl (encgetValue_outside hc h)
  · exact fun hi hj => regDone_of_ok rfl (encgetValue_inside hc hi hj)
  · exact fun h => failsClean_of_reg rfl (vandgetValue_outside hc h)
  · exact fun hi hj => regDone_of_ok rfl (vandgetValue_inside hc hi hj)

/-! ### ENCDUMP, VANDDUMP -/

/-- There are no more data fragments than evaluation points (R126, R129). -/
theorem Codec.Legal.kMax {c : Codec} (h : c.Legal) : c.k ≤ 256 := h.kLeN.trans h.nMax

theorem Codec.Legal.isMatrix_enc {c : Codec} (h : c.Legal) : IsMatrix c.n c.k c.enc :=
  h.enc ▸ isMatrix_encMatrix c.k c.n

theorem Codec.Legal.isMatrix_vand {c : Codec} (h : c.Legal) : IsMatrix c.k c.n c.vand :=
  h.vand ▸ isMatrix_vandMatrix c.k c.n

/-- Storing a matrix row-major stores element `[x / c][x % c]` at position `x` (20_memory.md R55). -/
theorem read_writeBytes_matrix {s : State} {r c : Nat} {M : Rows} (hM : IsMatrix r c M) (a x : Nat) :
    (s.mem.writeBytes a M.flatten).read x = storedBy s a (r * c) (fun x => elemAt M (x / c) (x % c)) x := by
  refine read_writeBytes_storedBy a (length_flatten_matrix hM) (fun i hi => ?_) x
  rw [List.getD_eq_getElem?_getD, getElem?_flatten_matrix hM hi, Option.getD_some]

section
variable {s : State} {c : Codec} {ra : Reg} (hc : s.codec = some c)
include hc

theorem encdumpMem_outside (h : ¬ Inside s (s.num ra) (c.n * c.k)) :
    encdumpMem ra s = .error (.raised .busError) := by
  rw [encdumpMem, needCodec_bind_some hc]
  exact demandInside_bind_bus h

theorem encdumpMem_inside (h : Inside s (s.num ra) (c.n * c.k)) :
    encdumpMem ra s = .ok (s.mem.writeBytes (s.num ra) c.enc.flatten) := by
  rw [encdumpMem, needCodec_bind_some hc, demandInside_ok h, ok_bind]

theorem vanddumpMem_outside (h : ¬ Inside s (s.num ra) (c.k * c.n)) :
    vanddumpMem ra s = .error (.raised .busError) := by
  rw [vanddumpMem, needCodec_bind_some hc]
  exact demandInside_bind_bus h

theorem vanddumpMem_inside (h : Inside s (s.num ra) (c.k * c.n)) :
    vanddumpMem ra s = .ok (s.mem.writeBytes (s.num ra) c.vand.flatten) := by
  rw [vanddumpMem, needCodec_bind_some hc, demandInside_ok h, ok_bind]

end

/-- Settles O46: both regions have `n * k` bytes; inside BUF each matrix is stored row-major. -/
theorem codecDumps : Obligations.CodecDumps := by
  intro ra s c hc hlegal
  have hcomm : c.n * c.k = c.k * c.n := Nat.mul_comm _ _
  refine ⟨⟨hasWord_of_wellFormed rfl (by decide) rfl, hasWord_of_wellFormed rfl (by decide) rfl⟩, fun h => ?_,
    fun h => ?_⟩
  · exact ⟨failsClean_of_mem rfl (encdumpMem_outside hc h),
      failsClean_of_mem rfl (vanddumpMem_outside hc (hcomm ▸ h))⟩
  · exact ⟨memDone_of_ok rfl (encdumpMem_inside hc h) (read_writeBytes_matrix hlegal.isMatrix_enc _),
      memDone_of_ok rfl (vanddumpMem_inside hc (hcomm ▸ h)) (read_writeBytes_matrix hlegal.isMatrix_vand _)⟩

/-! ### VAND -/

/-- The evaluation points: 0, then the powers of 2 (R126). -/
theorem evalPoint_eq (j : Nat) : evalPoint j = if j = 0 then 0 else xtimes (j - 1) 1 := by
  cases j with
  | zero => rfl
  | succ j => exact gfExp_eq_xtimes j

/-- Settles O44: each element of VAND is a power of its column's point, and the power 0 is 1. -/
theorem vandHoldsPowersOfThePoints : Obligations.VandHoldsPowersOfThePoints := by
  intro k n hk _ _
  refine ⟨isMatrix_vandMatrix k n, fun i j hi hj => ⟨?_, ?_⟩⟩
  · rw [vandMatrix, elemAt_of_range k n _ hi hj, gfPow_eq_repeatedProduct, evalPoint_eq]
  · exact elemAt_of_range k n _ hk hj

end Sys2Proof.Machine
end

section
/-! The bytes as elements of a field of the library. The sums of a root of POLY (10_state.md R11) in an algebraic
closure of the field of two elements add as bytes do, and doubling is multiplication by the root. So the operators of
41_scalar_field.md are those of a field, and what the library knows of polynomials and matrices over a field holds of
bytes. -/

namespace Sys2Proof.Machine

open Polynomial

/-! ### The embedding -/

/-- A field that holds a root of POLY. -/
abbrev Closure2 : Type := AlgebraicClosure (ZMod 2)

/-- POLY, `x^8 + x^4 + x^3 + x^2 + 1` (R11), has a root. -/
theorem exists_polyRoot : ∃ a : Closure2, a ^ 8 = a ^ 4 + a ^ 3 + a ^ 2 + 1 := by
  obtain ⟨a, ha⟩ := IsAlgClosed.exists_root (X ^ 8 + (X ^ 4 + X ^ 3 + X ^ 2 + 1) : Closure2[X]) (by
    rw [show (X ^ 8 + (X ^ 4 + X ^ 3 + X ^ 2 + 1) : Closure2[X]).degree = 8 by compute_degree!]
    decide)
  refine ⟨a, CharTwo.add_eq_zero.mp ?_⟩
  simpa using ha

/-- The generator 2 of the field (R11): a root of POLY. -/
noncomputable def polyRoot : Closure2 := Classical.choose exists_polyRoot

theorem polyRoot_pow_eight : polyRoot ^ 8 = polyRoot ^ 4 + polyRoot ^ 3 + polyRoot ^ 2 + 1 :=
  Classical.choose_spec exists_polyRoot

/-- A bit of a byte. -/
noncomputable def bitOf (a : Byte) (i : Nat) : Closure2 := if a.getLsbD i then 1 else 0

/-- The element of the field that a byte stands for: the sum of the powers of the generator at its bits (R11). -/
noncomputable def toField (a : Byte) : Closure2 := ∑ i ∈ Finset.range 8, bitOf a i * polyRoot ^ i

theorem bitOf_xor (a b : Byte) (i : Nat) : bitOf (a ^^^ b) i = bitOf a i + bitOf b i := by
  simp only [bitOf, BitVec.getLsbD_xor]
  cases a.getLsbD i with
  | false => cases b.getLsbD i <;> simp
  | true =>
    cases b.getLsbD i with
    | false => simp
    | true => simp [CharTwo.add_self_eq_zero]

@[simp] theorem toField_xor (a b : Byte) : toField (a ^^^ b) = toField a + toField b := by
  simp only [toField, bitOf_xor, add_mul, Finset.sum_add_distrib]

@[simp] theorem toField_zero : toField 0#8 = 0 := by simp [toField, bitOf]

@[simp] theorem toField_one : toField 1#8 = 1 := by
  have hbit : ∀ i, bitOf 1#8 i = if i = 0 then 1 else 0 := fun i => by simp [bitOf, BitVec.getLsbD_one]
  simp [toField, hbit]

/-- Shifting a byte multiplies by the generator, but for the bit that is lost. -/
theorem toField_shiftLeft_one (a : Byte) :
    toField (a <<< 1) + bitOf a 7 * polyRoot ^ 8 = polyRoot * toField a := by
  have hterm : ∀ i ∈ Finset.range 7, bitOf (a <<< 1) (i + 1) * polyRoot ^ (i + 1) =
      polyRoot * (bitOf a i * polyRoot ^ i) := fun i hi => by
    have hbit : (a <<< 1).getLsbD (i + 1) = a.getLsbD i := by
      have hlt : i + 1 < 8 := Nat.succ_lt_succ (Finset.mem_range.mp hi)
      rw [BitVec.getLsbD_shiftLeft, decide_eq_true hlt, decide_eq_false (by omega), Nat.add_sub_cancel]
      rfl
    rw [bitOf, hbit, bitOf, pow_succ']
    ring
  have hlow : bitOf (a <<< 1) 0 = 0 := by simp [bitOf]
  rw [toField, toField, Finset.sum_range_succ', Finset.sum_range_succ _ 7, hlow, mul_add, Finset.mul_sum,
    Finset.sum_congr rfl hterm]
  ring

/-- The byte 0x1D is POLY without its leading term. -/
theorem toField_reduction : toField 0x1D = polyRoot ^ 8 := by
  have hbits : toField 0x1D = 1 + polyRoot ^ 2 + polyRoot ^ 3 + polyRoot ^ 4 := by
    simp [toField, Finset.sum_range_succ, bitOf]
  rw [hbits, polyRoot_pow_eight]
  ring

/-- Doubling is multiplication by the generator (R11). -/
theorem toField_xtime (a : Byte) : toField (xtime a) = polyRoot * toField a := by
  rw [← toField_shiftLeft_one, xtime, bitOf]
  split
  · rw [toField_xor, toField_reduction, one_mul]
  · rw [zero_mul, add_zero]

theorem toField_xtimes (i : Nat) (a : Byte) : toField (xtimes i a) = polyRoot ^ i * toField a := by
  induction i with
  | zero => simp [xtimes]
  | succ i ih => rw [xtimes, toField_xtime, ih, pow_succ', mul_assoc]

/-! ### The operators -/

theorem toField_gfExp (i : Nat) : toField (gfExp i) = polyRoot ^ i := by
  rw [gfExp_eq_xtimes, toField_xtimes]
  exact (congrArg _ toField_one).trans (mul_one _)

@[simp] theorem toField_gfMul (a b : Byte) : toField (gfMul a b) = toField a * toField b := by
  by_cases ha : a = 0#8
  · rw [ha, gfMul_zero_left, toField_zero, zero_mul]
  · obtain ⟨i, rfl⟩ := exists_gfExp ha
    rw [gfMul_gfExp_left, toField_xtimes, toField_gfExp]

theorem toField_eq_zero {a : Byte} (h : toField a = 0) : a = 0 := by
  by_contra ha
  have hinv := congrArg toField (gfMul_gfInv ha)
  rw [toField_gfMul, h, zero_mul] at hinv
  exact zero_ne_one (hinv.trans toField_one)

/-- Bytes stand for different elements. -/
theorem toField_injective : Function.Injective toField := fun a b h => by
  refine BitVec.xor_eq_zero_iff.mp (toField_eq_zero ?_)
  rw [toField_xor, h, CharTwo.add_self_eq_zero]

theorem toField_gfDiv (a : Byte) {b : Byte} (hb : b ≠ 0) : toField (gfDiv a b) = toField a / toField b := by
  rw [eq_div_iff (mt toField_eq_zero hb), ← toField_gfMul, gfDiv_gfMul a hb]

@[simp] theorem toField_gfPow (a : Byte) (e : Nat) : toField (gfPow a e) = toField a ^ e := by
  rw [gfPow_eq_repeatedProduct]
  induction e with
  | zero => exact toField_one.trans (pow_zero _).symm
  | succ e ih => rw [repeatedProduct, toField_gfMul, ih, pow_succ]

@[simp] theorem toField_sumTo (n : Nat) (g : Nat → Byte) :
    toField (sumTo n g) = ∑ i ∈ Finset.range n, toField (g i) := by
  induction n with
  | zero => exact toField_zero
  | succ n ih => rw [sumTo_succ, toField_xor, ih, Finset.sum_range_succ]

@[simp] theorem toField_gfProd (l : List Byte) : toField (gfProd l) = (l.map toField).prod := by
  induction l with
  | nil => exact toField_one
  | cons a l ih => rw [gfProd, toField_gfMul, ih, List.map_cons, List.prod_cons]

/-! ### Polynomials -/

/-- The polynomial that a sequence stands for, most significant coefficient first (20_memory.md R54). -/
noncomputable def toPoly (p : List Byte) : Closure2[X] :=
  ∑ i : Fin p.length, C (toField (p.getD (p.length - 1 - i) 0)) * X ^ i.val

theorem degree_toPoly_lt (p : List Byte) : (toPoly p).degree < p.length := degree_sum_fin_lt _

@[simp] theorem toField_polyeval (p : List Byte) (x : Byte) :
    toField (polyeval p x) = (toPoly p).eval (toField x) := by
  rw [polyeval_eq_sumTo, toField_sumTo, toPoly, eval_finsetSum, Finset.sum_range]
  simp only [toField_gfMul, toField_gfPow, eval_mul, eval_C, eval_pow, eval_X]

end Sys2Proof.Machine
end

section
/-! ENC is the matrix of the Lagrange polynomials at the evaluation points (44_codec_construct.md R126, R127). -/

namespace Sys2Proof.Machine

open Polynomial

/-- The evaluation point of fragment number `i` (R126), as an element of the field. -/
noncomputable def point (i : Nat) : Closure2 := toField (evalPoint i)

/-- The 256 points are distinct (R126). -/
theorem point_injOn {s : Finset Nat} (hs : ∀ i ∈ s, i < 256) : Set.InjOn point s := fun i hi j hj h =>
  evalPoint_inj (Nat.le_of_lt_succ (hs i hi)) (Nat.le_of_lt_succ (hs j hj)) (toField_injective h)

theorem point_injOn_range {k : Nat} (hk : k ≤ 256) : Set.InjOn point (Finset.range k) :=
  point_injOn fun _ hi => (Finset.mem_range.mp hi).trans_le hk

theorem toField_gapProduct (k j : Nat) (y : Byte) :
    toField (gapProduct k j y) = ∏ m ∈ (Finset.range k).erase j, (toField y - point m) := by
  have hset : ((List.range k).filter (· != j)).toFinset = (Finset.range k).erase j := by
    ext m
    simp [and_comm]
  rw [gapProduct, toField_gfProd, List.map_map, ← hset, List.prod_toFinset _ (List.nodup_range.filter _)]
  simp only [CharTwo.sub_eq_add]
  exact congrArg List.prod (List.map_congr_left fun m _ => toField_xor y (evalPoint m))

section
variable {k j : Nat} (hk : k ≤ 256) (hj : j < k)
include hk hj

theorem gapProduct_ne_zero : gapProduct k j (evalPoint j) ≠ 0 := by
  intro h
  have hprod := (toField_gapProduct k j (evalPoint j)).symm.trans ((congrArg toField h).trans toField_zero)
  obtain ⟨m, hm, h0⟩ := Finset.prod_eq_zero_iff.mp hprod
  obtain ⟨hmj, hm⟩ := Finset.mem_erase.mp hm
  exact hmj (point_injOn_range hk hm (Finset.mem_range.mpr hj) (sub_eq_zero.mp h0).symm)

/-- R127: element `[i][j]` of ENC is the Lagrange polynomial of point `j` at point `i`. -/
theorem toField_encElem (i : Nat) :
    toField (encElem k i j) = (Lagrange.basis (Finset.range k) point j).eval (point i) := by
  rw [encElem, toField_gfDiv _ (gapProduct_ne_zero hk hj), toField_gapProduct, toField_gapProduct, div_eq_inv_mul,
    ← Finset.prod_inv_distrib, ← Finset.prod_mul_distrib, Lagrange.basis, eval_prod]
  refine Finset.prod_congr rfl fun m _ => ?_
  rw [Lagrange.basisDivisor, eval_mul, eval_C, eval_sub, eval_X, eval_C]
  rfl

/-- The first `k` rows of ENC are those of the identity (R127). -/
theorem encElem_of_lt {i : Nat} (hi : i < k) : encElem k i j = if i = j then 1 else 0 := by
  have hinj := point_injOn_range hk
  have hjk := Finset.mem_range.mpr hj
  have hik := Finset.mem_range.mpr hi
  apply toField_injective
  rw [toField_encElem hk hj]
  split
  next h => rw [h, Lagrange.eval_basis_self hinj hjk]; exact toField_one.symm
  next h => rw [Lagrange.eval_basis_of_ne (Ne.symm h) hik]; exact toField_zero.symm

end

/-- A row of ENC applied to the values of a combination at the first points: interpolation, as a sum of the Lagrange
polynomials, evaluated at the row's point. -/
theorem sum_encElem {k : Nat} (hk : k ≤ 256) (i : Nat) (v : Nat → Closure2) :
    ∑ j ∈ Finset.range k, toField (encElem k i j) * v j =
      (Lagrange.interpolate (Finset.range k) point v).eval (point i) := by
  rw [Lagrange.interpolate_apply, eval_finsetSum]
  refine Finset.sum_congr rfl fun j hj => ?_
  rw [toField_encElem hk (Finset.mem_range.mp hj), eval_mul, eval_C, mul_comm]

/-- A row of ENC applied to the values of a polynomial of `k` coefficients gives its value at the row's point. -/
theorem sumTo_encElem {k : Nat} (hk : k ≤ 256) {p : List Byte} (hp : p.length = k) (i : Nat) :
    (sumTo k fun j => gfMul (encElem k i j) (polyeval p (evalPoint j))) = polyeval p (evalPoint i) := by
  have hdeg : (toPoly p).degree < (Finset.range k).card := by
    rw [Finset.card_range, ← hp]
    exact degree_toPoly_lt p
  apply toField_injective
  simp only [toField_sumTo, toField_gfMul, toField_polyeval]
  exact (sum_encElem hk i fun j => (toPoly p).eval (point j)).trans
    (congrArg (eval (point i)) (Lagrange.eq_interpolate (point_injOn_range hk) hdeg).symm)

theorem elemAt_encMatrix {k n i j : Nat} (hi : i < n) (hj : j < k) : elemAt (encMatrix k n) i j = encElem k i j :=
  elemAt_of_range n k _ hi hj

/-- Settles O43: a Lagrange polynomial is 1 at its own point and 0 at the other first points, and a polynomial of `k`
coefficients is the interpolation of its values there. -/
theorem encIsTheInterpolationMatrix : Obligations.EncIsTheInterpolationMatrix := by
  intro k n _ hkn hn
  have hk : k ≤ 256 := hkn.trans hn
  refine ⟨isMatrix_encMatrix k n, fun i j hi hj => ?_, fun p hp i hi => ?_⟩
  · rw [elemAt_encMatrix (hi.trans_le hkn) hj, encElem_of_lt hk hj hi]
  · rw [sumTo_congr fun j hj => by rw [elemAt_encMatrix hi hj], sumTo_encElem hk hp i]

end Sys2Proof.Machine
end

section
/-! Eliminations that cannot fail (43_matrix.md R117): when the first columns of a matrix, as many as it has rows, are
linearly independent, the forward pass under STRICT finds a pivot for each of them. -/

namespace Sys2Proof.Machine

/-! ### Independent columns -/

/-- The first `n` elements of a row's matrix part, each times its coefficient, added up. -/
noncomputable def columnSum (n : Nat) (v : Nat → Closure2) (r : PairRow) : Closure2 :=
  ∑ k ∈ Finset.range n, toField (r.1.getD k 0) * v k

theorem columnSum_scalePair (n : Nat) (v : Nat → Closure2) (r : PairRow) (f : Byte) :
    columnSum n v (scalePair r f) = toField f * columnSum n v r := by
  rw [columnSum, columnSum, Finset.mul_sum]
  refine Finset.sum_congr rfl fun k _ => ?_
  rw [scalePair, getD_polyscale, toField_gfMul]
  ring

theorem columnSum_addmulPair {r p : PairRow} (h : r.1.length = p.1.length) (n : Nat) (v : Nat → Closure2) (t : Byte) :
    columnSum n v (addmulPair r p t) = columnSum n v r + toField t * columnSum n v p := by
  rw [columnSum, columnSum, columnSum, Finset.mul_sum, ← Finset.sum_add_distrib]
  refine Finset.sum_congr rfl fun k _ => ?_
  rw [addmulPair, getD_addmul_of_length_eq h, toField_xor, toField_gfMul]
  ring

/-- Rows of `c` and `a` elements whose first `n` columns are linearly independent: no combination of them vanishes in
every row unless all its coefficients are 0. -/
structure Independent (c a n : Nat) (rows : List PairRow) : Prop where
  shape : PairShape c a rows
  trivial : ∀ v : Nat → Closure2, (∀ j < rows.length, columnSum n v (rowAt rows j) = 0) → ∀ k < n, v k = 0

/-- Each row operation can be undone, so a combination of columns that vanishes after it vanished before it. -/
theorem independent_closed (c a n : Nat) : RowClosed (Independent c a n) where
  swap rows i p hi hp h :=
    { shape := (pairShape_closed c a).swap rows i p hi hp h.shape
      trivial := fun v hv => h.trivial v fun j hj => by
        -- Row `i` stands in row `p` after the exchange, and row `p` in row `i`.
        rw [length_swapRows] at hv
        have hrow_i := hv i hi
        have hrow_p := hv p hp
        have hrow_j := hv j hj
        rw [rowAt_swapRows hi hp] at hrow_i hrow_p hrow_j
        grind }
  scale rows i f hi hf h :=
    { shape := (pairShape_closed c a).scale rows i f hi hf h.shape
      trivial := fun v hv => h.trivial v fun j hj => by
        rw [List.length_set] at hv
        have hrow := hv j hj
        rw [rowAt_set hi] at hrow
        split at hrow
        next hji =>
          rw [columnSum_scalePair] at hrow
          exact hji ▸ (mul_eq_zero.mp hrow).resolve_left (mt toField_eq_zero hf)
        next => exact hrow }
  add rows i on t hi hon h :=
    { shape := (pairShape_closed c a).add rows i on t hi hon h.shape
      trivial := fun v hv => h.trivial v fun j hj => by
        rw [List.length_mapIdx] at hv
        have hpivot : columnSum n v (rowAt rows i) = 0 := by simpa [rowAt_mapIdx _ hi, hon] using hv i hi
        have hrow := hv j hj
        rw [rowAt_mapIdx _ hj] at hrow
        split at hrow
        · have hlen := (h.shape _ (rowAt_mem hj)).1.trans (h.shape _ (rowAt_mem hi)).1.symm
          rwa [columnSum_addmulPair hlen, hpivot, mul_zero, add_zero] at hrow
        · exact hrow }

/-! ### The forward pass -/

/-- The first `m` rows and columns of the matrix part. -/
noncomputable def leadingBlock (m : Nat) (rows : List PairRow) : Matrix (Fin m) (Fin m) Closure2 :=
  Matrix.of fun j k => toField (pivotAt rows j k)

/-- A combination of the first `m` columns, as one of `n` columns. -/
theorem columnSum_extend {m n : Nat} (h : m ≤ n) (v : Fin m → Closure2) (r : PairRow) :
    columnSum n (Function.extend Fin.val v 0) r = ∑ k : Fin m, toField (r.1.getD k 0) * v k := by
  have hout : ∀ k ∈ Finset.range n, k ∉ Finset.range m →
      toField (r.1.getD k 0) * Function.extend Fin.val v 0 k = 0 := fun k _ hk => by
    have hne : ¬ ∃ l : Fin m, l.val = k := fun ⟨l, hl⟩ => hk (Finset.mem_range.mpr (hl ▸ l.isLt))
    rw [Function.extend_apply' _ _ _ hne, Pi.zero_apply, mul_zero]
  rw [columnSum, ← Finset.sum_subset (Finset.range_subset_range.mpr h) hout, Finset.sum_range]
  simp only [Fin.val_injective.extend_apply]

section
variable {c a i n : Nat} {rows : List PairRow}

/-- Without a pivot in column `i`, every row from `i` on begins with `i + 1` zeros; the leading block then has a row of
zeros, so that a combination of the first `i + 1` columns vanishes. -/
theorem Independent.findPivot_ne_none (h : Independent c a n rows) (ht : Triangular c a i rows) (hi : i < rows.length)
    (hn : i < n) : findPivot rows i ≠ none := by
  intro hnone
  have hzero : ∀ j, i ≤ j → j < rows.length → ∀ k ≤ i, pivotAt rows j k = 0#8 := fun j hij hj k hk => by
    rcases Nat.lt_or_eq_of_le hk with hk | rfl
    · exact ht.zero hk hij hj
    · exact findPivot_none hnone j hij hj
  have hdet : (leadingBlock (i + 1) rows).det = 0 :=
    Matrix.det_eq_zero_of_row_eq_zero (Fin.last i) fun k =>
      (congrArg toField (hzero i (Nat.le_refl i) hi k (Nat.le_of_lt_succ k.isLt))).trans toField_zero
  obtain ⟨v, hv, hblock⟩ := Matrix.exists_mulVec_eq_zero_iff.mpr hdet
  have hvanish : ∀ k < n, Function.extend Fin.val v 0 k = 0 := h.trivial _ fun j hj => by
    rw [columnSum_extend hn]
    rcases Nat.lt_or_ge i j with hij | hij
    · refine Finset.sum_eq_zero fun k _ => ?_
      rw [← pivotAt, hzero j hij.le hj k (Nat.le_of_lt_succ k.isLt), toField_zero, zero_mul]
    · exact congrFun hblock ⟨j, Nat.lt_succ_of_le hij⟩
  exact hv (funext fun k => (Fin.val_injective.extend_apply v 0 k).symm.trans (hvanish k (k.isLt.trans_le hn)))

theorem Independent.forwardPass_ok {todo : Nat} (h : Independent c a n rows) (ht : Triangular c a i rows)
    (hl : i + todo ≤ rows.length) (hn : i + todo ≤ n) : ∃ rows', forwardPass .strict todo i rows = .ok rows' := by
  induction todo generalizing i rows with
  | zero => exact ⟨rows, rfl⟩
  | succ todo ih =>
    unfold forwardPass
    cases hf : findPivot rows i with
    | none => exact absurd hf (h.findPivot_ne_none ht (by omega) (by omega))
    | some p =>
      obtain ⟨hip, hp, h0⟩ := findPivot_some hf
      exact ih (pivotStep_closed (independent_closed c a n) (by omega) hp h0 h) (ht.pivotStep hip hp h0)
        (by rw [length_pivotStep]; omega) (by omega)

/-- An elimination under STRICT succeeds when the first columns, as many as there are rows, are independent. -/
theorem Independent.eliminate_ok (h : Independent c a n rows) (hn : rows.length ≤ n) :
    ∃ rows', eliminate .strict rows = .ok rows' := by
  have hstart : Triangular c a 0 rows := ⟨h.shape, fun _ _ hk => absurd hk (Nat.not_lt_zero _)⟩
  obtain ⟨rows', hf⟩ := h.forwardPass_ok hstart (todo := rows.length) (by omega) (by omega)
  exact ⟨backwardPass rows', by rw [eliminate, hf]⟩

end

end Sys2Proof.Machine
end

section
/-! Rebuild and syndrome always find their pivots: any `k` rows of ENC are independent by interpolation, and any `k`
columns of VAND are a Vandermonde matrix (44_codec_construct.md R127, R128, 45_encode_rebuild.md R145,
46_berlekamp_welch.md R150). -/

namespace Sys2Proof.Machine

/-! ### Rows of ENC -/

/-- The rows of ENC with the given numbers. -/
def encRows (k : Nat) (nums : List Nat) : Rows := nums.map fun t => (List.range k).map (encElem k t)

theorem isMatrix_encRows (k : Nat) (nums : List Nat) : IsMatrix nums.length k (encRows k nums) := by
  refine ⟨List.length_map _, fun row hrow => ?_⟩
  obtain ⟨t, -, rfl⟩ := List.mem_map.mp hrow
  rw [List.length_map, List.length_range]

/-- The decoding matrix consists of rows of ENC: for a data fragment the row is that of the identity (R144). -/
theorem decodingMatrix_eq_encRows {c : Codec} (hc : c.Legal) {sel : List Fragment} (hsel : ∀ f ∈ sel, f.num < c.n) :
    decodingMatrix c sel = encRows c.k (sel.map (·.num)) := by
  rw [decodingMatrix, encRows, List.map_map]
  refine List.map_congr_left fun f hf => ?_
  split
  next h =>
    refine List.map_congr_left fun j hj => ?_
    rw [encElem_of_lt hc.kMax (List.mem_range.mp hj) h]
    simp only [eq_comm]
  next => simp [hc.enc, encMatrix, List.getD_eq_getElem?_getD, hsel f hf]

/-- A combination of the first elements of a row of ENC is the value of the interpolation at the row's point. -/
theorem columnSum_encRow {k : Nat} (hk : k ≤ 256) (t : Nat) (u : List Byte) (v : Nat → Closure2) :
    columnSum k v ((List.range k).map (encElem k t), u) =
      (Lagrange.interpolate (Finset.range k) point v).eval (point t) := by
  rw [← sum_encElem hk]
  refine Finset.sum_congr rfl fun j hj => ?_
  simp [List.getD_eq_getElem?_getD, Finset.mem_range.mp hj]

theorem rowAt_pairRows {M A : Rows} {j : Nat} (hM : j < M.length) (hA : j < A.length) :
    rowAt (pairRows M A) j = (M[j], A[j]) := by
  rw [rowAt_of_lt (by rw [length_pairRows]; omega)]
  exact List.getElem_zip

/-- Any `k` rows of ENC are independent: the interpolation of a vanishing combination has `k` zeros (R127). -/
theorem independent_encRows {k a : Nat} {nums : List Nat} {A : Rows} (hk : k ≤ 256) (hlen : nums.length = k)
    (hnodup : nums.Nodup) (hnums : ∀ t ∈ nums, t < 256) (hA : IsMatrix k a A) :
    Independent k a k (pairRows (encRows k nums) A) where
  shape := pairShape_pairRows (isMatrix_encRows k nums) hA
  trivial v hv := by
    have hinj := point_injOn_range hk
    have heval : ∀ t ∈ nums.toFinset, (Lagrange.interpolate (Finset.range k) point v).eval (point t) = 0 := by
      intro t ht
      obtain ⟨j, hj, rfl⟩ := List.mem_iff_getElem.mp (List.mem_toFinset.mp ht)
      have hM : j < (encRows k nums).length := by rwa [(isMatrix_encRows k nums).1]
      have hrow := hv j (by rw [length_pairRows, hA.1]; omega)
      rw [rowAt_pairRows hM (by rw [hA.1]; omega)] at hrow
      simpa only [encRows, List.getElem_map, columnSum_encRow hk] using hrow
    have hcard : nums.toFinset.card = (Finset.range k).card := by
      rw [List.toFinset_card_of_nodup hnodup, hlen, Finset.card_range]
    have hzero : Lagrange.interpolate (Finset.range k) point v = 0 :=
      Polynomial.eq_zero_of_degree_lt_of_eval_index_eq_zero _
        (point_injOn fun t ht => hnums t (List.mem_toFinset.mp ht))
        (hcard ▸ Lagrange.degree_interpolate_lt v hinj) heval
    intro j hj
    rw [← Lagrange.eval_interpolate_at_node v hinj (Finset.mem_range.mpr hj), hzero, Polynomial.eval_zero]

theorem SortedFragments.nodup_nums {c : Codec} {S : List Fragment} (h : SortedFragments c S) :
    (S.map (·.num)).Nodup := List.pairwise_map.mpr (h.ascending.imp Nat.ne_of_lt)

/-- The selection takes each fragment at most once (R144). -/
theorem selectFrom_subperm (todo i : Nat) (S : List Fragment) : (selectFrom todo i S).Subperm S := by
  induction todo generalizing i S with
  | zero => exact List.nil_subperm
  | succ todo ih =>
    cases S with
    | nil => exact List.nil_subperm
    | cons f S =>
      unfold selectFrom
      split
      · exact (List.subperm_cons f).mpr (ih _ S)
      · have hne : f :: S ≠ [] := List.cons_ne_nil f S
        have hperm : ((f :: S).getLast hne :: (f :: S).dropLast).Perm (f :: S) :=
          (List.perm_append_singleton _ _).symm.trans (.of_eq (List.dropLast_append_getLast hne))
        rw [List.getLastD_eq_getLast?, List.getLast?_eq_some_getLast hne, Option.getD_some]
        exact ((List.subperm_cons _).mpr (ih _ _)).trans hperm.subperm

/-- R145: the elimination of a rebuild succeeds. -/
theorem rebuildBlocks_ok {c : Codec} (hc : c.Legal) {S : List Fragment} (hS : SortedFragments c S) (bs : Nat) :
    ∃ blocks, rebuildBlocks c bs S = .ok blocks := by
  have hsub : (selectFragments c.k S).Subperm S := selectFrom_subperm c.k 0 S
  have hnums : ∀ f ∈ selectFragments c.k S, f.num < c.n := fun f hf => hS.numbers f (hsub.subset hf)
  have hlen : ((selectFragments c.k S).map (·.num)).length = c.k := by
    rw [List.length_map, selectFragments, length_selectFrom, Nat.min_eq_left hS.enough]
  have hnodup : ((selectFragments c.k S).map (·.num)).Nodup := by
    obtain ⟨T, hperm, hsublist⟩ := hsub
    exact (hperm.map _).nodup_iff.mp (hS.nodup_nums.sublist (hsublist.map _))
  have hind : Independent c.k c.k c.k (pairRows (decodingMatrix c (selectFragments c.k S)) (identity c.k)) := by
    rw [decodingMatrix_eq_encRows hc hnums]
    exact independent_encRows hc.kMax hlen hnodup
      (List.forall_mem_map.mpr fun f hf => (hnums f hf).trans_le hc.nMax) (isMatrix_identity c.k)
  obtain ⟨rows, he⟩ := hind.eliminate_ok
    (length_pairRows _ _ ▸ (Nat.min_le_right _ _).trans (isMatrix_identity c.k).1.le)
  rw [rebuildBlocks, he]
  exact ⟨_, rfl⟩

/-! ### Columns of VAND -/

/-- The columns of VAND with the given numbers. -/
def vandColumns (k : Nat) (nums : List Nat) : Rows :=
  (List.range k).map fun i => nums.map fun t => gfPow (evalPoint t) i

theorem isMatrix_vandColumns (k : Nat) (nums : List Nat) : IsMatrix k nums.length (vandColumns k nums) := by
  refine ⟨by rw [vandColumns, List.length_map, List.length_range], fun row hrow => ?_⟩
  obtain ⟨i, -, rfl⟩ := List.mem_map.mp hrow
  rw [List.length_map]

/-- The matrix that the syndrome construction eliminates consists of columns of VAND (R150). -/
theorem map_vand_eq_vandColumns {c : Codec} (hc : c.Legal) {nums : List Nat} (hnums : ∀ t ∈ nums, t < c.n) :
    (c.vand.map fun row => nums.map fun t => row.getD t 0) = vandColumns c.k nums := by
  rw [hc.vand, vandMatrix, vandColumns, List.map_map]
  refine List.map_congr_left fun i _ => List.map_congr_left fun t ht => ?_
  simp [List.getD_eq_getElem?_getD, hnums t ht]

/-- A combination of the first elements of a row: powers of the points, each times its coefficient. -/
theorem columnSum_vandColumns {k i : Nat} {nums : List Nat} (hk : k ≤ nums.length) (hi : i < k) (v : Nat → Closure2) :
    columnSum k v (rowAt (soleRows (vandColumns k nums)) i) =
      ∑ j : Fin k, v j * point (nums[j.val]'(j.isLt.trans_le hk)) ^ i := by
  have hrow : rowAt (soleRows (vandColumns k nums)) i = (nums.map fun t => gfPow (evalPoint t) i, []) := by
    rw [rowAt_of_lt (by rwa [length_soleRows, (isMatrix_vandColumns k nums).1])]
    simp [soleRows, vandColumns]
  rw [hrow, columnSum, Finset.sum_range]
  refine Finset.sum_congr rfl fun j _ => ?_
  have hj : j.val < nums.length := j.isLt.trans_le hk
  rw [List.getD_eq_getElem _ _ (by rwa [List.length_map]), List.getElem_map, toField_gfPow, mul_comm]
  rfl

/-- The first `k` of any columns of VAND are a Vandermonde matrix, whose points are distinct (R126, R128). -/
theorem independent_vandColumns {k : Nat} {nums : List Nat} (hk : k ≤ nums.length) (hnodup : nums.Nodup)
    (hnums : ∀ t ∈ nums, t < 256) : Independent nums.length 0 k (soleRows (vandColumns k nums)) where
  shape := pairShape_soleRows (isMatrix_vandColumns k nums)
  trivial v hv j hj := by
    have hinj : Function.Injective fun j : Fin k => point (nums[j.val]'(j.isLt.trans_le hk)) := fun i j h => by
      have hmem : ∀ l : Fin k, nums[l.val]'(l.isLt.trans_le hk) ∈ nums.toFinset := fun l =>
        List.mem_toFinset.mpr (List.getElem_mem _)
      exact Fin.ext (hnodup.getElem_inj_iff.mp
        (point_injOn (fun t ht => hnums t (List.mem_toFinset.mp ht)) (hmem i) (hmem j) h))
    have hsum : ∀ i : Fin k, ∑ j : Fin k, v j * point (nums[j.val]'(j.isLt.trans_le hk)) ^ i.val = 0 := fun i => by
      rw [← columnSum_vandColumns hk i.isLt]
      exact hv i (by rw [length_soleRows, (isMatrix_vandColumns k nums).1]; exact i.isLt)
    exact congrFun (Matrix.eq_zero_of_forall_pow_sum_mul_pow_eq_zero (v := fun j : Fin k => v j) hinj hsum) ⟨j, hj⟩

/-- R150: the elimination of a syndrome construction succeeds. -/
theorem syndrome_ok {c : Codec} (hc : c.Legal) {nums : List Nat} (hk : c.k ≤ nums.length) (hnodup : nums.Nodup)
    (hnums : ∀ t ∈ nums, t < c.n) : ∃ H, syndrome c nums = .ok H := by
  have hind := independent_vandColumns hk hnodup fun t ht => (hnums t ht).trans_le hc.nMax
  obtain ⟨rows, he⟩ := hind.eliminate_ok (by rw [length_soleRows, (isMatrix_vandColumns c.k nums).1])
  rw [syndrome, map_vand_eq_vandColumns hc hnums, he]
  exact ⟨_, rfl⟩

/-- Settles O52: each construction eliminates a matrix whose first `k` columns are independent. -/
theorem codecEliminationsSucceed : Obligations.CodecEliminationsSucceed := by
  intro c bs S hc hS
  exact ⟨rebuildBlocks_ok hc hS bs, syndrome_ok hc (by rw [List.length_map]; exact hS.enough) hS.nodup_nums
    (List.forall_mem_map.mpr hS.numbers)⟩

end Sys2Proof.Machine
end

section
/-! Encoding (45_encode_rebuild.md R141, R142): the bytes of a fragment, and the outcome of each check of ENCODE and
ENCSINGLE. -/

namespace Sys2Proof.Machine

/-! ### The bytes of a fragment -/

/-- A position in `r` rows of `c` bytes is in one of the rows, at one of its bytes (20_memory.md R55). -/
theorem div_mod_lt {r c x : Nat} (hx : x < r * c) : x / c < r ∧ x % c < c :=
  ⟨Nat.div_lt_of_lt_mul (by rwa [Nat.mul_comm]), Nat.mod_lt _ (Nat.pos_of_lt_mul_left hx)⟩

/-- Block `j` of a data buffer begins at byte `j * bs` (20_memory.md R54). -/
theorem getD_blockAt {bs p : Nat} (hp : p < bs) (D : List Byte) (j : Nat) :
    (blockAt bs D j).getD p 0 = D.getD (j * bs + p) 0 := by
  simp [blockAt, List.getD_eq_getElem?_getD, hp]

theorem length_blockAt {k bs j : Nat} {D : List Byte} (hD : D.length = k * bs) (hj : j < k) :
    (blockAt bs D j).length = bs := by
  have hend : (j + 1) * bs ≤ D.length := hD ▸ Nat.mul_le_mul_right bs hj
  rw [Nat.succ_mul] at hend
  rw [blockAt, List.length_take, List.length_drop]
  omega

section
variable {c : Codec} {bs : Nat} {D : List Byte} (hD : D.length = c.k * bs)
include hD

theorem isMatrix_fragments : IsMatrix c.n bs ((List.range c.n).map (fragmentOf c bs D)) :=
  ⟨by rw [List.length_map, List.length_range], List.forall_mem_map.mpr fun i _ => length_fragmentOf hD i⟩

variable (hc : c.Legal)
include hc

/-- R141: a data fragment is its block; a parity fragment is the sum of all blocks, each times its element of ENC. -/
theorem getD_fragmentOf {i p : Nat} (hi : i < c.n) (hp : p < bs) :
    (fragmentOf c bs D i).getD p 0 = fragmentByte c bs D i p := by
  rw [fragmentOf, fragmentByte]
  split
  next => exact getD_blockAt hp D i
  next =>
    have hblocks : ∀ b ∈ (List.range c.k).map (blockAt bs D), b.length = bs :=
      List.forall_mem_map.mpr fun j hj => length_blockAt hD (List.mem_range.mp hj)
    have hrow : (c.enc.getD i []).length = c.k := by
      have hi : i < c.enc.length := hc.isMatrix_enc.1.symm ▸ hi
      rw [List.getD_eq_getElem _ _ hi]
      exact hc.isMatrix_enc.2 _ (List.getElem_mem hi)
    rw [getD_combine bs _ _ hblocks (by rw [hrow, List.length_map, List.length_range]) p hp, List.length_map,
      List.length_range]
    refine sumTo_congr fun j hj => ?_
    rw [← getD_blockAt hp D j]
    simp [elemAt, List.getD_eq_getElem?_getD, hj]

/-- Byte `x` of the fragments laid out one after another. -/
theorem getD_flatten_fragments {x : Nat} (hx : x < c.n * bs) :
    ((List.range c.n).map (fragmentOf c bs D)).flatten.getD x 0 = fragmentByte c bs D (x / bs) (x % bs) := by
  obtain ⟨hi, hp⟩ := div_mod_lt hx
  rw [List.getD_eq_getElem?_getD, getElem?_flatten_matrix (isMatrix_fragments hD) hx, Option.getD_some,
    ← getD_fragmentOf hD hc hi hp]
  simp [elemAt, List.getD_eq_getElem?_getD, hi]

end

/-! ### ENCODE and ENCSINGLE -/

section
variable {s : State} {rout rin rlen ridx : Reg} {c : Codec} (hc : s.codec = some c)
include hc

theorem encodeMem_badLength (h : s.num rlen % c.k ≠ 0) :
    encodeMem rout rin rlen s = .error (.raised .inputLengthMismatch) := by
  rw [encodeMem, needCodec_bind_some hc]
  exact demand_bind_raised (by simpa using h)

theorem encsingleMem_badIndex (h : c.n ≤ s.num ridx) :
    encsingleMem rout rin rlen ridx s = .error (.raised .invalidShareId) := by
  rw [encsingleMem, needCodec_bind_some hc]
  exact demand_bind_raised (by simpa using h)

theorem encsingleMem_badLength (hx : s.num ridx < c.n) (h : s.num rlen % c.k ≠ 0) :
    encsingleMem rout rin rlen ridx s = .error (.raised .inputLengthMismatch) := by
  rw [encsingleMem, needCodec_bind_some hc, decide_eq_true hx, demand_true, ok_bind]
  exact demand_bind_raised (by simpa using h)

variable (hl : s.num rlen % c.k = 0)
include hl

theorem encodeMem_outside
    (h : ¬ (Inside s (s.num rin) (s.num rlen) ∧ Inside s (s.num rout) (c.n * (s.num rlen / c.k)))) :
    encodeMem rout rin rlen s = .error (.raised .busError) := by
  simp only [encodeMem, needCodec_bind_some hc, hl, beq_self_eq_true, demand_true, ok_bind]
  exact demandInside_pair_bus h

theorem encsingleMem_outside (hx : s.num ridx < c.n)
    (h : ¬ (Inside s (s.num rin) (s.num rlen) ∧ Inside s (s.num rout) (s.num rlen / c.k))) :
    encsingleMem rout rin rlen ridx s = .error (.raised .busError) := by
  simp only [encsingleMem, needCodec_bind_some hc, hx, decide_true, hl, beq_self_eq_true, demand_true, ok_bind]
  exact demandInside_pair_bus h

variable {D : List Byte} (hD : D.length = s.num rlen) (hin : Inside s (s.num rin) (s.num rlen))
  (hold : Holds s (s.num rin) D)
include hD hin hold

theorem encodeMem_written (hout : Inside s (s.num rout) (c.n * (s.num rlen / c.k)))
    (hap : Apart (s.num rout) (c.n * (s.num rlen / c.k)) (s.num rin) (s.num rlen)) :
    encodeMem rout rin rlen s = .ok (s.mem.writeBytes (s.num rout)
      ((List.range c.n).map (fragmentOf c (s.num rlen / c.k) D)).flatten) := by
  simp only [encodeMem, needCodec_bind_some hc, hl, beq_self_eq_true, demand_true, demandInside_ok hin,
    demandInside_ok hout, demandNoClash_ok ((noClash_single _ _ _ _).mpr hap), load_of_holds hD hold, ok_bind]

theorem encsingleMem_written (hx : s.num ridx < c.n) (hout : Inside s (s.num rout) (s.num rlen / c.k))
    (hap : Apart (s.num rout) (s.num rlen / c.k) (s.num rin) (s.num rlen)) :
    encsingleMem rout rin rlen ridx s = .ok (s.mem.writeBytes (s.num rout)
      (fragmentOf c (s.num rlen / c.k) D (s.num ridx))) := by
  simp only [encsingleMem, needCodec_bind_some hc, hx, decide_true, hl, beq_self_eq_true, demand_true,
    demandInside_ok hin, demandInside_ok hout, demandNoClash_ok ((noClash_single _ _ _ _).mpr hap),
    load_of_holds hD hold, ok_bind]

end

/-- Settles O47: the length check, the region checks, and the fragments byte by byte. -/
theorem encodeWritesAllFragments : Obligations.EncodeWritesAllFragments := by
  intro rout rin rlen s c hc hlegal
  refine ⟨hasWord_of_wellFormed rfl (by decide) rfl, fun h => failsClean_of_mem rfl (encodeMem_badLength hc h),
    fun hl h => failsClean_of_mem rfl (encodeMem_outside hc hl h), ?_⟩
  intro D hl hD hin hout hap hold
  have hblocks : D.length = c.k * (s.num rlen / c.k) := hD.trans (Nat.mul_div_cancel' (Nat.dvd_of_mod_eq_zero hl)).symm
  exact memDone_of_ok rfl (encodeMem_written hc hl hD hin hold hout hap)
    (read_writeBytes_storedBy _ (length_flatten_matrix (isMatrix_fragments hblocks))
      fun x hx => getD_flatten_fragments hblocks hlegal hx)

/-- Settles O48: the checks in their order, and the bytes of the one fragment. -/
theorem encsingleWritesOneFragment : Obligations.EncsingleWritesOneFragment := by
  intro rout rin rlen ridx s c hc hlegal
  refine ⟨hasWord_of_wellFormed rfl (by decide) rfl, fun h => failsClean_of_mem rfl (encsingleMem_badIndex hc h),
    fun hx h => failsClean_of_mem rfl (encsingleMem_badLength hc hx h),
    fun hx hl h => failsClean_of_mem rfl (encsingleMem_outside hc hl hx h), ?_⟩
  intro D hx hl hD hin hout hap hold
  have hblocks : D.length = c.k * (s.num rlen / c.k) := hD.trans (Nat.mul_div_cancel' (Nat.dvd_of_mod_eq_zero hl)).symm
  exact memDone_of_ok rfl (encsingleMem_written hc hl hD hin hold hx hout hap)
    (read_writeBytes_storedBy _ (length_fragmentOf hblocks _) fun p hp => getD_fragmentOf hblocks hlegal hx hp)

end Sys2Proof.Machine
end

section
/-! The front end of the share-list commands (45_encode_rebuild.md R143): the outcome of each of its checks F4 to F9. -/

namespace Sys2Proof.Machine

section
variable {s : State} {c : Codec} {a : ListOperands} {outs : Codec → List Region}
  {work : Listed → Except Halt (Memory × Option ErrorCode)}

section
variable (hc : s.codec = some c) (hk : c.k ≤ a.cnt) (hp : positionLegal a.bs a.pos = true)
include hc hk hp

/-- The front end ends a list or an output outside BUF in BusError, before the sort (R143, F4, F5). -/
theorem withList_outside (h : ¬ (Inside s a.sl (8 * a.cnt) ∧ ∀ r ∈ outs c, Inside s r.start r.len)) :
    withList s a outs work = .error (.raised .busError) := by
  have hsort : sortList s a outs = .error (.raised .busError) := by
    simp only [sortList, needCodec_bind_some hc, hk, hp, decide_true, demand_true, ok_bind, listRegion]
    by_cases hi : Inside s a.sl (8 * a.cnt)
    · have houts : ¬ (outs c).all (·.inside s.memSize) = true := fun hall =>
        h ⟨hi, fun r hr => (inside_iff _ _).mp (List.all_eq_true.mp hall r hr)⟩
      rw [demandInside_ok hi, ok_bind]
      exact demand_bind_raised houts
    · exact demandInside_bind_bus hi
  rw [withList, hsort, error_bind]

/-- The front end refuses a list with two equal numbers, before the sort (R143, F6). -/
theorem withList_duplicates {es : List Share} (hcount : es.length = a.cnt) (hfits : ∀ e ∈ es, e.Fits)
    (hold : Holds s a.sl (listBytes es)) (hi : Inside s a.sl (8 * a.cnt))
    (ho : ∀ r ∈ outs c, Inside s r.start r.len) (h : ¬ (es.map (·.num)).Nodup) :
    withList s a outs work = .error (.refuse .duplicateNumbers) := by
  have hload : s.mem.load (listRegion a.sl a.cnt) = .ok (listBytes es) :=
    load_of_holds (by rw [length_listBytes hfits, hcount]) hold
  have hregion : s.demandInside (listRegion a.sl a.cnt) = .ok () := demandInside_ok hi
  have hparse : parseShares a.cnt (listBytes es) = es := hcount ▸ parseShares_listBytes hfits
  have hdup : distinctNumbers es = false := Bool.eq_false_iff.mpr (mt (distinctNumbers_iff es).mp h)
  have hsort : sortList s a outs = .error (.refuse .duplicateNumbers) := by
    simp only [sortList, needCodec_bind_some hc, hk, hp, decide_true, demand_true, hregion,
      (demandAllInside_eq_ok s _ ()).mpr ho, hload, hparse, hdup, ok_bind, Bool.false_eq_true, if_false]
  rw [withList, hsort, error_bind]

end

/-- The front end ends a good list with good numbers but data outside BUF in BusError, the list sorted (R143, F9). -/
theorem withList_dataOutside {es sorted : List Share} (hg : GoodList s c a.sl a.cnt es sorted (outs c))
    (hp : positionLegal a.bs a.pos = true) (hn : GoodNumbers c sorted)
    (h : ¬ ∀ r ∈ dataRegions a.bs sorted, Inside s r.start r.len) :
    withList s a outs work = .ok (s.mem.writeBytes a.sl (listBytes sorted), some .busError) := by
  have hnum : (sorted.any fun e => decide (c.n ≤ e.num)) = false := by
    simpa only [List.any_eq_false, decide_eq_true_eq, Nat.not_le] using hn
  have hdata : (dataRegions a.bs sorted).all (·.inside s.memSize) = false := by
    rw [Bool.eq_false_iff]
    simpa only [ne_eq, List.all_eq_true, inside_iff] using h
  have herr : listError s a ⟨c, sorted, s.mem.writeBytes a.sl (listBytes sorted)⟩ = some .busError := by
    simp only [listError, hnum, hdata, Bool.false_eq_true, if_false]
  simp only [withList, sortList_good hg hp, ok_bind, herr]

end

/-- Settles O49: the six commands begin with the one front end (`isListCommand_form`), whose checks come in order. -/
theorem shareListChecks : Obligations.ShareListChecks := by
  intro i s c sl cnt outs hlist
  obtain ⟨bs, pos, outs', work, he, rfl, hp, hd, -⟩ := isListCommand_form hlist
  refine ⟨fun hc hk h => failsClean_of_part he (withList_outside hc hk hp h), ?_, ?_⟩
  · intro es hc hk hcount hfits hold hi ho h
    rw [he]
    exact finishPart_refused (withList_duplicates hc hk hp hcount hfits hold hi ho h)
  · intro es sorted hg
    refine ⟨fun hn => raised_of_part he (read_sortedList s sl sorted) (withList_badNumbers work hg hp hn), ?_⟩
    intro hn h
    rw [← hd] at h
    exact raised_of_part he (read_sortedList s sl sorted) (withList_dataOutside hg hp hn h)

end Sys2Proof.Machine
end

section
/-! Rebuilding (45_encode_rebuild.md R144 to R146): REBUILD on a good list, and the blocks that are rebuilt from
fragments of one encoding. -/

namespace Sys2Proof.Machine

/-! ### REBUILD -/

/-- The one error of a rebuild is that of its elimination (R145). -/
theorem rebuildBlocks_error {c : Codec} {bs : Nat} {S : List Fragment} {e : ErrorCode}
    (h : rebuildBlocks c bs S = .error e) : e = .matrixInversionFailed := by
  unfold rebuildBlocks at h
  split at h <;> cases h
  rfl

section
variable {s : State} {c : Codec} {sl cnt bs : Nat} {es sorted : List Share} {outs : List Region} {S : List Fragment}

theorem GoodList.length_sorted (h : GoodList s c sl cnt es sorted outs) : sorted.length = cnt :=
  h.sameEntries.length_eq.trans h.count

theorem GoodList.length_listBytes_sorted (h : GoodList s c sl cnt es sorted outs) :
    (listBytes sorted).length = 8 * cnt := by
  rw [length_listBytes fun e he => h.fits e (h.sameEntries.mem_iff.mp he), h.length_sorted]

theorem GoodData.length_fragments (h : GoodData s sl cnt bs sorted outs S) : S.length = sorted.length := by
  simpa using congrArg List.length h.shares

theorem GoodData.dataRegions_inside (h : GoodData s sl cnt bs sorted outs S) :
    ∀ r ∈ dataRegions (some bs) sorted, Inside s r.start r.len := by
  rw [h.dataRegions_eq]
  exact List.forall_mem_map.mpr h.inside

theorem GoodData.dataRegions_apart (h : GoodData s sl cnt bs sorted outs S) :
    (dataRegions (some bs) sorted ++ outs ++ [listRegion sl cnt]).Pairwise fun a b =>
      Apart a.start a.len b.start b.len := h.dataRegions_eq ▸ h.apart

end

section
variable {s : State} {c : Codec} {rout rsl rcnt rbs : Reg} {es sorted : List Share} {S : List Fragment}
  (hg : GoodList s c (s.num rsl) (s.num rcnt) es sorted [⟨s.num rout, c.k * s.num rbs⟩]) (hn : GoodNumbers c sorted)
  (hd : GoodData s (s.num rsl) (s.num rcnt) (s.num rbs) sorted [⟨s.num rout, c.k * s.num rbs⟩] S)
include hg hn hd

theorem rebuildResult_blocks {blocks : Rows} (hb : rebuildBlocks c (s.num rbs) S = .ok blocks) :
    rebuildResult rout rsl rcnt rbs s =
      .ok ((s.mem.writeBytes (s.num rsl) (listBytes sorted)).writeBytes (s.num rout) blocks.flatten, none) := by
  rw [rebuildResult, withList_work _ hg rfl hn hd.dataRegions_inside hd.dataRegions_apart,
    loadFragments_good hd hg.length_listBytes_sorted, ok_bind, hb]

theorem rebuildResult_failed {e : ErrorCode} (hb : rebuildBlocks c (s.num rbs) S = .error e) :
    rebuildResult rout rsl rcnt rbs s = .ok (s.mem.writeBytes (s.num rsl) (listBytes sorted), some e) := by
  rw [rebuildResult, withList_work _ hg rfl hn hd.dataRegions_inside hd.dataRegions_apart,
    loadFragments_good hd hg.length_listBytes_sorted, ok_bind, hb]

end

/-- Settles O50: the front end passes and reads the fragments, and REBUILD ends as their rebuild does. -/
theorem rebuildStoresTheBlocks : Obligations.RebuildStoresTheBlocks := by
  intro rout rsl rcnt rbs s c es sorted S hg hn hd
  refine ⟨hasWord_of_wellFormed rfl (by decide) rfl, fun blocks hb => ⟨?_, ?_⟩, fun e he => ⟨?_, ?_⟩⟩
  · have hk : c.k ≤ S.length := by
      rw [hd.length_fragments, hg.length_sorted]
      exact hg.enough
    exact rebuildBlocks_matrix hk hd.length hb
  · exact memDone_of_part rfl (read_writeBytes_twice s _ _ _ _) (rebuildResult_blocks hg hn hd hb)
  · exact rebuildBlocks_error he
  · exact raised_of_part rfl (read_sortedList s _ sorted) (rebuildResult_failed hg hn hd he)

/-! ### The selection -/

/-- Ascending numbers leave room: the last of those above `i` is above it by at least their count. -/
theorem length_le_getLast_num {S : List Fragment} {i : Nat} (hne : S ≠ [])
    (hasc : S.Pairwise fun a b => a.num < b.num) (hmin : ∀ f ∈ S, i < f.num) : i + S.length ≤ (S.getLast hne).num := by
  induction S generalizing i with
  | nil => exact absurd rfl hne
  | cons f S ih =>
    obtain ⟨hf, hS⟩ := List.pairwise_cons.mp hasc
    have hif := hmin f List.mem_cons_self
    cases S with
    | nil => exact hif
    | cons g S =>
      have hlast := ih (List.cons_ne_nil g S) hS hf
      rw [List.getLast_cons (List.cons_ne_nil g S), List.length_cons]
      omega

/-- The fragment taken for slot `i + j` is the slot's own, or its number is `i + todo` or above: where the slot's own is
missing, the fragments left all have numbers above the slot's, and the last of them is taken (R144). -/
theorem selectFrom_num {todo i j : Nat} {S : List Fragment} (d : Fragment) (hlen : todo ≤ S.length)
    (hasc : S.Pairwise fun a b => a.num < b.num) (hmin : ∀ f ∈ S, i ≤ f.num) (hj : j < todo) :
    ((selectFrom todo i S).getD j d).num = i + j ∨ i + todo ≤ ((selectFrom todo i S).getD j d).num := by
  induction todo generalizing i j S with
  | zero => exact absurd hj (Nat.not_lt_zero _)
  | succ todo ih =>
    cases S with
    | nil => exact absurd hlen (Nat.not_succ_le_zero _)
    | cons f S =>
      obtain ⟨hf, hS⟩ := List.pairwise_cons.mp hasc
      unfold selectFrom
      split
      next hfi =>
        cases j with
        | zero => exact .inl hfi
        | succ j =>
          have hrest := ih (i := i + 1) (Nat.le_of_succ_le_succ hlen) hS (fun g hg => hfi ▸ hf g hg)
            (Nat.lt_of_succ_lt_succ hj)
          rw [List.getD_cons_succ]
          omega
      next hfi =>
        have hmin' : ∀ g ∈ f :: S, i < g.num := List.forall_mem_cons.mpr
          ⟨Nat.lt_of_le_of_ne (hmin f List.mem_cons_self) (Ne.symm hfi), fun g hg =>
            (hmin f List.mem_cons_self).trans_lt (hf g hg)⟩
        cases j with
        | zero =>
          have hlast := length_le_getLast_num (List.cons_ne_nil f S) hasc hmin'
          rw [List.getD_cons_zero, List.getLastD_eq_getLast?, List.getLast?_eq_some_getLast (List.cons_ne_nil f S),
            Option.getD_some]
          omega
        | succ j =>
          have hrest := ih (i := i + 1) (by simpa using hlen) (hasc.sublist (List.dropLast_sublist _))
            (fun g hg => hmin' g (List.mem_of_mem_dropLast hg)) (Nat.lt_of_succ_lt_succ hj)
          rw [List.getD_cons_succ]
          omega

section
variable {c : Codec} {S : List Fragment} (hS : SortedFragments c S)
include hS

theorem SortedFragments.length_selectFragments : (selectFragments c.k S).length = c.k := by
  rw [selectFragments, length_selectFrom, Nat.min_eq_left hS.enough]

theorem SortedFragments.selectedAt_mem {i : Nat} (hi : i < c.k) : selectedAt c S i ∈ S := by
  have hlen : i < (selectFragments c.k S).length := hS.length_selectFragments.symm ▸ hi
  rw [selectedAt, List.getD_eq_getElem _ _ hlen]
  exact mem_selectFrom _ _ _ _ (List.getElem_mem hlen)

/-- A data fragment stands in its own slot (R144). -/
theorem SortedFragments.num_of_received {i : Nat} (hi : i < c.k) (h : received c S i = true) :
    (selectedAt c S i).num = i := by
  have hnum := selectFrom_num ⟨0, 0, []⟩ hS.enough hS.ascending (fun f _ => Nat.zero_le f.num) hi
  rw [Nat.zero_add, Nat.zero_add] at hnum
  exact hnum.resolve_right (Nat.not_le.mpr (of_decide_eq_true h))

end

/-! ### Sums of products -/

/-- A row of the identity picks one term of a sum. -/
theorem sumTo_unit {n i : Nat} (hi : i < n) (g : Nat → Byte) :
    (sumTo n fun j => gfMul (if i = j then 1 else 0) (g j)) = g i := by
  have hterm : ∀ j, j < n → gfMul (if i = j then 1 else 0) (g j) = if j = i then g i else 0#8 := by
    intro j _
    split
    next h => rw [h, one_gfMul, if_pos rfl]
    next h => rw [if_neg (Ne.symm h)]; exact gfMul_zero_left _
  rw [sumTo_congr hterm, sumTo_single, if_pos hi]

/-- A row times a matrix times a column can be multiplied in either order. -/
theorem sumTo_gfMul_sumTo (n m : Nat) (u : Nat → Byte) (A : Nat → Nat → Byte) (v : Nat → Byte) :
    (sumTo n fun t => gfMul (u t) (sumTo m fun j => gfMul (A t j) (v j))) =
      sumTo m fun j => gfMul (sumTo n fun t => gfMul (u t) (A t j)) (v j) := by
  apply toField_injective
  simp only [toField_sumTo, toField_gfMul, Finset.mul_sum, Finset.sum_mul, mul_assoc]
  exact Finset.sum_comm

/-! ### The rebuilt blocks -/

section
variable {c : Codec} (hc : c.Legal)
include hc

/-- R127, R141: every fragment, data or parity, is a row of ENC applied to the blocks. -/
theorem fragmentByte_eq_sumTo {i : Nat} (hi : i < c.n) (bs : Nat) (D : List Byte) (p : Nat) :
    fragmentByte c bs D i p = sumTo c.k fun j => gfMul (encElem c.k i j) (D.getD (j * bs + p) 0) := by
  rw [fragmentByte]
  split
  next h =>
    rw [sumTo_congr fun j hj => by rw [encElem_of_lt hc.kMax hj h]]
    exact (sumTo_unit h fun j => D.getD (j * bs + p) 0).symm
  next =>
    refine sumTo_congr fun j hj => ?_
    rw [hc.enc, encMatrix, elemAt_of_range c.n c.k _ hi hj]

variable {S : List Fragment} (hS : SortedFragments c S)
include hS

/-- The decoding matrix of the selected fragments consists of rows of ENC (R144). -/
theorem decodingMatrix_selectFragments : decodingMatrix c (selectFragments c.k S) =
    encRows c.k ((selectFragments c.k S).map (·.num)) :=
  decodingMatrix_eq_encRows hc fun f hf => hS.numbers f (mem_selectFrom _ _ _ f hf)

theorem isMatrix_decodingMatrix : IsMatrix c.k c.k (decodingMatrix c (selectFragments c.k S)) := by
  rw [decodingMatrix_selectFragments hc hS]
  simpa only [List.length_map, hS.length_selectFragments] using
    isMatrix_encRows c.k ((selectFragments c.k S).map (·.num))

/-- Element `[t][j]` of the decoding matrix is that of ENC in the row of the fragment in slot `t` (R144). -/
theorem elemAt_decodingMatrix {t j : Nat} (ht : t < c.k) (hj : j < c.k) :
    elemAt (decodingMatrix c (selectFragments c.k S)) t j = encElem c.k (selectedAt c S t).num j := by
  have hlen : t < (selectFragments c.k S).length := hS.length_selectFragments.symm ▸ ht
  rw [decodingMatrix_selectFragments hc hS, selectedAt]
  simp [encRows, elemAt, List.getD_eq_getElem?_getD, hlen, hj]

/-- The companion of the eliminated decoding matrix is its inverse (R117, R145). -/
theorem sumTo_companion_encElem {rows : List PairRow} (he : eliminate .strict
      (pairRows (decodingMatrix c (selectFragments c.k S)) (identity c.k)) = .ok rows) {i j : Nat} (hi : i < c.k)
    (hj : j < c.k) : (sumTo c.k fun t => gfMul ((rowAt rows i).2.getD t 0) (encElem c.k (selectedAt c S t).num j)) =
      if i = j then 1 else 0 := by
  obtain ⟨hproduct, hidentity⟩ :=
    companionRecordsRowOperations c.k c.k _ .strict rows (isMatrix_decodingMatrix hc hS) (Nat.le_refl _) he
  rw [← hidentity rfl i j hi hj, ← hproduct i j hi hj, matProduct_map_snd]
  exact sumTo_congr fun t ht => by rw [elemAt_decodingMatrix hc hS ht hj]

variable {bs : Nat} {D : List Byte} (hD : AreEncodedFrom c bs D S)
include hD

omit hc hS in
theorem AreEncodedFrom.getD_data {f : Fragment} (hf : f ∈ S) {p : Nat} (hp : p < bs) :
    f.data.getD p 0 = fragmentByte c bs D f.num p := by
  simp [hD f hf, List.getD_eq_getElem?_getD, hp]

omit hc hS in
theorem AreEncodedFrom.length_data : ∀ f ∈ S, f.data.length = bs := fun f hf => by
  rw [hD f hf, List.length_map, List.length_range]

/-- R145: the inverse of the decoding matrix recomputes each byte of a block from those of the selected fragments. -/
theorem getD_recomputed {rows : List PairRow} (he : eliminate .strict
      (pairRows (decodingMatrix c (selectFragments c.k S)) (identity c.k)) = .ok rows) {i p : Nat} (hi : i < c.k)
    (hp : p < bs) : (combine bs ((selectFragments c.k S).map (·.data)) (rowAt rows i).2).getD p 0 =
      D.getD (i * bs + p) 0 := by
  have hlen := hS.length_selectFragments
  have hdata : ∀ d ∈ (selectFragments c.k S).map (·.data), d.length = bs :=
    List.forall_mem_map.mpr fun f hf => hD.length_data f (mem_selectFrom _ _ _ f hf)
  have hrow : (rowAt rows i).2.length = c.k := by
    have hM := isMatrix_decodingMatrix hc hS
    obtain ⟨hshape, hrows⟩ := (eliminate_shape (pairShape_pairRows hM (isMatrix_identity c.k))).1 rows he
    rw [length_pairRows, hM.1, (isMatrix_identity c.k).1, Nat.min_self] at hrows
    exact (hshape _ (rowAt_mem (hrows.symm ▸ hi))).2
  have hbyte : ∀ t, t < c.k → (((selectFragments c.k S).map (·.data)).getD t []).getD p 0 =
      sumTo c.k fun j => gfMul (encElem c.k (selectedAt c S t).num j) (D.getD (j * bs + p) 0) := fun t ht => by
    have hmem := hS.selectedAt_mem ht
    rw [← fragmentByte_eq_sumTo hc (hS.numbers _ hmem), ← hD.getD_data hmem hp, selectedAt]
    simp [List.getD_eq_getElem?_getD, hlen, ht]
  calc (combine bs ((selectFragments c.k S).map (·.data)) (rowAt rows i).2).getD p 0
      = sumTo c.k fun t => gfMul ((rowAt rows i).2.getD t 0)
          (sumTo c.k fun j => gfMul (encElem c.k (selectedAt c S t).num j) (D.getD (j * bs + p) 0)) := by
        rw [getD_combine bs _ _ hdata (by rw [List.length_map, hlen, hrow]) p hp, List.length_map, hlen]
        exact sumTo_congr fun t ht => by rw [hbyte t ht]
    _ = sumTo c.k fun j => gfMul (sumTo c.k fun t =>
          gfMul ((rowAt rows i).2.getD t 0) (encElem c.k (selectedAt c S t).num j)) (D.getD (j * bs + p) 0) :=
        sumTo_gfMul_sumTo _ _ _ _ _
    _ = sumTo c.k fun j => gfMul (if i = j then 1 else 0) (D.getD (j * bs + p) 0) :=
        sumTo_congr fun j hj => by rw [sumTo_companion_encElem hc hS he hi hj]
    _ = D.getD (i * bs + p) 0 := sumTo_unit hi fun j => D.getD (j * bs + p) 0

/-- Block `i` is the data of its own fragment, or recomputed (R145). -/
theorem elemAt_rebuildBlocks {blocks : Rows} (hb : rebuildBlocks c bs S = .ok blocks) {i p : Nat} (hi : i < c.k)
    (hp : p < bs) : elemAt blocks i p = D.getD (i * bs + p) 0 := by
  unfold rebuildBlocks at hb
  split at hb <;> cases hb
  next rows he =>
    have hblock : ∀ g : Nat → List Byte, elemAt ((List.range c.k).map g) i p = (g i).getD p 0 := fun g => by
      simp [elemAt, List.getD_eq_getElem?_getD, hi]
    rw [hblock]
    split
    next hrec =>
      have hnum := hS.num_of_received hi hrec
      rw [hD.getD_data (hS.selectedAt_mem hi) hp, hnum, fragmentByte, if_pos hi]
    next => exact getD_recomputed hc hS hD he hi hp

end

/-- Settles O51: the rebuilt blocks laid out one after another have the bytes of the data. -/
theorem rebuildRecoversTheData : Obligations.RebuildRecoversTheData := by
  intro c bs D S blocks hc hlen hS hD hb
  have hM : IsMatrix c.k bs blocks := rebuildBlocks_matrix hS.enough hD.length_data hb
  refine List.ext_getElem? fun x => ?_
  by_cases hx : x < c.k * bs
  · obtain ⟨hi, hp⟩ := div_mod_lt hx
    have hxD : x < D.length := hlen.symm ▸ hx
    rw [getElem?_flatten_matrix hM hx, elemAt_rebuildBlocks hc hS hD hb hi hp, Nat.mul_comm, Nat.div_add_mod,
      List.getD_eq_getElem _ _ hxD, List.getElem?_eq_getElem hxD]
  · have hx : c.k * bs ≤ x := Nat.not_lt.mp hx
    rw [List.getElem?_eq_none (length_flatten_matrix hM ▸ hx), List.getElem?_eq_none (hlen ▸ hx)]

end Sys2Proof.Machine
end

section
/-! The syndrome matrix (46_berlekamp_welch.md R150): its rows annihilate the values of every polynomial of degree below
`k` at the points of the fragments, and nothing else. -/

namespace Sys2Proof.Machine

open Polynomial

/-! ### Codewords -/

theorem toField_ite (c : Prop) [Decidable c] : toField (if c then 1 else 0) = if c then 1 else 0 := by
  split
  next => exact toField_one
  next => exact toField_zero

/-- The point of the fragment at position `t` of a list with the given numbers (44_codec_construct.md R126). -/
noncomputable def pointAt (nums : List Nat) (t : Nat) : Closure2 := point (nums.getD t 0)

/-- The values are those of one polynomial of degree below `k` at the points of the fragments with the given numbers:
what one encoding gives these fragments (44_codec_construct.md R127). -/
def IsCodeword (k : Nat) (nums : List Nat) (u : Nat → Closure2) : Prop :=
  ∃ q : Closure2[X], q.degree < k ∧ ∀ t < nums.length, u t = q.eval (pointAt nums t)

namespace IsCodeword
variable {k : Nat} {nums : List Nat} {u v : Nat → Closure2}

theorem add (hu : IsCodeword k nums u) (hv : IsCodeword k nums v) : IsCodeword k nums fun t => u t + v t := by
  obtain ⟨q, hq, hu⟩ := hu
  obtain ⟨q', hq', hv⟩ := hv
  exact ⟨q + q', (degree_add_le q q').trans_lt (max_lt hq hq'), fun t ht => by simp only [hu t ht, hv t ht, eval_add]⟩

theorem mul (a : Closure2) (hu : IsCodeword k nums u) : IsCodeword k nums fun t => a * u t := by
  obtain ⟨q, hq, hu⟩ := hu
  exact ⟨a • q, (degree_smul_le a q).trans_lt hq, fun t ht => by simp only [hu t ht, eval_smul, smul_eq_mul]⟩

theorem sum {n : Nat} {f : Nat → Nat → Closure2} (h : ∀ i < n, IsCodeword k nums (f i)) :
    IsCodeword k nums fun t => ∑ i ∈ Finset.range n, f i t := by
  induction n with
  | zero => exact ⟨0, by simp, fun t _ => by simp⟩
  | succ n ih =>
    simp only [Finset.sum_range_succ]
    exact (ih fun i hi => h i (Nat.lt_succ_of_lt hi)).add (h n (Nat.lt_succ_self n))

theorem congr (h : ∀ t < nums.length, u t = v t) (hu : IsCodeword k nums u) : IsCodeword k nums v := by
  obtain ⟨q, hq, hu⟩ := hu
  exact ⟨q, hq, fun t ht => (h t ht).symm.trans (hu t ht)⟩

end IsCodeword

/-- The points of distinct numbers are distinct (44_codec_construct.md R126). -/
theorem pointAt_injOn {nums : List Nat} (hnodup : nums.Nodup) (hnums : ∀ t ∈ nums, t < 256) {T : Finset Nat}
    (hT : ∀ t ∈ T, t < nums.length) : Set.InjOn (pointAt nums) T := fun i hi j hj h => by
  have hmem : ∀ t ∈ T, nums.getD t 0 ∈ nums.toFinset := fun t ht => by
    rw [List.getD_eq_getElem _ _ (hT t ht)]
    exact List.mem_toFinset.mpr (List.getElem_mem _)
  have heq := point_injOn (fun t ht => hnums t (List.mem_toFinset.mp ht)) (hmem i hi) (hmem j hj) h
  rw [List.getD_eq_getElem _ _ (hT i hi), List.getD_eq_getElem _ _ (hT j hj)] at heq
  exact hnodup.getElem_inj_iff.mp heq

/-- A codeword with `k` zeros is zero: its polynomial has more zeros than its degree allows. -/
theorem IsCodeword.eq_zero {k : Nat} {nums : List Nat} {u : Nat → Closure2} (hu : IsCodeword k nums u)
    (hnodup : nums.Nodup) (hnums : ∀ t ∈ nums, t < 256) {T : Finset Nat} (hT : ∀ t ∈ T, t < nums.length)
    (hk : k ≤ T.card) (hzero : ∀ t ∈ T, u t = 0) {t : Nat} (ht : t < nums.length) : u t = 0 := by
  obtain ⟨q, hq, hu⟩ := hu
  have hq0 : q = 0 := eq_zero_of_degree_lt_of_eval_index_eq_zero _ (pointAt_injOn hnodup hnums hT)
    (hq.trans_le (Nat.cast_le.mpr hk)) fun t ht => (hu t (hT t ht)).symm.trans (hzero t ht)
  rw [hu t ht, hq0, eval_zero]

/-! ### The eliminated matrix -/

/-- A matrix `[I | P]` of `k` codewords: what the elimination makes of the columns of VAND (R150). -/
structure Systematic (k : Nat) (nums : List Nat) (G : Rows) : Prop where
  rows : G.length = k
  unit : ∀ i < k, ∀ j < k, elemAt G i j = if i = j then 1 else 0
  codeword : ∀ i < k, IsCodeword k nums fun t => toField (elemAt G i t)

/-- Row operations take codewords to codewords. -/
theorem codewordRows_closed (k : Nat) (nums : List Nat) :
    RowClosed fun rows => ∀ r ∈ rows, r.1.length = nums.length ∧ IsCodeword k nums fun t => toField (r.1.getD t 0) :=
  rowClosed_forall
    (fun r f h => ⟨(length_polyscale _ _).trans h.1, (h.2.mul (toField f)).congr fun t _ => by
      rw [scalePair, getD_polyscale, toField_gfMul, mul_comm]⟩)
    (fun r p t hr hp => ⟨by rw [addmulPair, length_addmul, hr.1, hp.1, Nat.min_self],
      (hr.2.add (hp.2.mul (toField t))).congr fun j _ => by
        rw [addmulPair, getD_addmul_of_length_eq (hr.1.trans hp.1.symm), toField_xor, toField_gfMul]⟩)

/-- Row `i` of the columns of VAND holds the values of `x^i` (R128). -/
theorem codeword_vandColumns (k : Nat) (nums : List Nat) : ∀ r ∈ soleRows (vandColumns k nums),
    r.1.length = nums.length ∧ IsCodeword k nums fun t => toField (r.1.getD t 0) := by
  intro r hr
  obtain ⟨row, hrow, rfl⟩ := List.mem_map.mp hr
  refine ⟨(isMatrix_vandColumns k nums).2 row hrow, ?_⟩
  obtain ⟨i, hi, rfl⟩ := List.mem_map.mp hrow
  refine ⟨X ^ i, ?_, fun t ht => ?_⟩
  · rw [degree_X_pow]
    exact_mod_cast List.mem_range.mp hi
  · simp [List.getD_eq_getElem?_getD, ht, pointAt, point]

/-- R150: the syndrome matrix is the parity matrix of a systematic matrix of codewords. -/
theorem syndrome_systematic {c : Codec} (hc : c.Legal) {nums : List Nat} (hnums : ∀ t ∈ nums, t < c.n) {H : Rows}
    (h : syndrome c nums = .ok H) :
    ∃ G, Systematic c.k nums G ∧ H = parityOf (nums.length - c.k) (G.map (List.drop c.k)) := by
  rw [syndrome, map_vand_eq_vandColumns hc hnums] at h
  split at h <;> cases h
  next rows he =>
    have hM := isMatrix_vandColumns c.k nums
    obtain ⟨hrows, hlen⟩ :=
      (eliminate_closed (codewordRows_closed c.k nums) _ _ (codeword_vandColumns c.k nums)).1 rows he
    rw [length_soleRows, hM.1] at hlen
    refine ⟨rows.map Prod.fst, ⟨by rw [List.length_map, hlen], fun i hi j hj => ?_, fun i hi => ?_⟩, ?_⟩
    · rw [elemAt_map_fst]
      refine eliminate_strict_identity (pairShape_soleRows hM) he ?_ ?_ <;> rwa [length_soleRows, hM.1]
    · simp only [elemAt_map_fst]
      exact (hrows _ (rowAt_mem (hlen.symm ▸ hi))).2
    · rw [List.map_map]
      rfl

/-! ### What the syndrome matrix annihilates -/

namespace Systematic
variable {k : Nat} {nums : List Nat} {G : Rows} (hG : Systematic k nums G)
include hG

/-- A combination of the rows of `[I | P]` begins with its coefficients. -/
theorem sum_unit {j : Nat} (hj : j < k) (v : Nat → Closure2) :
    ∑ i ∈ Finset.range k, v i * toField (elemAt G i j) = v j := by
  have hterm : ∀ i ∈ Finset.range k, v i * toField (elemAt G i j) = if i = j then v i else 0 := fun i hi => by
    rw [hG.unit i (Finset.mem_range.mp hi) j hj, toField_ite, mul_ite, mul_one, mul_zero]
  rw [Finset.sum_congr rfl hterm, Finset.sum_ite_eq', if_pos (Finset.mem_range.mpr hj)]

/-- The codewords are the combinations of the rows of `[I | P]`: a codeword and the combination with its first elements
as coefficients agree at `k` points. -/
theorem isCodeword_iff (hk : k ≤ nums.length) (hnodup : nums.Nodup) (hnums : ∀ t ∈ nums, t < 256) (v : Nat → Closure2) :
    IsCodeword k nums v ↔
      ∀ t < nums.length, v t = ∑ i ∈ Finset.range k, v i * toField (elemAt G i t) := by
  have hcomb : IsCodeword k nums fun t => ∑ i ∈ Finset.range k, v i * toField (elemAt G i t) :=
    .sum fun i hi => (hG.codeword i hi).mul (v i)
  refine ⟨fun hv t ht => ?_, fun hv => hcomb.congr fun t ht => (hv t ht).symm⟩
  have hdiff := (hv.add hcomb).eq_zero hnodup hnums (T := Finset.range k)
    (fun t ht => (Finset.mem_range.mp ht).trans_le hk) (Finset.card_range k).ge
    (fun t ht => by rw [hG.sum_unit (Finset.mem_range.mp ht)]; exact CharTwo.add_self_eq_zero _) ht
  exact CharTwo.add_eq_zero.mp hdiff

/-- Row `w` of `[P transposed | I]` applied to a word: the word's element `k + w` against the combination's. -/
theorem sum_parityRow {m w : Nat} (hw : w < m) (v : Nat → Closure2) :
    ∑ t ∈ Finset.range (k + m),
        toField ((((G.map (List.drop k)).map fun row => row.getD w 0) ++ unitRow m w).getD t 0) * v t =
      (∑ i ∈ Finset.range k, v i * toField (elemAt G i (k + w))) + v (k + w) := by
  have hlen : ((G.map (List.drop k)).map fun row => row.getD w 0).length = k := by
    rw [List.length_map, List.length_map, hG.rows]
  rw [Finset.sum_range_add]
  congr 1
  · refine Finset.sum_congr rfl fun i hi => ?_
    have hi : i < G.length := hG.rows.symm ▸ Finset.mem_range.mp hi
    rw [List.getD_append _ _ _ _ (by simpa using hi), mul_comm]
    simp [elemAt, List.getD_eq_getElem?_getD, hi]
  · have hterm : ∀ t ∈ Finset.range m, toField ((((G.map (List.drop k)).map fun row => row.getD w 0) ++
        unitRow m w).getD (k + t) 0) * v (k + t) = if t = w then v (k + t) else 0 := fun t ht => by
      rw [List.getD_append_right _ _ _ _ (by omega), hlen, Nat.add_sub_cancel_left,
        getD_unitRow m w t (Finset.mem_range.mp ht), toField_ite, ite_mul, one_mul, zero_mul]
    rw [Finset.sum_congr rfl hterm, Finset.sum_ite_eq', if_pos (Finset.mem_range.mpr hw)]

end Systematic

/-- R150, R161: the rows of the syndrome matrix annihilate the codewords, and nothing but codewords. -/
theorem syndrome_annihilates_iff {c : Codec} (hc : c.Legal) {nums : List Nat} (hk : c.k ≤ nums.length)
    (hnodup : nums.Nodup) (hnums : ∀ t ∈ nums, t < c.n) {H : Rows} (h : syndrome c nums = .ok H) (v : Nat → Closure2) :
    (∀ row ∈ H, ∑ t ∈ Finset.range nums.length, toField (row.getD t 0) * v t = 0) ↔ IsCodeword c.k nums v := by
  obtain ⟨G, hG, rfl⟩ := syndrome_systematic hc hnums h
  obtain ⟨m, hm⟩ := Nat.exists_eq_add_of_le hk
  rw [hG.isCodeword_iff hk hnodup (fun t ht => (hnums t ht).trans_le hc.nMax), hm, Nat.add_sub_cancel_left, parityOf,
    List.forall_mem_map]
  simp only [List.mem_range]
  constructor
  · intro hrows t ht
    rcases Nat.lt_or_ge t c.k with htk | htk
    · exact (hG.sum_unit htk v).symm
    · obtain ⟨w, rfl⟩ := Nat.exists_eq_add_of_le htk
      have hrow := hrows w (by omega)
      rw [hG.sum_parityRow (by omega)] at hrow
      exact (CharTwo.add_eq_zero.mp hrow).symm
  · intro hv w hw
    rw [hG.sum_parityRow hw, ← hv (c.k + w) (by omega), CharTwo.add_self_eq_zero]

/-! ### The encoding as a polynomial -/

/-- The polynomial that an encoding evaluates at byte position `p`: the interpolation of the bytes of the blocks (R127,
R141). -/
noncomputable def codePoly (c : Codec) (bs : Nat) (D : List Byte) (p : Nat) : Closure2[X] :=
  Lagrange.interpolate (Finset.range c.k) point fun j => toField (D.getD (j * bs + p) 0)

section
variable {c : Codec} (hc : c.Legal) (bs : Nat) (D : List Byte) (p : Nat)
include hc

theorem degree_codePoly_lt : (codePoly c bs D p).degree < c.k := by
  have hdeg := Lagrange.degree_interpolate_lt (fun j => toField (D.getD (j * bs + p) 0)) (point_injOn_range hc.kMax)
  rwa [Finset.card_range] at hdeg

/-- Byte `p` of fragment `i` is the polynomial's value at the fragment's point. -/
theorem toField_fragmentByte {i : Nat} (hi : i < c.n) :
    toField (fragmentByte c bs D i p) = (codePoly c bs D p).eval (point i) := by
  rw [fragmentByte_eq_sumTo hc hi, toField_sumTo, codePoly, ← sum_encElem hc.kMax]
  simp only [toField_gfMul]

section
variable {nums : List Nat} (hnums : ∀ t ∈ nums, t < c.n)
include hnums

theorem toField_fragmentByte_getD {t : Nat} (ht : t < nums.length) :
    toField (fragmentByte c bs D (nums.getD t 0) p) = (codePoly c bs D p).eval (pointAt nums t) :=
  toField_fragmentByte hc bs D p (hnums _ (List.getD_eq_getElem nums 0 ht ▸ List.getElem_mem ht))

/-- The bytes that an encoding gives fragments at one position are a codeword. -/
theorem isCodeword_fragmentByte : IsCodeword c.k nums fun t => toField (fragmentByte c bs D (nums.getD t 0) p) :=
  ⟨codePoly c bs D p, degree_codePoly_lt hc bs D p, fun _ ht => toField_fragmentByte_getD hc bs D p hnums ht⟩

end

end

/-! ### Detection -/

/-- Byte `p` of the fragment at position `t`. -/
def byteAt (S : List Fragment) (p t : Nat) : Byte := ((S.map (·.data)).getD t []).getD p 0

theorem byteAt_eq {S : List Fragment} {t : Nat} (ht : t < S.length) (p : Nat) :
    byteAt S p t = S[t].data.getD p 0 := by
  simp [byteAt, List.getD_eq_getElem?_getD, ht]

theorem getD_map_num {S : List Fragment} {t : Nat} (ht : t < S.length) : (S.map (·.num)).getD t 0 = S[t].num := by
  simp [List.getD_eq_getElem?_getD, ht]

theorem SortedFragments.num_lt {c : Codec} {S : List Fragment} (hS : SortedFragments c S) :
    ∀ t ∈ S.map (·.num), t < c.n := List.forall_mem_map.mpr hS.numbers

/-- R150, R161: every row of the syndrome matrix annihilates the bytes at one position exactly when they are a
codeword. -/
theorem syndrome_detects_iff {c : Codec} (hc : c.Legal) {S : List Fragment} (hS : SortedFragments c S) {H : Rows}
    (hH : syndrome c (S.map (·.num)) = .ok H) (p : Nat) :
    (∀ row ∈ H, (sumTo S.length fun t => gfMul (row.getD t 0) (byteAt S p t)) = 0) ↔
      IsCodeword c.k (S.map (·.num)) fun t => toField (byteAt S p t) := by
  rw [← syndrome_annihilates_iff hc (by rw [List.length_map]; exact hS.enough) hS.nodup_nums hS.num_lt hH,
    List.length_map]
  refine forall₂_congr fun row _ => ?_
  rw [← toField_injective.eq_iff, toField_sumTo]
  simp only [toField_gfMul]
  exact Eq.congr_right toField_zero

/-- Settles O54: the bytes of uncorrupted fragments are a codeword. -/
theorem syndromeAnnihilatesCodewords : Obligations.SyndromeAnnihilatesCodewords := by
  intro c bs D S H hc hS hD hH row hrow p hp
  refine (syndrome_detects_iff hc hS hH p).mpr ?_ row hrow
  refine (isCodeword_fragmentByte hc bs D p hS.num_lt).congr fun t ht => ?_
  rw [List.length_map] at ht
  rw [byteAt_eq ht, getD_map_num ht, hD.getD_data (List.getElem_mem ht) hp]

end Sys2Proof.Machine
end

section
/-! Eliminations under SKIP (43_matrix.md R117, R118): when the first columns of a matrix are linearly independent,
fewer of them perhaps than it has rows, the elimination makes them columns of the identity, whatever it finds in the
others, and its companion solves the systems that these columns suffice for. -/

namespace Sys2Proof.Machine

section
variable {c a i k : Nat} {rows rows' : List PairRow}

/-! ### The forward pass -/

/-- Under SKIP the forward pass begins as under STRICT, as long as it finds its pivots. -/
theorem forwardPass_skip_of_strict {m : Nat} (h : forwardPass .strict m i rows = .ok rows') (todo : Nat) :
    forwardPass .skip (m + todo) i rows = forwardPass .skip todo (i + m) rows' := by
  induction m generalizing i rows with
  | zero => cases h; rw [Nat.zero_add, Nat.add_zero]
  | succ m ih =>
    rw [Nat.succ_add, ← Nat.succ_add_eq_add_succ]
    unfold forwardPass at h
    rw [forwardPass]
    cases hf : findPivot rows i with
    | none => rw [hf] at h; cases h
    | some p => rw [hf] at h; exact ih h

theorem swapRows_self (hi : i < rows.length) : swapRows rows i i = rows := by
  rw [swapRows, List.set_set, rowAt_of_lt hi, List.set_getElem_self]

/-- The exchange of a row with itself, which the procedure leaves out, would change nothing. -/
theorem ite_swapRows (hi : i < rows.length) (p : Nat) :
    (if p = i then rows else swapRows rows i p) = swapRows rows i p := by
  split
  next h => rw [h, swapRows_self hi]
  next => rfl

/-- A step of the forward pass works with rows from `i` on only, so it leaves a column that is 0 there as it is. -/
theorem pivotAt_pivotStep_of_zero {p j : Nat} (hs : PairShape c a rows) (hip : i ≤ p) (hp : p < rows.length)
    (h0 : pivotAt rows p i ≠ 0) (hz : ∀ j, i ≤ j → j < rows.length → pivotAt rows j k = 0#8) (hj : j < rows.length) :
    pivotAt (pivotStep rows i p) j k = pivotAt rows j k := by
  have hi : i < rows.length := hip.trans_lt hp
  have hswap : ∀ j, pivotAt (swapRows rows i p) j k = pivotAt rows j k := fun j => by
    have hpi : pivotAt rows p k = pivotAt rows i k := (hz p hip hp).trans (hz i le_rfl hi).symm
    rw [pivotAt, rowAt_swapRows hi hp]
    split
    next h => exact h ▸ hpi.symm
    next => split <;> [exact ‹j = i› ▸ hpi; rfl]
  have hscale : ∀ j, pivotAt (scalePivot (swapRows rows i p) i) j k = pivotAt rows j k := fun j => by
    rw [pivotAt_scalePivot (by rwa [length_swapRows]), hswap, hswap]
    split
    next h => rw [h, hz i le_rfl hi, gfMul_zero_left]
    next => rfl
  have hshape : PairShape c a (scalePivot (swapRows rows i p) i) :=
    (pairShape_closed c a).scale _ i _ (by rwa [length_swapRows])
      (gfInv_ne_zero (by rwa [← pivotAt_swapped hi, ite_swapRows hi] at h0))
      ((pairShape_closed c a).swap rows i p hi hp hs)
  rw [pivotStep, ite_swapRows hi, pivotAt_clearBelow hshape (by simpa using hi) (by simpa using hj), hscale, hscale,
    hz i le_rfl hi, gfMul_zero_right, BitVec.xor_zero, ite_self]

/-- What is left of the forward pass leaves a column that is 0 from the pass's row on as it is. -/
theorem pivotAt_forwardPass_of_zero {policy : Policy} {todo : Nat} (hs : PairShape c a rows)
    (hl : i + todo ≤ rows.length) (hz : ∀ j, i ≤ j → j < rows.length → pivotAt rows j k = 0#8)
    (h : forwardPass policy todo i rows = .ok rows') {j : Nat} (hj : j < rows.length) :
    pivotAt rows' j k = pivotAt rows j k := by
  induction todo generalizing i rows with
  | zero => cases h; rfl
  | succ todo ih =>
    unfold forwardPass at h
    cases hf : findPivot rows i with
    | none =>
      cases policy with
      | strict => rw [hf] at h; cases h
      | skip => rw [hf] at h; exact ih hs (by omega) (fun j hij => hz j (by omega)) h hj
    | some p =>
      rw [hf] at h
      obtain ⟨hip, hp, h0⟩ := findPivot_some hf
      have hstep : ∀ j, j < rows.length → pivotAt (pivotStep rows i p) j k = pivotAt rows j k := fun j hj =>
        pivotAt_pivotStep_of_zero hs hip hp h0 hz hj
      refine (ih (pivotStep_closed (pairShape_closed c a) (by omega) hp h0 hs) (by simp; omega) (fun j hij hj => ?_) h
        (by simpa using hj)).trans (hstep j hj)
      rw [length_pivotStep] at hj
      exact (hstep j hj).trans (hz j (by omega) hj)

/-! ### The backward pass -/

/-- A property that each step of the backward pass keeps, as it goes down the rows, holds at its end. -/
theorem backwardPass_induction {P : Nat → List PairRow → Prop}
    (hstep : ∀ i rows, i < rows.length → P (i + 1) rows → P i (clearAbove rows i)) (hpos : 0 < rows.length)
    (h : P rows.length rows) : P 1 (backwardPass rows) := by
  have hfold : ∀ m (rows : List PairRow), m < rows.length → P (m + 1) rows →
      P 1 ((List.range' 1 m).reverse.foldl clearAbove rows) := by
    intro m
    induction m with
    | zero => exact fun _ _ h => h
    | succ m ih =>
      intro rows hm h
      rw [List.range'_1_concat, List.reverse_append, Nat.add_comm 1 m]
      exact ih _ (by rw [length_clearAbove]; omega) (hstep _ rows hm h)
  exact hfold _ rows (Nat.sub_lt hpos Nat.one_pos) (by rwa [Nat.sub_add_cancel hpos])

/-- Column `k` of the identity, on and below the diagonal, and above it too once the backward pass is below row `k`. -/
structure UnitColumn (c a k i : Nat) (rows : List PairRow) : Prop where
  shape : PairShape c a rows
  unit : ∀ j < rows.length, k ≤ j ∨ i ≤ k → pivotAt rows j k = if j = k then 1 else 0#8

/-- Clearing above row `k` finishes column `k`; any other row has 0 in it. -/
theorem UnitColumn.clearAbove (h : UnitColumn c a k (i + 1) rows) (hi : i < rows.length) :
    UnitColumn c a k i (clearAbove rows i) where
  shape := by
    simpa only [Machine.clearAbove, decide_eq_true_eq] using
      (pairShape_closed c a).add rows i (fun j => decide (j < i)) (fun r => r.1.getD i 0) hi (by simp) h.shape
  unit j hj hjk := by
    rw [length_clearAbove] at hj
    rw [pivotAt_clearAbove h.shape hi hj, h.unit i hi (by omega)]
    by_cases hik : i = k
    · subst hik
      rw [if_pos rfl, gfMul_one, BitVec.xor_self]
      split
      next => rw [if_neg (by omega)]
      next => exact h.unit j hj (by omega)
    · rw [if_neg hik, gfMul_zero_right, BitVec.xor_zero, ite_self]
      exact h.unit j hj (by omega)

/-! ### The elimination -/

/-- What an elimination under SKIP leaves has every property that the row operations keep. -/
theorem eliminateSkip_closed {P : List PairRow → Prop} (hP : RowClosed P) (h : P rows) :
    P (eliminateSkip rows) ∧ (eliminateSkip rows).length = rows.length := by
  obtain ⟨rows', he⟩ := eliminate_skip_ok rows
  rw [eliminateSkip, he]
  exact (eliminate_closed hP .skip rows h).1 rows' he

theorem eliminateSkip_eq (rows : List PairRow) :
    ∃ rows', forwardPass .skip rows.length 0 rows = .ok rows' ∧ eliminateSkip rows = backwardPass rows' := by
  obtain ⟨final, he⟩ := eliminate_skip_ok rows
  rw [eliminateSkip, he]
  unfold eliminate at he
  split at he <;> cases he
  next rows' hf => exact ⟨rows', hf, rfl⟩

/-- R118: an elimination under SKIP makes independent first columns those of the identity. The forward pass finds their
pivots first, and what it then does changes none of them. -/
theorem Independent.eliminateSkip_unit {n j : Nat} (h : Independent c a n rows) (hn : n ≤ rows.length)
    (hj : j < rows.length) (hk : k < n) : pivotAt (eliminateSkip rows) j k = if j = k then 1 else 0 := by
  have hstart : Triangular c a 0 rows := ⟨h.shape, fun _ _ hk => absurd hk (Nat.not_lt_zero _)⟩
  obtain ⟨mid, hmid⟩ := h.forwardPass_ok hstart (todo := n) (by omega) (by omega)
  obtain ⟨htri, hmidlen⟩ := hstart.forwardPass (by omega) hmid
  obtain ⟨rows', hf, he⟩ := eliminateSkip_eq rows
  have hlen := ((forwardPass_closed (pairShape_closed c a) .skip _ 0 rows (by omega) h.shape).1 rows' hf)
  obtain ⟨rest, hrest⟩ := Nat.exists_eq_add_of_le hn
  rw [hrest, forwardPass_skip_of_strict hmid, Nat.zero_add] at hf
  rw [Nat.zero_add] at htri
  have hcolumn : UnitColumn c a k rows'.length rows' :=
    ⟨hlen.1, fun j hj hjk => by
      rw [pivotAt_forwardPass_of_zero htri.shape (by omega) (fun j hnj hj => htri.zero hk hnj hj) hf (by omega)]
      exact htri.unit j k hk (by omega) (by omega)⟩
  rw [he]
  refine (backwardPass_induction (P := UnitColumn c a k) (fun i rows hi h => h.clearAbove hi) (by omega) hcolumn).unit j
    ?_ (by omega)
  rwa [(backwardPass_closed (pairShape_closed c a) rows' hlen.1).2, hlen.2]

end

/-! ### The solution under SKIP -/

/-- A row of the eliminated matrix that begins as row `i` of the identity, its companion applied to the right-hand side
of a system: the companion's row times the system is the matrix's row, which picks unknown `i` of a solution that uses
only the first unknowns. -/
theorem toField_dot_of_records {n m i : Nat} {M : Rows} {r : PairRow} (hr : Records M n n r)
    (hunit : ∀ j < m, r.1.getD j 0 = if i = j then 1 else 0) {f : List Byte} (hf : f.length = n) {w : Nat → Closure2}
    (hzero : ∀ j, m ≤ j → w j = 0)
    (hw : ∀ t < n, ∑ j ∈ Finset.range n, toField (elemAt M t j) * w j = toField (f.getD t 0)) (hi : i < n) :
    toField (dot r.2 f) = w i := by
  have hterm : ∀ j ∈ Finset.range n, toField (r.1.getD j 0) * w j = if i = j then w j else 0 := fun j _ => by
    rcases Nat.lt_or_ge j m with hj | hj
    · rw [hunit j hj, toField_ite, ite_mul, one_mul, zero_mul]
    · rw [hzero j hj, mul_zero, ite_self]
  calc toField (dot r.2 f)
      = ∑ t ∈ Finset.range n, toField (r.2.getD t 0) * ∑ j ∈ Finset.range n, toField (elemAt M t j) * w j := by
        rw [dot_eq_sumTo hr.sndLength hf, toField_sumTo]
        refine Finset.sum_congr rfl fun t ht => ?_
        rw [toField_gfMul, hw t (Finset.mem_range.mp ht)]
    _ = ∑ j ∈ Finset.range n, toField (r.1.getD j 0) * w j := by
        simp only [← hr.product, rowProduct, toField_sumTo, toField_gfMul, Finset.mul_sum, Finset.sum_mul, mul_assoc]
        exact Finset.sum_comm
    _ = w i := by rw [Finset.sum_congr rfl hterm, Finset.sum_ite_eq, if_pos (Finset.mem_range.mpr hi)]

/-- When the first `m` columns of a square system are independent and it has a solution that uses no others, the
companion of an elimination under SKIP applied to the right-hand side gives that solution. -/
theorem toField_solution {n m : Nat} {M : Rows} (hM : IsMatrix n n M) (hm : m ≤ n)
    (hind : Independent n n m (pairRows M (identity n))) {f : List Byte} (hf : f.length = n) {w : Nat → Closure2}
    (hzero : ∀ j, m ≤ j → w j = 0)
    (hw : ∀ t < n, ∑ j ∈ Finset.range n, toField (elemAt M t j) * w j = toField (f.getD t 0)) {i : Nat} (hi : i < n) :
    toField (dot (rowAt (eliminateSkip (pairRows M (identity n))) i).2 f) = w i := by
  have hlen : (pairRows M (identity n)).length = n := by
    rw [length_pairRows, hM.1, (isMatrix_identity n).1, Nat.min_self]
  obtain ⟨hrec, hrows⟩ := eliminateSkip_closed (records_closed M n n) (records_identity hM)
  exact toField_dot_of_records (hrec _ (rowAt_mem (by omega)))
    (fun j hj => hind.eliminateSkip_unit (by omega) (by omega) hj) hf hzero hw hi

end Sys2Proof.Machine
end

section
/-! Sequences as polynomials of the library (20_memory.md R54): coefficients, values, and the long division
(42_vector_poly.md R105) as the division by a monic polynomial. -/

namespace Sys2Proof.Machine

open Polynomial

/-! ### Polynomials and their coefficients -/

/-- The polynomial with the coefficients `v 0 .. v (n-1)`. -/
noncomputable def polyOf (n : Nat) (v : Nat → Closure2) : Closure2[X] := ∑ i ∈ Finset.range n, C (v i) * X ^ i

theorem coeff_polyOf (n : Nat) (v : Nat → Closure2) (d : Nat) : (polyOf n v).coeff d = if d < n then v d else 0 := by
  simp only [polyOf, finsetSum_coeff, coeff_C_mul_X_pow, Finset.sum_ite_eq, Finset.mem_range]

theorem degree_polyOf_lt (n : Nat) (v : Nat → Closure2) : (polyOf n v).degree < n :=
  (degree_lt_iff_coeff_zero _ _).mpr fun d hd => by rw [coeff_polyOf, if_neg (Nat.not_lt.mpr hd)]

theorem eval_polyOf (n : Nat) (v : Nat → Closure2) (x : Closure2) :
    (polyOf n v).eval x = ∑ i ∈ Finset.range n, v i * x ^ i := by
  simp only [polyOf, eval_finsetSum, eval_mul, eval_C, eval_pow, eval_X]

/-- A polynomial of degree below `n` is made of its first `n` coefficients. -/
theorem polyOf_coeff {n : Nat} {q : Closure2[X]} (hq : q.degree < n) : polyOf n q.coeff = q := by
  ext d
  rw [coeff_polyOf]
  split
  next => rfl
  next h => exact (coeff_eq_zero_of_degree_lt (hq.trans_le (Nat.cast_le.mpr (Nat.not_lt.mp h)))).symm

theorem polyOf_eq_zero {n : Nat} {v : Nat → Closure2} (h : polyOf n v = 0) {d : Nat} (hd : d < n) : v d = 0 := by
  rw [← if_pos (c := d < n) (t := v d) (e := 0) hd, ← coeff_polyOf, h, Polynomial.coeff_zero]

theorem degree_mul_lt {p q : Closure2[X]} {m n : Nat} (hp : p.degree < m) (hq : q.degree ≤ n) :
    (p * q).degree < (m + n : Nat) := by
  rcases eq_or_ne q 0 with rfl | hq0
  · rw [mul_zero, degree_zero]
    exact WithBot.bot_lt_coe _
  · rw [degree_mul, Nat.cast_add]
    exact WithBot.add_lt_add_of_lt_of_le (degree_ne_bot.mpr hq0) hp hq

/-! ### The division -/

theorem toPoly_eq_polyOf (p : List Byte) : toPoly p = polyOf p.length fun d => toField (p.getD (p.length - 1 - d) 0) :=
  (Finset.sum_range fun d => C (toField (p.getD (p.length - 1 - d) 0)) * X ^ d).symm

theorem coeff_toPoly (p : List Byte) (d : Nat) : (toPoly p).coeff d = toField (coeff p d) := by
  rw [toPoly_eq_polyOf, coeff_polyOf, coeff]
  split
  next => rfl
  next => exact toField_zero.symm

/-- The long division is the division of polynomials (42_vector_poly.md R105 (h)). -/
theorem toPoly_polydiv {A B q r : List Byte} (h : polydiv A B = .ok (q, r)) :
    toPoly A = toPoly q * toPoly B + toPoly r := by
  ext d
  rw [coeff_add, coeff_mul, Finset.Nat.sum_antidiagonal_eq_sum_range_succ_mk]
  simp only [coeff_toPoly]
  rw [polydiv_identity h d, toField_xor, productCoeff, toField_sumTo]
  simp only [toField_gfMul]

theorem eq_zero_of_toPoly {p : List Byte} (h : toPoly p = 0) : ∀ b ∈ p, b = 0 := by
  intro b hb
  obtain ⟨i, hi, rfl⟩ := List.mem_iff_getElem.mp hb
  apply toField_eq_zero
  rw [← List.getD_eq_getElem p 0 hi, getD_eq_coeff hi, ← coeff_toPoly, h, Polynomial.coeff_zero]

/-- A sequence that begins with 1 stands for a monic polynomial. -/
theorem toPoly_one_cons (l : List Byte) :
    toPoly (1 :: l) = X ^ l.length + polyOf l.length fun d => toField (l.reverse.getD d 0) := by
  ext d
  rw [coeff_toPoly, coeff_cons, coeff_add, coeff_X_pow, coeff_polyOf, coeff_eq_getD_reverse]
  rcases Nat.lt_trichotomy d l.length with hd | rfl | hd
  · rw [if_neg hd.ne, if_neg hd.ne, if_pos hd, zero_add]
  · rw [if_pos rfl, if_pos rfl, if_neg (Nat.lt_irrefl _), add_zero]
    exact toField_one
  · rw [if_neg hd.ne', if_neg hd.ne', if_neg hd.not_gt, add_zero, List.getD_eq_default _ _ (by simpa using hd.le)]
    exact toField_zero

/-- The division of a multiple of a monic polynomial leaves no remainder and gives the other factor. -/
theorem polydiv_multiple {A l : List Byte} {P : Closure2[X]} (h : toPoly A = P * toPoly (1 :: l)) :
    ∃ q r, polydiv A (1 :: l) = .ok (q, r) ∧ toPoly q = P ∧ ∀ b ∈ r, b = 0 := by
  have hstrip : (stripZeros (1 :: l)).length = l.length + 1 := by simp [stripZeros]
  have hrest := degree_polyOf_lt l.length fun d => toField (l.reverse.getD d 0)
  have hmonic : (toPoly (1 :: l)).Monic := toPoly_one_cons l ▸ monic_X_pow_add hrest
  have hdegree : (toPoly (1 :: l)).degree = l.length := by
    rw [toPoly_one_cons, degree_add_eq_left_of_degree_lt (by rwa [degree_X_pow]), degree_X_pow]
  rcases polydiv_cases A (1 :: l) with ⟨h0, -⟩ | ⟨-, q, r, hdiv, hlen⟩
  · omega
  · have hr : r.length ≤ l.length := by split at hlen <;> omega
    have hunique := div_modByMonic_unique (f := toPoly A) (toPoly q) (toPoly r) hmonic
      ⟨by rw [toPoly_polydiv hdiv, add_comm, mul_comm],
        hdegree ▸ (degree_toPoly_lt r).trans_le (Nat.cast_le.mpr hr)⟩
    have hunique' := div_modByMonic_unique (f := toPoly A) P 0 hmonic
      ⟨by rw [h, zero_add, mul_comm], by rw [degree_zero, hdegree]; exact WithBot.bot_lt_coe _⟩
    exact ⟨q, r, hdiv, hunique.1.symm.trans hunique'.1,
      eq_zero_of_toPoly (hunique.2.symm.trans hunique'.2)⟩

end Sys2Proof.Machine
end

section
/-! Berlekamp-Welch (46_berlekamp_welch.md R153 to R155, R161): the algebra of error locators, the interpolation system
and its solution, and the division that gives the encoding's polynomial back. -/

namespace Sys2Proof.Machine

open Polynomial

/-! ### Error locators -/

/-- The values `r` at `k + 2e` distinct points `x` are those of the polynomial `P` of degree below `k`, but for those at
the positions `W`, at most `e` of them (R161). -/
structure Received (k e : Nat) (x r : Nat → Closure2) (P : Closure2[X]) (W : Finset Nat) : Prop where
  distinct : Set.InjOn x (Finset.range (k + 2 * e))
  degree : P.degree < k
  sub : W ⊆ Finset.range (k + 2 * e)
  few : W.card ≤ e
  right : ∀ i ∈ Finset.range (k + 2 * e) \ W, r i = P.eval (x i)
  wrong : ∀ i ∈ W, r i ≠ P.eval (x i)

/-- The monic polynomial whose roots are the points of the errors (R161: `L`). -/
noncomputable def locator (x : Nat → Closure2) (W : Finset Nat) : Closure2[X] := ∏ i ∈ W, (X - C (x i))

theorem monic_locator (x : Nat → Closure2) (W : Finset Nat) : (locator x W).Monic :=
  monic_prod_of_monic _ _ fun i _ => monic_X_sub_C (x i)

theorem degree_locator (x : Nat → Closure2) (W : Finset Nat) : (locator x W).degree = W.card := by
  rw [locator, degree_prod]
  simp

theorem eval_locator {x : Nat → Closure2} {W : Finset Nat} {i : Nat} (hi : i ∈ W) : (locator x W).eval (x i) = 0 := by
  rw [locator, eval_prod]
  exact Finset.prod_eq_zero hi (by simp)

/-- What `x^e` leaves when it is divided by the locator. -/
noncomputable def locatorRest (e : Nat) (x : Nat → Closure2) (W : Finset Nat) : Closure2[X] := X ^ e %ₘ locator x W

/-- The monic multiple of the locator of degree `e` whose spare coefficients are 0 (R161: `E = L * G`). -/
noncomputable def errorPoly (e : Nat) (x : Nat → Closure2) (W : Finset Nat) : Closure2[X] := X ^ e + locatorRest e x W

theorem eval_errorPoly (e : Nat) {x : Nat → Closure2} {W : Finset Nat} {i : Nat} (hi : i ∈ W) :
    (errorPoly e x W).eval (x i) = 0 := by
  have hdiv := congrArg (eval (x i)) (modByMonic_add_div (X ^ e) (locator x W))
  rw [eval_add, eval_mul, eval_locator hi, zero_mul, add_zero] at hdiv
  rw [errorPoly, eval_add, locatorRest, hdiv, CharTwo.add_self_eq_zero]

theorem degree_locatorRest_lt (e : Nat) (x : Nat → Closure2) (W : Finset Nat) : (locatorRest e x W).degree < W.card :=
  degree_locator x W ▸ degree_modByMonic_lt _ (monic_locator x W)

namespace Received
variable {k e : Nat} {x r : Nat → Closure2} {P : Closure2[X]} {W : Finset Nat} (h : Received k e x r P W)
include h

theorem degree_locatorRest_lt : (locatorRest e x W).degree < e :=
  (Machine.degree_locatorRest_lt e x W).trans_le (Nat.cast_le.mpr h.few)

theorem degree_mul_errorPoly_lt : (P * errorPoly e x W).degree < (e + k : Nat) := by
  rw [Nat.add_comm e k]
  exact degree_mul_lt h.degree ((degree_add_le _ _).trans (max_le (degree_X_pow_le e) h.degree_locatorRest_lt.le))

/-- R161: the pair `P * E`, `E` meets the equation of every point, for `E` vanishes at the errors. -/
theorem equation {i : Nat} (hi : i < k + 2 * e) :
    (P * errorPoly e x W).eval (x i) = r i * (errorPoly e x W).eval (x i) := by
  rw [eval_mul]
  by_cases hW : i ∈ W
  · rw [eval_errorPoly e hW, mul_zero, mul_zero]
  · rw [h.right i (Finset.mem_sdiff.mpr ⟨Finset.mem_range.mpr hi, hW⟩)]

/-- R161: the homogeneous equations have no other solution than 0, if `E` has fewer coefficients than there are errors:
`Q + P * E` vanishes at the right points, so it is 0, and then `E` vanishes at the wrong ones. -/
theorem homogeneous {Q E : Closure2[X]} (hQ : Q.degree < (e + k : Nat)) (hE : E.degree < W.card)
    (heq : ∀ i < k + 2 * e, Q.eval (x i) = r i * E.eval (x i)) : Q = 0 ∧ E = 0 := by
  have hright : (Finset.range (k + 2 * e) \ W).card = k + 2 * e - W.card := by
    rw [Finset.card_sdiff_of_subset h.sub, Finset.card_range]
  have hQE : Q = P * E := by
    have hfew := h.few
    refine eq_of_degrees_lt_of_eval_index_eq (Finset.range (k + 2 * e) \ W)
      (h.distinct.mono Finset.sdiff_subset) ?_ ?_ fun i hi => ?_
    · exact hQ.trans_le (Nat.cast_le.mpr (by omega))
    · exact (degree_mul_lt h.degree hE.le).trans_le (Nat.cast_le.mpr (by omega))
    · rw [heq i (Finset.mem_range.mp (Finset.mem_sdiff.mp hi).1), h.right i hi, eval_mul]
  have hE0 : E = 0 := by
    refine eq_zero_of_degree_lt_of_eval_index_eq_zero W (h.distinct.mono h.sub) hE fun i hi => ?_
    have hi' := heq i (Finset.mem_range.mp (h.sub hi))
    rw [hQE, eval_mul] at hi'
    by_contra h0
    exact h.wrong i hi (mul_right_cancel₀ h0 hi').symm
  exact ⟨by rw [hQE, hE0, mul_zero], hE0⟩

end Received

/-! ### The interpolation system -/

/-- The unknowns of the system as R154 orders them: the coefficients of `Q`, then those of `E` below its leading one. -/
noncomputable def unknowns (q : Nat) (Q R : Closure2[X]) (j : Nat) : Closure2 :=
  if j < q then Q.coeff j else R.coeff (j - q)

theorem polyOf_congr {n : Nat} {v w : Nat → Closure2} (h : ∀ i < n, v i = w i) : polyOf n v = polyOf n w :=
  Finset.sum_congr rfl fun i hi => by rw [h i (Finset.mem_range.mp hi)]

theorem polyOf_unknowns_left {q : Nat} {Q : Closure2[X]} (hQ : Q.degree < q) (R : Closure2[X]) :
    polyOf q (unknowns q Q R) = Q :=
  (polyOf_congr fun _ hj => if_pos hj).trans (polyOf_coeff hQ)

theorem polyOf_unknowns_right {e : Nat} {R : Closure2[X]} (hR : R.degree < e) (q : Nat) (Q : Closure2[X]) :
    polyOf e (fun s => unknowns q Q R (q + s)) = R :=
  (polyOf_congr fun s _ => by rw [unknowns, if_neg (by omega), Nat.add_sub_cancel_left]).trans (polyOf_coeff hR)

/-- The first elements of a row of the system, each times an unknown: the equation of the row's point (R153). -/
theorem sum_systemRow {q e t : Nat} (ht : t ≤ e) (i : Nat) (b : Byte) (v : Nat → Closure2) :
    ∑ j ∈ Finset.range (q + t), toField ((systemRow q e (evalPoint i) b).getD j 0) * v j =
      (polyOf q v).eval (point i) + toField b * (polyOf t fun s => v (q + s)).eval (point i) := by
  have hlen : ((List.range q).map fun j => gfPow (evalPoint i) j).length = q := by simp
  rw [Finset.sum_range_add, eval_polyOf, eval_polyOf, Finset.mul_sum]
  congr 1
  · refine Finset.sum_congr rfl fun j hj => ?_
    have hj := Finset.mem_range.mp hj
    rw [systemRow, List.getD_append _ _ _ _ (by rwa [hlen])]
    simp [List.getD_eq_getElem?_getD, hj, point, mul_comm]
  · refine Finset.sum_congr rfl fun s hs => ?_
    have hs : s < e := (Finset.mem_range.mp hs).trans_le ht
    rw [systemRow, List.getD_append_right _ _ _ _ (by omega), hlen, Nat.add_sub_cancel_left]
    simp only [List.getD_eq_getElem?_getD, List.getElem?_map, List.getElem?_range hs, Option.map_some, Option.getD_some,
      toField_gfMul, toField_gfPow, point]
    ring

/-- The rows of the interpolation system of fragments (R153). -/
def systemRows (q e p : Nat) (T : List Fragment) : Rows :=
  T.map fun f => systemRow q e (evalPoint f.num) (f.data.getD p 0)

theorem isMatrix_systemRows (q e p : Nat) (T : List Fragment) : IsMatrix T.length (q + e) (systemRows q e p T) :=
  ⟨List.length_map _, List.forall_mem_map.mpr fun f _ => by simp [systemRow]⟩

theorem getElem_systemRows {q e p t : Nat} {T : List Fragment} (ht : t < T.length) :
    (systemRows q e p T)[t]'(by rwa [(isMatrix_systemRows q e p T).1]) =
      systemRow q e (evalPoint ((T.map (·.num)).getD t 0)) (byteAt T p t) := by
  rw [getD_map_num ht, byteAt_eq ht]
  simp [systemRows]

/-- The right-hand sides of the equations (R153: the constant column). -/
def systemSides (e p : Nat) (T : List Fragment) : List Byte :=
  T.map fun f => gfMul (gfPow (evalPoint f.num) e) (f.data.getD p 0)

theorem getD_systemSides {e p t : Nat} {T : List Fragment} (ht : t < T.length) :
    (systemSides e p T).getD t 0 = gfMul (gfPow (evalPoint ((T.map (·.num)).getD t 0)) e) (byteAt T p t) := by
  rw [getD_map_num ht, byteAt_eq ht]
  simp [systemSides, List.getD_eq_getElem?_getD, ht]

theorem solveSystem_eq (q e p : Nat) (T : List Fragment) : solveSystem q e p T =
    (eliminateSkip (pairRows (systemRows q e p T) (identity (q + e)))).map fun r => dot r.2 (systemSides e p T) := rfl

theorem length_solveSystem {q e p : Nat} {T : List Fragment} (hT : T.length = q + e) :
    (solveSystem q e p T).length = q + e := by
  have hM := isMatrix_systemRows q e p T
  rw [solveSystem_eq, List.length_map, (eliminateSkip_closed (records_closed (systemRows q e p T) (q + e) (q + e))
    (records_identity (hT ▸ hM))).2, length_pairRows, hM.1, hT, (isMatrix_identity _).1, Nat.min_self]

theorem getD_solveSystem (q e p i : Nat) (T : List Fragment) : (solveSystem q e p T).getD i 0 =
    dot (rowAt (eliminateSkip (pairRows (systemRows q e p T) (identity (q + e)))) i).2 (systemSides e p T) := by
  rw [solveSystem_eq]
  exact List.getD_map (l := eliminateSkip _) (d := ([], [])) (n := i) fun r => dot r.2 (systemSides e p T)

section
variable {k e p : Nat} {T : List Fragment} {P : Closure2[X]} {W : Finset Nat} (hT : T.length = e + k + e)
  (h : Received k e (pointAt (T.map (·.num))) (fun t => toField (byteAt T p t)) P W)
include hT h

/-- R161: the first `q + t` columns of the system, `t` the number of errors, are independent. -/
theorem independent_systemRows : Independent (e + k + e) (e + k + e) (e + k + W.card)
    (pairRows (systemRows (e + k) e p T) (identity (e + k + e))) where
  shape := pairShape_pairRows (hT ▸ isMatrix_systemRows (e + k) e p T) (isMatrix_identity _)
  trivial v hv := by
    have hM := isMatrix_systemRows (e + k) e p T
    have heq : ∀ t < k + 2 * e, (polyOf (e + k) v).eval (pointAt (T.map (·.num)) t) =
        toField (byteAt T p t) * (polyOf W.card fun s => v (e + k + s)).eval (pointAt (T.map (·.num)) t) := by
      intro t ht
      have hrow := hv t (by rw [length_pairRows, hM.1, (isMatrix_identity _).1]; omega)
      rw [rowAt_pairRows (by rw [hM.1]; omega) (by rw [(isMatrix_identity _).1]; omega), columnSum,
        getElem_systemRows (by omega), sum_systemRow h.few] at hrow
      exact CharTwo.add_eq_zero.mp hrow
    obtain ⟨hQ, hE⟩ := h.homogeneous (degree_polyOf_lt _ _) (degree_polyOf_lt _ _) heq
    intro j hj
    rcases Nat.lt_or_ge j (e + k) with hjq | hjq
    · exact polyOf_eq_zero hQ hjq
    · obtain ⟨s, rfl⟩ := Nat.exists_eq_add_of_le hjq
      exact polyOf_eq_zero hE (by omega)

/-- R154, R161: the solution under SKIP is the pair `P * E`, `E` whose `E` has its spare coefficients 0. -/
theorem toField_solveSystem {i : Nat} (hi : i < e + k + e) : toField ((solveSystem (e + k) e p T).getD i 0) =
    unknowns (e + k) (P * errorPoly e (pointAt (T.map (·.num))) W)
      (locatorRest e (pointAt (T.map (·.num))) W) i := by
  have hM := isMatrix_systemRows (e + k) e p T
  have hfew := h.few
  rw [getD_solveSystem]
  refine toField_solution (m := e + k + W.card) (hT ▸ hM) (by omega) (independent_systemRows hT h)
    (by rw [systemSides, List.length_map, hT]) (fun j hj => ?_) (fun t ht => ?_) hi
  · rw [unknowns, if_neg (by omega)]
    exact coeff_eq_zero_of_degree_lt ((degree_locatorRest_lt e _ W).trans_le (Nat.cast_le.mpr (by omega)))
  · have htT : t < T.length := hT ▸ ht
    simp only [elemAt]
    rw [List.getD_eq_getElem _ _ (by rwa [hM.1]), getElem_systemRows htT, sum_systemRow le_rfl,
      polyOf_unknowns_left h.degree_mul_errorPoly_lt, polyOf_unknowns_right h.degree_locatorRest_lt,
      ← pointAt, h.equation (by omega), getD_systemSides htT, toField_gfMul, toField_gfPow, errorPoly, eval_add, mul_add,
      add_assoc, CharTwo.add_self_eq_zero, add_zero, eval_pow, eval_X, mul_comm]
    rfl

end

/-! ### The corrected bytes -/

section
variable {q e : Nat} {u : List Byte} (hu : u.length = q + e)
include hu

/-- The high part of the reversed solution stands for `Q` (R155). -/
theorem toPoly_drop_reverse : toPoly (u.reverse.drop e) = polyOf q fun j => toField (u.getD j 0) := by
  ext d
  rw [coeff_toPoly, coeff_polyOf, coeff_eq_getD_reverse, List.drop_reverse, List.reverse_reverse, hu,
    Nat.add_sub_cancel]
  split
  next hd => simp [List.getD_eq_getElem?_getD, hd]
  next hd =>
    rw [List.getD_eq_default _ _ ((List.length_take_le q u).trans (Nat.not_lt.mp hd))]
    exact toField_zero

/-- The low part of the reversed solution, behind a 1, stands for `E` (R155). -/
theorem toPoly_one_cons_take_reverse :
    toPoly (1 :: u.reverse.take e) = X ^ e + polyOf e fun s => toField (u.getD (q + s) 0) := by
  have hlen : (u.reverse.take e).length = e := by simp; omega
  rw [toPoly_one_cons, hlen, List.take_reverse, List.reverse_reverse, hu, Nat.add_sub_cancel]
  simp only [List.getD_eq_getElem?_getD, List.getElem?_drop]

end

/-- R155: a solution that is a multiple `P * E`, `E` gives the values of `P` at the points. -/
theorem bytesFromSolution_ok {n q e : Nat} {u : List Byte} (hu : u.length = q + e) {P R : Closure2[X]}
    (hQ : (polyOf q fun j => toField (u.getD j 0)) = P * (X ^ e + R))
    (hE : (polyOf e fun s => toField (u.getD (q + s) 0)) = R) {b : Nat → Byte}
    (hb : ∀ i < n, toField (b i) = P.eval (point i)) : bytesFromSolution n e u = .ok ((List.range n).map b) := by
  obtain ⟨Q, r, hdiv, rfl, hr⟩ := polydiv_multiple (A := u.reverse.drop e) (l := u.reverse.take e) (P := P)
    (by rw [toPoly_drop_reverse hu, toPoly_one_cons_take_reverse hu, hQ, hE])
  have hall : (r.all (· == 0)) = true := List.all_eq_true.mpr fun x hx => beq_iff_eq.mpr (hr x hx)
  have hvalue : ((List.range n).map fun i => polyeval Q (evalPoint i)) = (List.range n).map b :=
    List.map_congr_left fun i hi => toField_injective
      ((toField_polyeval Q (evalPoint i)).trans (hb i (List.mem_range.mp hi)).symm)
  rw [bytesFromSolution, hdiv, ← hvalue]
  simp only [hall, if_true]

/-! ### The wrong bytes -/

/-- The positions of the fragments whose byte `p` differs from the encoding's. -/
def wrongPositions (c : Codec) (bs : Nat) (D : List Byte) (S : List Fragment) (p : Nat) : Finset Nat :=
  ((List.range S.length).filter fun t =>
    byteAt S p t != fragmentByte c bs D ((S.map (·.num)).getD t 0) p).toFinset

theorem mem_wrongPositions {c : Codec} {bs : Nat} {D : List Byte} {S : List Fragment} {p t : Nat} :
    t ∈ wrongPositions c bs D S p ↔
      t < S.length ∧ byteAt S p t ≠ fragmentByte c bs D ((S.map (·.num)).getD t 0) p := by
  rw [wrongPositions, List.mem_toFinset, List.mem_filter, List.mem_range, bne_iff_ne]

theorem byteAt_of_notMem_wrongPositions {c : Codec} {bs : Nat} {D : List Byte} {S : List Fragment} {p t : Nat}
    (ht : t < S.length) (h : t ∉ wrongPositions c bs D S p) :
    byteAt S p t = fragmentByte c bs D ((S.map (·.num)).getD t 0) p := by
  by_contra hne
  exact h (mem_wrongPositions.mpr ⟨ht, hne⟩)

theorem card_wrongPositions (c : Codec) (bs : Nat) (D : List Byte) (S : List Fragment) (p : Nat) :
    (wrongPositions c bs D S p).card = wrongAt c bs D S p := by
  have hS : S = (List.range S.length).map fun t => S.getD t ⟨0, 0, []⟩ :=
    List.ext_getElem (by simp) fun t ht _ => by simp [ht]
  rw [wrongPositions, List.toFinset_card_of_nodup (List.nodup_range.filter _), wrongAt]
  conv_rhs => rw [hS, List.filter_map, List.length_map]
  refine congrArg List.length (List.filter_congr fun t ht => ?_)
  have ht := List.mem_range.mp ht
  rw [byteAt_eq ht, getD_map_num ht, Function.comp_apply, List.getD_eq_getElem _ _ ht]

theorem wrongAt_take_le (c : Codec) (bs : Nat) (D : List Byte) (S : List Fragment) (p m : Nat) :
    wrongAt c bs D (S.take m) p ≤ wrongAt c bs D S p :=
  ((List.take_sublist m S).filter _).length_le

/-- The bytes of the fragments at one position, as received (R161). -/
theorem received_of_wrongAt {c : Codec} (hc : c.Legal) {bs e p : Nat} {D : List Byte} {T : List Fragment}
    (hT : T.length = c.k + 2 * e) (hnodup : (T.map (·.num)).Nodup) (hnums : ∀ t ∈ T.map (·.num), t < c.n)
    (hwrong : wrongAt c bs D T p ≤ e) :
    Received c.k e (pointAt (T.map (·.num))) (fun t => toField (byteAt T p t)) (codePoly c bs D p)
      (wrongPositions c bs D T p) := by
  have hcode : ∀ t < T.length, toField (fragmentByte c bs D ((T.map (·.num)).getD t 0) p) =
      (codePoly c bs D p).eval (pointAt (T.map (·.num)) t) := fun t ht =>
    toField_fragmentByte_getD hc bs D p hnums (by rwa [List.length_map])
  exact
    { distinct := pointAt_injOn hnodup (fun t ht => (hnums t ht).trans_le hc.nMax) fun t ht => by
        rw [List.length_map, hT]
        exact Finset.mem_range.mp ht
      degree := degree_codePoly_lt hc bs D p
      sub := fun t ht => Finset.mem_range.mpr (hT ▸ (mem_wrongPositions.mp ht).1)
      few := (card_wrongPositions c bs D T p).trans_le hwrong
      right := fun t ht => by
        obtain ⟨ht, hright⟩ := Finset.mem_sdiff.mp ht
        rw [Finset.mem_range, ← hT] at ht
        rw [← hcode t ht, byteAt_of_notMem_wrongPositions ht hright]
      wrong := fun t ht => by
        obtain ⟨ht, hne⟩ := mem_wrongPositions.mp ht
        rw [← hcode t ht]
        exact toField_injective.ne hne }

/-- The solver finds the encoding's bytes from enough fragments with few wrong bytes. -/
theorem bytesFromSolution_solveSystem {c : Codec} (hc : c.Legal) {bs e p : Nat} {D : List Byte} {T : List Fragment}
    (hT : T.length = c.k + 2 * e) (hnodup : (T.map (·.num)).Nodup) (hnums : ∀ t ∈ T.map (·.num), t < c.n)
    (hwrong : wrongAt c bs D T p ≤ e) :
    bytesFromSolution c.n e (solveSystem (e + c.k) e p T) =
      .ok ((List.range c.n).map fun i => fragmentByte c bs D i p) := by
  have h := received_of_wrongAt hc hT hnodup hnums hwrong
  have hlen : T.length = e + c.k + e := by omega
  have hu := fun i (hi : i < e + c.k + e) => toField_solveSystem hlen h hi
  exact bytesFromSolution_ok (length_solveSystem hlen)
    ((polyOf_congr fun j hj => hu j (by omega)).trans (polyOf_unknowns_left h.degree_mul_errorPoly_lt _))
    ((polyOf_congr fun s hs => hu _ (by omega)).trans (polyOf_unknowns_right h.degree_locatorRest_lt _ _))
    fun i hi => toField_fragmentByte hc bs D p hi

/-- Settles O57: the solver's solution is `P * E`, `E` for the encoding's polynomial `P`. -/
theorem berlekampWelchCorrectsUpToE : Obligations.BerlekampWelchCorrectsUpToE := by
  intro c bs D S p hc hS he hwrong
  have hsub : ((S.take (c.k + 2 * ((S.length - c.k) / 2))).map (·.num)).Sublist (S.map (·.num)) :=
    (List.take_sublist _ S).map _
  rw [bw]
  exact (if_neg (by omega)).trans (bytesFromSolution_solveSystem hc (by rw [List.length_take]; omega)
    (hS.nodup_nums.sublist hsub) (fun t ht => hS.num_lt t (hsub.subset ht)) ((wrongAt_take_le ..).trans hwrong))

end Sys2Proof.Machine
end

section
/-! Correction (46_berlekamp_welch.md R152, R157, R161): which positions the check vectors flag, the fragments after
some positions have been repaired, and the walk over the rows of the syndrome matrix. -/

namespace Sys2Proof.Machine

/-! ### Detection -/

section
variable {c : Codec} (hc : c.Legal) {bs p : Nat} {D : List Byte} {S : List Fragment} (hS : SortedFragments c S)
include hc hS

/-- R161 (a): bytes that are all right are annihilated by the syndrome matrix. -/
theorem annihilated_of_right {H : Rows} (hH : syndrome c (S.map (·.num)) = .ok H) (hright : wrongAt c bs D S p = 0) :
    ∀ row ∈ H, (sumTo S.length fun t => gfMul (row.getD t 0) (byteAt S p t)) = 0 := by
  refine (syndrome_detects_iff hc hS hH p).mpr ((isCodeword_fragmentByte hc bs D p hS.num_lt).congr fun t ht => ?_)
  rw [List.length_map] at ht
  rw [← card_wrongPositions, Finset.card_eq_zero] at hright
  rw [byteAt_of_notMem_wrongPositions ht (hright ▸ Finset.notMem_empty t)]

/-- R161 (b): a word with at most `(r-k)/2` wrong bytes that is annihilated by the syndrome matrix is the encoding's:
the two are codewords that agree at `k` fragments. -/
theorem right_of_annihilated {H : Rows} (hH : syndrome c (S.map (·.num)) = .ok H)
    (hwrong : wrongAt c bs D S p ≤ (S.length - c.k) / 2)
    (hzero : ∀ row ∈ H, (sumTo S.length fun t => gfMul (row.getD t 0) (byteAt S p t)) = 0) {t : Nat}
    (ht : t < S.length) : byteAt S p t = fragmentByte c bs D ((S.map (·.num)).getD t 0) p := by
  have henough := hS.enough
  have hsum := ((syndrome_detects_iff hc hS hH p).mp hzero).add (isCodeword_fragmentByte hc bs D p hS.num_lt)
  have hcard : c.k ≤ (Finset.range S.length \ wrongPositions c bs D S p).card := by
    rw [Finset.card_sdiff_of_subset fun t ht => Finset.mem_range.mpr (mem_wrongPositions.mp ht).1, Finset.card_range,
      card_wrongPositions]
    omega
  have hsum0 := hsum.eq_zero hS.nodup_nums (fun t ht => (hS.num_lt t ht).trans_le hc.nMax)
    (T := Finset.range S.length \ wrongPositions c bs D S p)
    (fun t ht => by rw [List.length_map]; exact Finset.mem_range.mp (Finset.mem_sdiff.mp ht).1) hcard
    (fun t ht => by
      obtain ⟨ht, hright⟩ := Finset.mem_sdiff.mp ht
      rw [byteAt_of_notMem_wrongPositions (Finset.mem_range.mp ht) hright, CharTwo.add_self_eq_zero])
    (t := t) (by rwa [List.length_map])
  exact toField_injective (CharTwo.add_eq_zero.mp hsum0)

end

/-- R152: the check vector of a row at a position is the row applied to the bytes there. -/
theorem getD_checkVector {bs p : Nat} {S : List Fragment} (hlen : ∀ f ∈ S, f.data.length = bs) {row : List Byte}
    (hrow : row.length = S.length) (hp : p < bs) :
    (checkVector bs S row).getD p 0 = sumTo S.length fun t => gfMul (row.getD t 0) (byteAt S p t) := by
  rw [checkVector, getD_combine bs _ _ (List.forall_mem_map.mpr hlen) (by rw [List.length_map, hrow]) p hp,
    List.length_map]
  rfl

theorem mem_flagged {bs p : Nat} {buf : List Byte} : p ∈ flagged bs buf ↔ p < bs ∧ buf.getD p 0 ≠ 0 := by
  rw [flagged, List.mem_filter, List.mem_range, bne_iff_ne]

/-! ### Repaired positions -/

/-- The fragments after the positions `done` have been repaired: there their bytes are the encoding's. -/
def restored (c : Codec) (bs : Nat) (D : List Byte) (done : List Nat) (S : List Fragment) : List Fragment :=
  S.map fun f => { f with
    data := (List.range bs).map fun p => if p ∈ done then fragmentByte c bs D f.num p else f.data.getD p 0 }

section
variable {c : Codec} {bs : Nat} {D : List Byte} {S : List Fragment} (done : List Nat)

@[simp] theorem length_restored : (restored c bs D done S).length = S.length := List.length_map _

@[simp] theorem nums_restored : (restored c bs D done S).map (·.num) = S.map (·.num) := by
  rw [restored, List.map_map]
  rfl

theorem length_data_restored : ∀ f ∈ restored c bs D done S, f.data.length = bs :=
  List.forall_mem_map.mpr fun f _ => by simp

theorem byteAt_restored {p t : Nat} (hp : p < bs) (ht : t < S.length) : byteAt (restored c bs D done S) p t =
    if p ∈ done then fragmentByte c bs D ((S.map (·.num)).getD t 0) p else byteAt S p t := by
  rw [byteAt_eq (by rwa [length_restored]), byteAt_eq ht, getD_map_num ht]
  simp [restored, List.getD_eq_getElem?_getD, hp]

theorem restored_nil (hlen : ∀ f ∈ S, f.data.length = bs) : restored c bs D [] S = S := by
  conv_rhs => rw [← List.map_id S]
  refine List.map_congr_left fun f hf => ?_
  have hdata : (List.range bs).map (fun p => f.data.getD p 0) = f.data :=
    List.ext_getElem (by simp [hlen f hf]) fun p _ hp => by simp [hp]
  simp only [List.not_mem_nil, if_false, hdata, id]

theorem SortedFragments.restored (hS : SortedFragments c S) : SortedFragments c (restored c bs D done S) where
  enough := by rw [length_restored]; exact hS.enough
  ascending := List.pairwise_map.mpr hS.ascending
  numbers := List.forall_mem_map.mpr hS.numbers

/-- Repairs make no byte wrong. -/
theorem wrongAt_restored_le {p : Nat} (hp : p < bs) :
    wrongAt c bs D (restored c bs D done S) p ≤ wrongAt c bs D S p := by
  rw [← card_wrongPositions, ← card_wrongPositions]
  refine Finset.card_le_card fun t ht => ?_
  obtain ⟨ht, hne⟩ := mem_wrongPositions.mp ht
  rw [length_restored] at ht
  rw [byteAt_restored done hp ht, nums_restored] at hne
  split at hne
  next => exact absurd rfl hne
  next => exact mem_wrongPositions.mpr ⟨ht, hne⟩

/-- Writing the encoding's bytes at a position repairs it (R157). -/
theorem rewriteAt_restored (hnums : ∀ f ∈ S, f.num < c.n) (p : Nat) :
    rewriteAt (restored c bs D done S) p ((List.range c.n).map fun i => fragmentByte c bs D i p) =
      restored c bs D (p :: done) S := by
  rw [rewriteAt, restored, List.map_map, restored]
  refine List.map_congr_left fun f hf => ?_
  simp only [Function.comp_apply, Fragment.mk.injEq, true_and]
  refine List.ext_getElem (by simp) fun x hx _ => ?_
  rw [List.getElem_set]
  split
  next h => simp [h, List.getD_eq_getElem?_getD, hnums f hf]
  next h => simp [Ne.symm h]

end

/-! ### The walk -/

section
variable {c : Codec} {bs : Nat} {D : List Byte} {S : List Fragment} (hc : c.Legal) (hS : SortedFragments c S)
  (hwrong : ∀ p, p < bs → wrongAt c bs D S p ≤ (S.length - c.k) / 2)
include hc hS hwrong

/-- R157: each repair of a position gives the encoding's bytes there. -/
theorem repairEach_restored (he : 1 ≤ (S.length - c.k) / 2) {ps : List Nat} (hps : ∀ p ∈ ps, p < bs)
    (done : List Nat) : repairEach c ps (restored c bs D done S) = .ok (restored c bs D (ps.reverse ++ done) S) := by
  induction ps generalizing done with
  | nil => rfl
  | cons p ps ih =>
    obtain ⟨hp, hps⟩ := List.forall_mem_cons.mp hps
    have hbw : bw c (restored c bs D done S) p = .ok ((List.range c.n).map fun i => fragmentByte c bs D i p) :=
      berlekampWelchCorrectsUpToE c bs D _ p hc (hS.restored done) (by rwa [length_restored])
        (by rw [length_restored]; exact (wrongAt_restored_le done hp).trans (hwrong p hp))
    simp only [repairEach, repairAt, hbw, rewriteAt_restored done hS.numbers]
    rw [ih hps, List.reverse_cons, List.append_assoc, List.singleton_append]

/-- A row repairs the positions it flags; each has a wrong byte, so that a repair is possible (R161). -/
theorem repairEach_flagged {H : Rows} (hH : syndrome c (S.map (·.num)) = .ok H) {row : List Byte} (hrow : row ∈ H)
    (done : List Nat) : ∃ ps, repairEach c (flagged bs (checkVector bs (restored c bs D done S) row))
        (restored c bs D done S) = .ok (restored c bs D (ps ++ done) S) ∧
      ∀ p, p < bs → p ∉ ps ++ done → (sumTo S.length fun t => gfMul (row.getD t 0) (byteAt S p t)) = 0 := by
  have hlen : row.length = S.length := by
    rw [(syndrome_matrix hc (by rw [List.length_map]; exact hS.enough) hH).2 row hrow, List.length_map]
  have hcheck : ∀ p, p < bs → (checkVector bs (restored c bs D done S) row).getD p 0 =
      sumTo S.length fun t => gfMul (row.getD t 0) (byteAt (restored c bs D done S) p t) := fun p hp => by
    rw [getD_checkVector (length_data_restored done) (by rwa [length_restored]) hp, length_restored]
  refine ⟨(flagged bs (checkVector bs (restored c bs D done S) row)).reverse, ?_, fun p hp hnot => ?_⟩
  · by_cases hnil : flagged bs (checkVector bs (restored c bs D done S) row) = []
    · rw [hnil]
      rfl
    · obtain ⟨p, hflag⟩ := List.exists_mem_of_ne_nil _ hnil
      obtain ⟨hp, hne⟩ := mem_flagged.mp hflag
      have hbad : wrongAt c bs D (restored c bs D done S) p ≠ 0 := fun hright => hne <| by
        rw [hcheck p hp, ← length_restored (c := c) (bs := bs) (D := D) done]
        exact annihilated_of_right hc (hS.restored done) (by rwa [nums_restored]) hright row hrow
      have hle := (wrongAt_restored_le done hp).trans (hwrong p hp)
      exact repairEach_restored hc hS hwrong (by omega) (fun p hp => (mem_flagged.mp hp).1) done
  · rw [List.mem_append, List.mem_reverse, not_or] at hnot
    obtain ⟨hflag, hdone⟩ := hnot
    have hzero : (checkVector bs (restored c bs D done S) row).getD p 0 = 0 := by
      by_contra hne
      exact hflag (mem_flagged.mpr ⟨hp, hne⟩)
    refine Eq.trans (sumTo_congr fun t ht => ?_) ((hcheck p hp).symm.trans hzero)
    rw [byteAt_restored done hp ht, if_neg hdone]

/-- R157, R161: the walk over the rows repairs positions until no row flags any of the others. -/
theorem correctRows_restored {H rows : Rows} (hH : syndrome c (S.map (·.num)) = .ok H) (hrows : ∀ row ∈ rows, row ∈ H)
    (done : List Nat) : ∃ done', correctRows c bs rows (restored c bs D done S) = .ok (restored c bs D done' S) ∧
      done ⊆ done' ∧ ∀ row ∈ rows, ∀ p, p < bs → p ∉ done' →
        (sumTo S.length fun t => gfMul (row.getD t 0) (byteAt S p t)) = 0 := by
  induction rows generalizing done with
  | nil => exact ⟨done, rfl, List.Subset.refl _, nofun⟩
  | cons row rows ih =>
    obtain ⟨hrow, hrows⟩ := List.forall_mem_cons.mp hrows
    obtain ⟨ps, hrepair, hzero⟩ := repairEach_flagged hc hS hwrong hH hrow done
    obtain ⟨done', hrest, hsub, hzeros⟩ := ih hrows (ps ++ done)
    refine ⟨done', by rw [correctRows, hrepair]; exact hrest,
      List.Subset.trans (List.subset_append_right ps done) hsub, ?_⟩
    exact List.forall_mem_cons.mpr ⟨fun p hp hnot => hzero p hp fun h => hnot (hsub h), hzeros⟩

end

/-- Settles O58: at the end no row flags a position that was not repaired, so the bytes there were right. -/
theorem correctionRestoresEveryFragment : Obligations.CorrectionRestoresEveryFragment := by
  intro c bs D S hc hS hlen hwrong
  obtain ⟨H, hH⟩ := syndrome_ok hc (by rw [List.length_map]; exact hS.enough) hS.nodup_nums hS.num_lt
  obtain ⟨done, hrows, -, hzero⟩ := correctRows_restored hc hS hwrong hH (fun _ h => h) []
  rw [restored_nil hlen] at hrows
  rw [correctFragments, hH]
  refine hrows.trans (congrArg Except.ok (List.map_congr_left fun f hf => ?_))
  congr 1
  refine List.map_congr_left fun p hp => ?_
  split
  next => rfl
  next hnot =>
    have hp := List.mem_range.mp hp
    obtain ⟨t, ht, rfl⟩ := List.mem_iff_getElem.mp hf
    rw [← byteAt_eq ht, ← getD_map_num ht]
    exact right_of_annihilated hc hS hH (hwrong p hp) (fun row hrow => hzero row hrow p hp hnot) ht

end Sys2Proof.Machine
end

section
/-! The commands over corrected share lists (46_berlekamp_welch.md R151, R156, R158 to R160): the front end passes and
reads the fragments, and each command ends as its own computation does. -/

namespace Sys2Proof.Machine

/-! ### The front end and the fragments -/

/-- A byte position outside the block ends the front end in OperandRange, before the list is looked at (R143, F3). -/
theorem withList_badPosition {s : State} {c : Codec} {a : ListOperands} {outs : Codec → List Region}
    {work : Listed → Except Halt (Memory × Option ErrorCode)} (hc : s.codec = some c) (hk : c.k ≤ a.cnt)
    (hp : ¬ positionLegal a.bs a.pos = true) : withList s a outs work = .error (.raised .operandRange) := by
  have hsort : sortList s a outs = .error (.raised .operandRange) := by
    rw [sortList, needCodec_bind_some hc, decide_eq_true hk, demand_true, ok_bind]
    exact demand_bind_raised hp
  rw [withList, hsort, error_bind]

/-- The front end hands a good list and its data, read as the fragments, to the rest of the command's work. -/
theorem withList_fragments {s : State} {c : Codec} {sl cnt bs : Nat} {pos : Option Nat} {es sorted : List Share}
    {outs : Codec → List Region} {S : List Fragment}
    (rest : Listed → List Fragment → Except Halt (Memory × Option ErrorCode))
    (hg : GoodList s c sl cnt es sorted (outs c)) (hp : positionLegal (some bs) pos = true) (hn : GoodNumbers c sorted)
    (hd : GoodData s sl cnt bs sorted (outs c) S) :
    withList s ⟨sl, cnt, some bs, pos⟩ outs (fun L => loadFragments L bs >>= rest L) =
      rest ⟨c, sorted, s.mem.writeBytes sl (listBytes sorted)⟩ S := by
  rw [withList_work _ hg hp hn hd.dataRegions_inside hd.dataRegions_apart,
    loadFragments_good hd hg.length_listBytes_sorted, ok_bind]

/-- Reading BUF after the sorted list and then the data of fragments are stored. -/
theorem read_storeFragments_sorted (s : State) (sl : Nat) (sorted : List Share) (S : List Fragment) (x : Nat) :
    (storeFragments (s.mem.writeBytes sl (listBytes sorted)) S).read x = dataStored (sortedList s sl sorted) S x := by
  rw [read_storeFragments, funext (read_sortedList s sl sorted)]

/-! ### SYND -/

/-- The one error of a syndrome construction is that of its elimination (R150). -/
theorem syndrome_error {c : Codec} {nums : List Nat} {e : ErrorCode} (h : syndrome c nums = .error e) :
    e = .matrixInversionFailed := by
  unfold syndrome at h
  split at h <;> cases h
  rfl

/-- Settles O53: SYND reads no data, so its list and its output are all the regions of the front end; it then ends as
the construction of the matrix does. -/
theorem syndStoresTheSyndromeMatrix : Obligations.SyndStoresTheSyndromeMatrix := by
  intro rout rsl rcnt s c es sorted hg hn ha hc
  have hfront := fun work => withList_work (a := ⟨s.num rsl, s.num rcnt, none, none⟩)
    (outs := fun c => [⟨s.num rout, (s.num rcnt - c.k) * s.num rcnt⟩]) work hg rfl hn
    (fun _ hr => absurd hr List.not_mem_nil) (List.pairwise_pair.mpr ha)
  refine ⟨hasWord_of_wellFormed rfl (by decide) rfl, fun H hH => ⟨?_, ?_⟩, fun e he => ⟨syndrome_error he, ?_⟩⟩
  · have hlen : (sorted.map (·.num)).length = s.num rcnt := by rw [List.length_map, hg.length_sorted]
    exact hlen ▸ syndrome_matrix hc (hlen.symm ▸ hg.enough) hH
  · exact memDone_of_part rfl (read_writeBytes_twice s _ _ _ _) (by rw [syndResult, hfront, hH])
  · exact raised_of_part rfl (read_sortedList s _ sorted) (by rw [syndResult, hfront, he])

/-! ### BWB -/

theorem bw_notEnough {c : Codec} {S : List Fragment} (h : S.length - c.k < 2) (p : Nat) :
    bw c S p = .error .notEnoughShares := if_pos (Nat.div_eq_of_lt h)

/-- Settles O55: the position check, then the outcomes of the solver. -/
theorem bwbStoresCorrectedBytes : Obligations.BwbStoresCorrectedBytes := by
  intro rout rsl rcnt rbs rp s c es sorted S hg hn hd
  refine ⟨hasWord_of_wellFormed rfl (by decide) rfl, fun hp => failsClean_of_part rfl
    (withList_badPosition hg.codec hg.enough (by simpa [positionLegal] using hp)), fun hp => ?_⟩
  have hfront := fun rest => withList_fragments (bs := s.num rbs) (pos := some (s.num rp))
    (outs := fun c => [⟨s.num rout, c.n⟩]) rest hg (decide_eq_true hp) hn hd
  refine ⟨fun hfew => bw_notEnough ?_ _, fun bytes hb => ⟨length_bw hb, ?_⟩, fun e he => ?_⟩
  · rwa [hd.length_fragments, hg.length_sorted]
  · exact memDone_of_part rfl (read_writeBytes_twice s _ _ _ _) (by rw [bwbResult, hfront, hb])
  · exact raised_of_part rfl (read_sortedList s _ sorted) (by rw [bwbResult, hfront, he])

/-! ### CORRECT -/

/-- Settles O56: CORRECT stores the fragments as their correction leaves them, with success or without. -/
theorem correctRepairsInPlace : Obligations.CorrectRepairsInPlace := by
  intro rsl rcnt rbs s c es sorted S hg hn hd
  have hfront := fun rest => withList_fragments (pos := none) (outs := fun _ => []) rest hg rfl hn hd
  exact ⟨hasWord_of_wellFormed rfl (by decide) rfl,
    fun S' hS' => memDone_of_part rfl (read_storeFragments_sorted s _ sorted S') (by rw [correctResult, hfront, hS']),
    fun e S' hS' => raised_of_part rfl (read_storeFragments_sorted s _ sorted S') (by rw [correctResult, hfront, hS'])⟩

/-! ### DECODE and DECNC -/

section
variable {s : State} {c : Codec} {sl cnt bs : Nat} {es sorted : List Share} {outs : Codec → List Region}
  {S S' : List Fragment} {emit : Listed → Memory → List Fragment → Rows → Memory}
  (hg : GoodList s c sl cnt es sorted (outs c)) (hn : GoodNumbers c sorted)
  (hd : GoodData s sl cnt bs sorted (outs c) S)
include hg hn hd

/-- A decoding command whose correction fails keeps the repairs made before and writes no output (R159, R160). -/
theorem withList_decodeWith_uncorrected {e : ErrorCode} (hS' : correctFragments c bs S = .error (e, S')) :
    withList s ⟨sl, cnt, some bs, none⟩ outs (fun L => decodeWith L bs (emit L)) =
      .ok (storeFragments (s.mem.writeBytes sl (listBytes sorted)) S', some e) := by
  simp only [decodeWith, withList_fragments (pos := none) _ hg rfl hn hd, hS']

variable (hS' : correctFragments c bs S = .ok S')
include hS'

/-- A decoding command whose rebuild fails keeps the repairs and writes no output (R159, R160). -/
theorem withList_decodeWith_unrebuilt {e : ErrorCode} (he : rebuildBlocks c bs S' = .error e) :
    withList s ⟨sl, cnt, some bs, none⟩ outs (fun L => decodeWith L bs (emit L)) =
      .ok (storeFragments (s.mem.writeBytes sl (listBytes sorted)) S', some e) := by
  simp only [decodeWith, withList_fragments (pos := none) _ hg rfl hn hd, hS', he]

/-- A decoding command whose rebuild succeeds emits its outputs over the repaired fragments (R159, R160). -/
theorem withList_decodeWith_rebuilt {blocks : Rows} (hb : rebuildBlocks c bs S' = .ok blocks) :
    withList s ⟨sl, cnt, some bs, none⟩ outs (fun L => decodeWith L bs (emit L)) =
      .ok (emit ⟨c, sorted, s.mem.writeBytes sl (listBytes sorted)⟩
        (storeFragments (s.mem.writeBytes sl (listBytes sorted)) S') S' blocks, none) := by
  simp only [decodeWith, withList_fragments (pos := none) _ hg rfl hn hd, hS', hb]

end

/-- Reading BUF after an output is stored over the repaired fragments. -/
theorem read_writeBytes_repaired (s : State) (sl a : Nat) (sorted : List Share) (S : List Fragment) (u : List Byte)
    (x : Nat) : ((storeFragments (s.mem.writeBytes sl (listBytes sorted)) S).writeBytes a u).read x =
      storedInto (dataStored (sortedList s sl sorted) S) a u x := by
  rw [read_writeBytes, funext (read_storeFragments_sorted s sl sorted S)]

/-- Settles O59: DECODE emits the blocks at its output. -/
theorem decodeCorrectsThenRebuilds : Obligations.DecodeCorrectsThenRebuilds := by
  intro rout rsl rcnt rbs s c es sorted S hg hn hd
  have hrepaired := read_storeFragments_sorted s (s.num rsl) sorted
  exact ⟨hasWord_of_wellFormed rfl (by decide) rfl,
    fun S' blocks hS' hb => memDone_of_part rfl (read_writeBytes_repaired s _ _ sorted S' _)
      (withList_decodeWith_rebuilt hg hn hd hS' hb),
    fun S' e hS' he => raised_of_part rfl (hrepaired S') (withList_decodeWith_unrebuilt hg hn hd hS' he),
    fun e S' hS' => raised_of_part rfl (hrepaired S') (withList_decodeWith_uncorrected hg hn hd hS')⟩

/-- The emission records are the bytes of a share list: block number, two zero bytes, address (R160). -/
theorem flatten_emissionRecords (out bs : Nat) (js : List Nat) :
    (js.map (emissionRecord out bs)).flatten = listBytes (js.map fun j => Share.mk j [0, 0] (out + j * bs)) := by
  rw [listBytes, List.map_map]
  rfl

/-- Settles O60: DECNC emits the blocks and then the records of their emission. -/
theorem decncRecordsTheEmission : Obligations.DecncRecordsTheEmission := by
  intro rout rol rsl rcnt rbs s c es sorted S hg hn hd
  have hrepaired := read_storeFragments_sorted s (s.num rsl) sorted
  refine ⟨hasWord_of_wellFormed rfl (by decide) rfl, fun S' blocks hS' hb => ?_,
    fun S' e hS' he => raised_of_part rfl (hrepaired S') (withList_decodeWith_unrebuilt hg hn hd hS' he),
    fun e S' hS' => raised_of_part rfl (hrepaired S') (withList_decodeWith_uncorrected hg hn hd hS')⟩
  refine memDone_of_part rfl (fun x => ?_) (withList_decodeWith_rebuilt hg hn hd hS' hb)
  rw [read_writeBytes, funext (read_writeBytes_repaired s _ _ sorted S' _), flatten_emissionRecords, emissionOrder]

end Sys2Proof.Machine
end

section
/-! The order of checks (60_exceptions.md R173): the first checks of the commands that the rule names. -/

namespace Sys2Proof.Machine

/-- A share list of fewer than K entries ends the front end in InsufficientShares, before its position and its place are
looked at (45_encode_rebuild.md R143, F2). -/
theorem withList_tooFew {s : State} {c : Codec} {a : ListOperands} {outs : Codec → List Region}
    {work : Listed → Except Halt (Memory × Option ErrorCode)} (hc : s.codec = some c) (hk : a.cnt < c.k) :
    withList s a outs work = .error (.raised .insufficientShares) := by
  have hsort : sortList s a outs = .error (.raised .insufficientShares) := by
    rw [sortList, needCodec_bind_some hc]
    exact demand_bind_raised (by simpa using hk)
  rw [withList, hsort, error_bind]

/-- MGET looks at its indices first (43_matrix.md R111). -/
theorem mgetValue_badIndex {s : State} {rm rr rc ri rj : Reg} (h : s.num rr ≤ s.num ri ∨ s.num rc ≤ s.num rj) :
    mgetValue rm rr rc ri rj s = .error (.raised .operandRange) :=
  demand_bind_raised fun hin => by
    rw [Bool.and_eq_true, decide_eq_true_iff, decide_eq_true_iff] at hin
    omega

/-- Settles O15: the check each clause speaks of comes first, or right after the codec's and the count's. -/
theorem checkPriorityExamples : Obligations.CheckPriorityExamples := by
  refine ⟨?encsingle, ?mget, ?lists, ?bwb⟩
  case encsingle => exact fun _ _ _ _ _ _ hc hx => failsClean_of_mem rfl (encsingleMem_badIndex hc hx)
  case mget => exact fun _ _ _ _ _ _ _ h => failsClean_of_reg rfl (mgetValue_badIndex h)
  case lists =>
    rintro i s c cnt hc hk (⟨_, _, _, rfl⟩ | ⟨_, _, rfl⟩ | ⟨_, _, _, _, rfl⟩ | ⟨_, _, rfl⟩ | ⟨_, _, _, rfl⟩ |
      ⟨_, _, _, _, rfl⟩) <;> exact failsClean_of_part rfl (withList_tooFew hc hk)
  case bwb =>
    exact fun _ _ _ _ _ _ _ hc hk hp =>
      failsClean_of_part rfl (withList_badPosition hc hk (by simpa [positionLegal] using hp))

end Sys2Proof.Machine
end

section
/-! How every command ends (60_exceptions.md R170, R171, R177): in a next state with a code of R171, or refused for one
of the unspecified cases of 93_implementation_defined.md. -/

namespace Sys2Proof.Machine

/-! ### What can be refused -/

/-- The cases that the spec leaves unspecified (93_implementation_defined.md U1 to U3). -/
def unspecifiedCases : List Refusal := [.unwrittenByte, .overlappingRegions, .duplicateNumbers]

/-- A check-and-compute part refuses, if it does, one of the unspecified cases. -/
def RefusesOnlyUnspecified {α : Type} (p : Except Halt α) : Prop := ∀ r, p = .error (.refuse r) → r ∈ unspecifiedCases

namespace RefusesOnlyUnspecified

variable {α β : Type} {s : State}

@[simp] theorem ok (v : α) : RefusesOnlyUnspecified (.ok v) := nofun

@[simp] theorem raised (e : ErrorCode) : RefusesOnlyUnspecified (α := α) (.error (.raised e)) := nofun

@[simp] theorem refuse_iff (r : Refusal) :
    RefusesOnlyUnspecified (α := α) (.error (.refuse r)) ↔ r ∈ unspecifiedCases := by
  simp [RefusesOnlyUnspecified]

/-- A sequence refuses what its first part refuses, or what the rest does. -/
@[simp] theorem bind_iff (p : Except Halt α) (f : α → Except Halt β) :
    RefusesOnlyUnspecified (p >>= f) ↔
      RefusesOnlyUnspecified p ∧ ∀ u, p = .ok u → RefusesOnlyUnspecified (f u) := by
  cases p <;> simp [RefusesOnlyUnspecified]

@[simp] theorem demand (c : Bool) (e : ErrorCode) : RefusesOnlyUnspecified (demand c e) := by cases c <;> simp

@[simp] theorem demandInside (r : Region) : RefusesOnlyUnspecified (s.demandInside r) := demand _ _

@[simp] theorem demandAllInside (rs : List Region) : RefusesOnlyUnspecified (s.demandAllInside rs) := demand _ _

@[simp] theorem demandMatrix (m : MatOp) : RefusesOnlyUnspecified (s.demandMatrix m) := demand _ _

@[simp] theorem demandPolicy (pol : Nibble) : RefusesOnlyUnspecified (demandPolicy pol) := by
  unfold Machine.demandPolicy
  split <;> simp

@[simp] theorem needCodec : RefusesOnlyUnspecified s.needCodec := by
  rcases needCodec_cases s with ⟨c, -, h⟩ | ⟨-, h⟩ <;> simp [h]

@[simp] theorem orRaise (p : Except ErrorCode α) : RefusesOnlyUnspecified (orRaise p) := by
  cases p <;> simp [Machine.orRaise]

@[simp] theorem demandNoClash (ws rs : List Region) : RefusesOnlyUnspecified (demandNoClash ws rs) := by
  rcases demandNoClash_cases ws rs with ⟨-, h⟩ | ⟨-, h⟩ <;> simp [h, unspecifiedCases]

@[simp] theorem load (m : Memory) (r : Region) : RefusesOnlyUnspecified (m.load r) := by
  rcases load_cases m r with ⟨u, h, -⟩ | h <;> simp [h, unspecifiedCases]

@[simp] theorem loadEach (m : Memory) (rs : List Region) : RefusesOnlyUnspecified (m.loadEach rs) := by
  induction rs with
  | nil => exact ok _
  | cons r rs ih => simp [Memory.loadEach, ih]

@[simp] theorem loadFragments (L : Listed) (bs : Nat) : RefusesOnlyUnspecified (loadFragments L bs) := by
  simp [Machine.loadFragments]

@[simp] theorem sortList (a : ListOperands) (outs : Codec → List Region) :
    RefusesOnlyUnspecified (sortList s a outs) := by
  simp only [Machine.sortList, bind_iff, needCodec, demand, demandInside, demandAllInside, load, true_and]
  intros
  split <;> simp [unspecifiedCases]

/-- The front end refuses only unspecified cases, if the command's own work does. -/
theorem withList (a : ListOperands) (outs : Codec → List Region)
    {work : Listed → Except Halt (Memory × Option ErrorCode)} (hw : ∀ L, RefusesOnlyUnspecified (work L)) :
    RefusesOnlyUnspecified (withList s a outs work) := by
  rcases withList_cases s a outs work with ⟨h, hs, he⟩ | ⟨L, -, ⟨e, -, he⟩ | ⟨-, -, he⟩ | ⟨-, -, he⟩⟩ <;> rw [he]
  · have hsort := sortList (s := s) a outs
    rw [hs] at hsort
    exact fun r hr => hsort r (by cases hr; rfl)
  · exact ok _
  · simp [unspecifiedCases]
  · exact hw L

/-- Work that reads the fragments and then always ends refuses only unspecified cases. -/
theorem decodeWith (L : Listed) (bs : Nat) (emit : Memory → List Fragment → List (List Byte) → Memory) :
    RefusesOnlyUnspecified (decodeWith L bs emit) := by
  simp only [Machine.decodeWith, bind_iff, loadFragments, true_and]
  intros
  split
  · exact ok _
  · split <;> exact ok _

end RefusesOnlyUnspecified

/-! ### The answers of a command -/

/-- The answer is a next state or the refusal of an unspecified case; it is no fault. -/
def EndsOrRefuses (a : Answer) : Prop := (∃ t, a = .next t) ∨ ∃ r ∈ unspecifiedCases, a = .refused r

section
variable {s : State} {i : Instr}

/-- A command that its checks stop fails, or refuses what they refuse. -/
theorem RefusesOnlyUnspecified.halt {α : Type} {h : Halt}
    (hp : RefusesOnlyUnspecified (.error h : Except Halt α)) : EndsOrRefuses (s.halt i h) := by
  obtain ⟨e, -, he⟩ | ⟨r, rfl, he⟩ := halt_cases s i h
  · exact .inl ⟨_, he⟩
  · exact .inr ⟨r, hp r rfl, he⟩

theorem finishReg_endsOrRefuses {rd : Reg} {p : Except Halt Word} (hp : RefusesOnlyUnspecified p) :
    EndsOrRefuses (s.finishReg i rd p) := by
  cases p with
  | ok v => exact .inl ⟨_, rfl⟩
  | error h => exact hp.halt

theorem finishMem_endsOrRefuses {p : Except Halt Memory} (hp : RefusesOnlyUnspecified p) :
    EndsOrRefuses (s.finishMem i p) := by
  cases p with
  | ok m => exact .inl ⟨_, rfl⟩
  | error h => exact hp.halt

theorem finishPart_endsOrRefuses {p : Except Halt (Memory × Option ErrorCode)} (hp : RefusesOnlyUnspecified p) :
    EndsOrRefuses (s.finishPart i p) := by
  match p with
  | .ok (m, none) => exact .inl ⟨_, rfl⟩
  | .ok (m, some e) => exact .inl ⟨_, rfl⟩
  | .error h => exact hp.halt

theorem finishDiv_endsOrRefuses {p : Except Halt (Memory × Nat × Nat)} (hp : RefusesOnlyUnspecified p) :
    EndsOrRefuses (s.finishDiv i p) := by
  cases p with
  | ok p => exact .inl ⟨_, rfl⟩
  | error h => exact hp.halt

theorem finishCodec_endsOrRefuses {p : Except Halt Codec} (hp : RefusesOnlyUnspecified p) :
    EndsOrRefuses (s.finishCodec i p) := by
  cases p with
  | ok c => exact .inl ⟨_, rfl⟩
  | error h => exact hp.halt

end

/-- Every command ends or refuses an unspecified case: its check-and-compute part is a sequence of shared checks and
loads, each of which refuses nothing else. -/
theorem exec_endsOrRefuses (i : Instr) (s : State) : EndsOrRefuses (exec i s) := by
  cases i
  case nop | clrerr => exact .inl ⟨_, rfl⟩
  case li | lih | mov | gfadd | gfmul | gfpow | gflog => exact .inl ⟨_, rfl⟩
  case mfs => exact finishReg_endsOrRefuses (by split <;> simp)
  case ldb | gfdiv | gfinv | gfexp | vdot | peval | mget | mrow | required | total | encget | vandget =>
    exact finishReg_endsOrRefuses (by
      simp [ldbValue, gfdivValue, gfinvValue, gfexpValue, vdotValue, pevalValue, mgetValue, mrowValue, requiredValue,
        totalValue, encgetValue, vandgetValue])
  case stb | vaddmul | pscale | padd | mset | mswap | mscale | maddmul | mpar | encdump | vanddump | encode |
      encsingle =>
    exact finishMem_endsOrRefuses (by
      simp [stbMem, vaddmulMem, pscaleMem, paddMem, msetMem, mswapMem, mscaleMem, maddmulMem, mparMem, encdumpMem,
        vanddumpMem, encodeMem, encsingleMem])
  case pdiv => exact finishDiv_endsOrRefuses (by simp [pdivResult])
  case fecnew => exact finishCodec_endsOrRefuses (by simp [fecnewCodec])
  case mstd | minv => exact finishPart_endsOrRefuses (by simp [mstdResult, minvResult])
  case decode | decnc => exact finishPart_endsOrRefuses (.withList _ _ fun _ => .decodeWith _ _ _)
  case synd => exact finishPart_endsOrRefuses (.withList _ _ fun _ => by split <;> simp)
  case rebuild | bwb | correct =>
    refine finishPart_endsOrRefuses (.withList _ _ fun _ => ?_)
    simp only [RefusesOnlyUnspecified.bind_iff, RefusesOnlyUnspecified.loadFragments, true_and]
    intros
    split <;> simp

/-- A command that ends answers OK or a code of R171. -/
theorem Ended.response {i : Instr} {s t : State} (h : Ended i s t) :
    ∃ b, t.response = some b ∧ (b = codeOk ∨ b ∈ errorCodes) := by
  cases h with
  | raised m e hm => exact ⟨e.code, rfl, .inr (code_mem_errorCodes e)⟩
  | clrerr | reg | mem | div | codec => exact ⟨codeOk, rfl, .inl rfl⟩

/-- Settles O10: `Ended.response` for a command that ends, `exec_endsOrRefuses` for one that does not. -/
theorem everyCommandEndsWithACode : Obligations.EveryCommandEndsWithACode := by
  refine fun i s => ⟨fun f hf => ?_, fun t ht => (exec_ended ht).response, fun r hr => ?_⟩
  · obtain ⟨t, h⟩ | ⟨r, -, h⟩ := exec_endsOrRefuses i s <;> cases hf.symm.trans h
  · obtain ⟨t, h⟩ | ⟨r', hr', h⟩ := exec_endsOrRefuses i s <;> cases hr.symm.trans h
    exact hr'

end Sys2Proof.Machine
end

section
/-! What a command that ends has changed (60_exceptions.md R172, R174): with success the error latch keeps its value;
with an error only the latch has changed, and BUF where the error can come after a change of BUF. -/

namespace Sys2Proof.Machine

/-! ### The errors after the sort of a share list -/

/-- An error that a share-list command can meet after the sort, so that it may find BUF changed (R174). -/
def LateError (e : ErrorCode) : Prop := e ∉ [ErrorCode.noCodec, .insufficientShares, .operandRange]

theorem lateError_listError {s : State} {a : ListOperands} {L : Listed} {e : ErrorCode}
    (h : listError s a L = some e) : LateError e := by
  obtain rfl | rfl := listError_eq s a L e h <;> simp [LateError]

theorem lateError_syndrome {c : Codec} {nums : List Nat} {e : ErrorCode} (h : syndrome c nums = .error e) :
    LateError e := by
  rw [syndrome_error h]; simp [LateError]

theorem lateError_rebuildBlocks {c : Codec} {bs : Nat} {S : List Fragment} {e : ErrorCode}
    (h : rebuildBlocks c bs S = .error e) : LateError e := by
  rw [rebuildBlocks_error h]; simp [LateError]

theorem polydiv_error {A B : List Byte} {e : ErrorCode} (h : polydiv A B = .error e) : e = .divideByZero := by
  obtain ⟨-, hd⟩ | ⟨-, q, r, hd, -⟩ := polydiv_cases A B <;> cases hd.symm.trans h
  rfl

theorem bytesFromSolution_error {n e : Nat} {u : List Byte} {err : ErrorCode}
    (h : bytesFromSolution n e u = .error err) : err = .divideByZero ∨ err = .uncorrectableErrors := by
  unfold bytesFromSolution at h
  split at h
  · next hd => cases h; exact .inl (polydiv_error hd)
  · split at h <;> cases h
    exact .inr rfl

theorem lateError_bw {c : Codec} {S : List Fragment} {p : Nat} {e : ErrorCode} (h : bw c S p = .error e) :
    LateError e := by
  simp only [bw] at h
  split at h
  · cases h; simp [LateError]
  · obtain rfl | rfl := bytesFromSolution_error h <;> simp [LateError]

theorem lateError_repairEach {c : Codec} {ps : List Nat} {S : List Fragment} {x : ErrorCode × List Fragment}
    (h : repairEach c ps S = .error x) : LateError x.1 := by
  induction ps generalizing S with
  | nil => cases h
  | cons p ps ih =>
    unfold repairEach repairAt at h
    cases hb : bw c S p with
    | ok bytes => rw [hb] at h; exact ih h
    | error e => rw [hb] at h; cases h; exact lateError_bw hb

theorem lateError_correctRows {c : Codec} {bs : Nat} {H : Rows} {S : List Fragment} {x : ErrorCode × List Fragment}
    (h : correctRows c bs H S = .error x) : LateError x.1 := by
  induction H generalizing S with
  | nil => cases h
  | cons row H ih =>
    unfold correctRows at h
    split at h
    · exact ih h
    · next hr => cases h; exact lateError_repairEach hr

theorem lateError_correctFragments {c : Codec} {bs : Nat} {S : List Fragment} {x : ErrorCode × List Fragment}
    (h : correctFragments c bs S = .error x) : LateError x.1 := by
  unfold correctFragments at h
  split at h
  · exact lateError_correctRows h
  · next hs => cases h; exact lateError_syndrome hs

/-- A check-and-compute part that ends with an error but does not stop at its checks has met a late error. -/
def FailsLate (p : Except Halt (Memory × Option ErrorCode)) : Prop := ∀ m e, p = .ok (m, some e) → LateError e

namespace FailsLate

theorem success (m : Memory) : FailsLate (.ok (m, none)) := nofun

theorem failure (m : Memory) {e : ErrorCode} (h : LateError e) : FailsLate (.ok (m, some e)) := by
  rintro _ _ ⟨⟩
  exact h

theorem bind {α : Type} {p : Except Halt α} {f : α → Except Halt (Memory × Option ErrorCode)}
    (h : ∀ v, FailsLate (f v)) : FailsLate (p >>= f) := by
  cases p with
  | ok v => exact h v
  | error e => exact nofun

/-- The front end meets errors after the sort only in steps F8 and F9, or in the command's own work (R143). -/
theorem withList {s : State} {a : ListOperands} {outs : Codec → List Region}
    {work : Listed → Except Halt (Memory × Option ErrorCode)} (hw : ∀ L, FailsLate (work L)) :
    FailsLate (withList s a outs work) := by
  obtain ⟨h, -, he⟩ | ⟨L, -, ⟨e, hl, he⟩ | ⟨-, -, he⟩ | ⟨-, -, he⟩⟩ := withList_cases s a outs work <;> rw [he]
  · exact nofun
  · exact failure _ (lateError_listError hl)
  · exact nofun
  · exact hw L

theorem decodeWith (L : Listed) (bs : Nat) (emit : Memory → List Fragment → List (List Byte) → Memory) :
    FailsLate (decodeWith L bs emit) := by
  refine .bind fun S => ?_
  split
  · next h => exact failure _ (lateError_correctFragments h)
  · split
    · next h => exact failure _ (lateError_rebuildBlocks h)
    · exact success _

theorem rebuildResult (rout rsl rcnt rbs : Reg) (s : State) : FailsLate (rebuildResult rout rsl rcnt rbs s) := by
  refine .withList fun L => .bind fun S => ?_
  split
  · exact success _
  · next h => exact failure _ (lateError_rebuildBlocks h)

theorem syndResult (rout rsl rcnt : Reg) (s : State) : FailsLate (syndResult rout rsl rcnt s) := by
  refine .withList fun L => ?_
  split
  · exact success _
  · next h => exact failure _ (lateError_syndrome h)

theorem bwbResult (rout rsl rcnt rbs rp : Reg) (s : State) : FailsLate (bwbResult rout rsl rcnt rbs rp s) := by
  refine .withList fun L => .bind fun S => ?_
  split
  · exact success _
  · next h => exact failure _ (lateError_bw h)

theorem correctResult (rsl rcnt rbs : Reg) (s : State) : FailsLate (correctResult rsl rcnt rbs s) := by
  refine .withList fun L => .bind fun S => ?_
  split
  · exact success _
  · next h => exact failure _ (lateError_correctFragments h)

end FailsLate

/-! ### The error of an elimination in place -/

/-- The one error of an elimination in place (43_matrix.md R119, R120). -/
theorem eliminateInBuf_failed {mem m' : Memory} {m a : Nat} {policy : Policy} {rows : List PairRow} {e : ErrorCode}
    (h : eliminateInBuf mem m a policy rows = (m', some e)) : e = .matrixInversionFailed := by
  unfold eliminateInBuf at h
  split at h <;> cases h
  rfl

theorem mstdResult_failed {rm rr rc : Reg} {pol : Nibble} {s : State} {m : Memory} {e : ErrorCode}
    (h : mstdResult rm rr rc pol s = .ok (m, some e)) : e = .matrixInversionFailed := by
  simp only [mstdResult, bind_eq_ok, Except.ok.injEq] at h
  obtain ⟨_, -, _, -, _, -, _, -, h⟩ := h
  exact eliminateInBuf_failed h

theorem minvResult_failed {rm rr rc ra rca : Reg} {pol : Nibble} {s : State} {m : Memory} {e : ErrorCode}
    (h : minvResult rm rr rc ra rca pol s = .ok (m, some e)) : e = .matrixInversionFailed := by
  simp only [minvResult, bind_eq_ok, Except.ok.injEq] at h
  obtain ⟨_, -, _, -, _, -, _, -, _, -, _, -, _, -, h⟩ := h
  exact eliminateInBuf_failed h

/-! ### The ends of a command -/

/-- Command `i` can meet error `e` after it has changed BUF (R174). -/
def MayChangeBuf (i : Instr) (e : ErrorCode) : Prop :=
  eliminatesInBuf i = true ∧ e = .matrixInversionFailed ∨ usesShareList i = true ∧ LateError e

/-- Command `i` has ended in `t`, with success and the latch as it was, or with an error that has changed nothing else,
but for BUF where it may (R172, R174). -/
def OkOrLatched (i : Instr) (s t : State) : Prop :=
  (EndsOk s t ∧ LatchKept s t) ∨ ∃ e, Raised s t (encode i) e ∧ (t.mem = s.mem ∨ MayChangeBuf i e)

section
variable {s t : State} {i : Instr}

/-- Success keeps the latch, whatever else the command has written before it completes (R172). -/
theorem complete_okOrLatched {u : State} (hp : PortsKept s u) (hl : LatchKept s u) (hc : u.cseq = s.cseq) :
    OkOrLatched i s u.complete :=
  .inl ⟨⟨⟨hp.memsz, hp.inbox, hp.hostData⟩, congrArg (· + 1) hc, rfl⟩, hl.errs, hl.err, hl.ecmd, hl.eseq⟩

theorem raise_okOrLatched (e : ErrorCode) : OkOrLatched i s (s.raise (encode i) e) :=
  .inr ⟨e, raised_clean s _ e, .inl rfl⟩

theorem finishReg_okOrLatched {rd : Reg} {p : Except Halt Word} (h : s.finishReg i rd p = .next t) :
    OkOrLatched i s t := by
  obtain ⟨v, -, rfl⟩ | ⟨e, -, rfl⟩ := finishReg_next h
  · exact complete_okOrLatched ⟨rfl, rfl, rfl⟩ ⟨rfl, rfl, rfl, rfl⟩ rfl
  · exact raise_okOrLatched e

theorem finishMem_okOrLatched {p : Except Halt Memory} (h : s.finishMem i p = .next t) : OkOrLatched i s t := by
  obtain ⟨m, -, rfl⟩ | ⟨e, -, rfl⟩ := finishMem_next h
  · exact complete_okOrLatched ⟨rfl, rfl, rfl⟩ ⟨rfl, rfl, rfl, rfl⟩ rfl
  · exact raise_okOrLatched e

theorem finishDiv_okOrLatched {p : Except Halt (Memory × Nat × Nat)} (h : s.finishDiv i p = .next t) :
    OkOrLatched i s t := by
  obtain ⟨m, l0, l1, -, rfl⟩ | ⟨e, -, rfl⟩ := finishDiv_next h
  · exact complete_okOrLatched ⟨rfl, rfl, rfl⟩ ⟨rfl, rfl, rfl, rfl⟩ rfl
  · exact raise_okOrLatched e

theorem finishCodec_okOrLatched {p : Except Halt Codec} (h : s.finishCodec i p = .next t) : OkOrLatched i s t := by
  obtain ⟨c, -, rfl⟩ | ⟨e, -, rfl⟩ := finishCodec_next h
  · exact complete_okOrLatched ⟨rfl, rfl, rfl⟩ ⟨rfl, rfl, rfl, rfl⟩ rfl
  · exact raise_okOrLatched e

theorem finishPart_okOrLatched {p : Except Halt (Memory × Option ErrorCode)} (h : s.finishPart i p = .next t)
    (hp : ∀ m e, p = .ok (m, some e) → MayChangeBuf i e) : OkOrLatched i s t := by
  obtain ⟨m, -, rfl⟩ | ⟨m, e, hm, rfl⟩ | ⟨e, -, rfl⟩ := finishPart_next h
  · exact complete_okOrLatched ⟨rfl, rfl, rfl⟩ ⟨rfl, rfl, rfl, rfl⟩ rfl
  · exact .inr ⟨e, raised_of s m _ e, .inr (hp m e hm)⟩
  · exact raise_okOrLatched e

theorem finishPart_okOrLatched_of_failsLate {p : Except Halt (Memory × Option ErrorCode)}
    (h : s.finishPart i p = .next t) (hi : usesShareList i = true) (hp : FailsLate p) : OkOrLatched i s t :=
  finishPart_okOrLatched h fun m e he => .inr ⟨hi, hp m e he⟩

/-- Every command but CLRERR, by the operation it ends with. -/
theorem exec_okOrLatched (h : exec i s = .next t) (hi : i ≠ .clrerr) : OkOrLatched i s t := by
  cases i
  case clrerr => exact absurd rfl hi
  case nop | li | lih | mov | gfadd | gfmul | gfpow | gflog =>
    cases h
    exact complete_okOrLatched ⟨rfl, rfl, rfl⟩ ⟨rfl, rfl, rfl, rfl⟩ rfl
  case mfs | ldb | gfdiv | gfinv | gfexp | vdot | peval | mget | mrow | required | total | encget | vandget =>
    exact finishReg_okOrLatched h
  case stb | vaddmul | pscale | padd | mset | mswap | mscale | maddmul | mpar | encdump | vanddump | encode |
      encsingle =>
    exact finishMem_okOrLatched h
  case pdiv => exact finishDiv_okOrLatched h
  case fecnew => exact finishCodec_okOrLatched h
  case mstd => exact finishPart_okOrLatched h fun m e he => .inl ⟨rfl, mstdResult_failed he⟩
  case minv => exact finishPart_okOrLatched h fun m e he => .inl ⟨rfl, minvResult_failed he⟩
  case rebuild => exact finishPart_okOrLatched_of_failsLate h rfl (.rebuildResult _ _ _ _ _)
  case synd => exact finishPart_okOrLatched_of_failsLate h rfl (.syndResult _ _ _ _)
  case bwb => exact finishPart_okOrLatched_of_failsLate h rfl (.bwbResult _ _ _ _ _ _)
  case correct => exact finishPart_okOrLatched_of_failsLate h rfl (.correctResult _ _ _ _)
  case decode | decnc => exact finishPart_okOrLatched_of_failsLate h rfl (.withList fun _ => .decodeWith _ _ _)

end

theorem usesShareList_of_eliminatesInBuf {i : Instr} (h : eliminatesInBuf i = true) : usesShareList i = false := by
  cases i
  case mstd | minv => rfl
  all_goals cases h

/-- Settles O9: CLRERR run, and `exec_okOrLatched` for the others; the errors that may find BUF changed are those that
the statement leaves out. -/
theorem failureOnlyLatchesTheError : Obligations.FailureOnlyLatchesTheError := by
  intro i s t h
  by_cases hi : i = .clrerr
  · subst hi
    cases h
    exact .inl ⟨⟨⟨rfl, rfl, rfl⟩, rfl, rfl⟩, fun hne => absurd rfl hne⟩
  obtain ⟨hok, hlatch⟩ | ⟨e, hraised, hmem | ⟨helim, rfl⟩ | ⟨hlist, hlate⟩⟩ := exec_okOrLatched h hi
  · exact .inl ⟨hok, fun _ => hlatch⟩
  · exact .inr ⟨e, hraised, fun _ _ => hmem, fun _ _ => hmem, fun _ _ => hmem⟩
  · have hnoList := usesShareList_of_eliminatesInBuf helim
    refine .inr ⟨_, hraised, fun h => ?_, fun _ h => absurd rfl h, fun h => ?_⟩
    · cases helim.symm.trans h
    · cases hnoList.symm.trans h
  · refine .inr ⟨e, hraised, fun _ h => ?_, fun h => ?_, fun _ h => absurd h hlate⟩
    · cases hlist.symm.trans h
    · cases hlist.symm.trans (usesShareList_of_eliminatesInBuf h)

end Sys2Proof.Machine
end
